-- ==== Sys2Proof/Word.lean ====
section
/-! DEFINITION. The word types of the FBC: one bit, one byte, one 16-bit operand (00_scope.md R10). -/

namespace Sys2Proof

/-- One bit: a pin level, a mode bit, a pixel value, a flag. -/
abbrev Bit := BitVec 1

/-- A byte is 8 bits (R10). -/
abbrev Byte := BitVec 8

/-- A 16-bit operand field of a descriptor (R44). -/
abbrev Half := BitVec 16

/-- A 32-bit register value: a clock rate in Hz. -/
abbrev Quad := BitVec 32

end Sys2Proof
end

