-- ==== Sys2Proof/Config.lean ====
section
/-! DEFINITION. The constants the source fixes (00_scope.md R8), the implementation parameters it leaves open (R9) as one
record of plain data, and the free values: constants without a body, of which nothing can be proved but that they exist. -/

namespace Sys2Proof

/-! ## Constants (R8) -/

/-- `W`, pixels per row (R8). -/
abbrev Config.width : Nat := 200
/-- `H`, rows (R8). -/
abbrev Config.height : Nat := 200
/-- `BPR`, bytes per row (R8). -/
abbrev Config.bytesPerRow : Nat := 25
/-- `PLANE_BYTES` (R8). -/
abbrev Config.planeBytes : Nat := 5000
/-- `CLK_DEFAULT`, 4 MHz (R8). -/
abbrev Config.clkDefault : Quad := 4000000
/-- `T_RST` and `T_SWRST`: at least 10 ms each (R8), in microseconds (log 30). -/
abbrev Config.tRst : Nat := 10000
abbrev Config.tSwrst : Nat := 10000
/-- `T_CEIL`: the ceiling of one wait-for-ready, about 10 s (R8), in microseconds; it acts only as the bound `N_POLL` (R18).
Nothing in the model reads this constant: DESIGN CHOICE (log 32), no relation of it to `N_POLL * T_POLL` is imposed. -/
abbrev Config.tCeil : Nat := 10000000
/-- `UC1_A`, `UC1_B` (R8). -/
abbrev Config.uc1A : Byte := 0x00
abbrev Config.uc1B : Byte := 0x80
/-- `FLASH_FILL` (R8). -/
abbrev Config.flashFill : Byte := 0xFF
/-- `GLYPH_SRC`: a source glyph is 8 x 8 (R8). -/
abbrev Config.glyphSrc : Nat := 8
/-- `CHAR_MAX`: the highest character code that has a glyph (R8). -/
abbrev Config.charMax : Nat := 127
/-- The null pointer value of `PTR` (R76). -/
abbrev Config.nullPtr : Half := 0xFFFF

/-! ## The sixteen panel commands (30_encoding.md R109) -/

/-- The sixteen panel commands, one for each row of the opcode table whose format is PC or PCB (R109). -/
inductive PanelOp where
  | swreset | drvout | entry | xrange | yrange | border | temp | xcnt
  | ycnt | wrbw | wrred | uc1 | uc2 | act | softst | sleep
deriving DecidableEq, Repr

/-- All sixteen, in the order of the table. -/
def PanelOp.all : List PanelOp :=
  [.swreset, .drvout, .entry, .xrange, .yrange, .border, .temp, .xcnt,
   .ycnt, .wrbw, .wrred, .uc1, .uc2, .act, .softst, .sleep]

/-! ## Parameters (R9) -/

/-- What a preset of the configuration fixes beyond WIRING and CLK_HZ: the bus index and six pin numbers
(46_lifecycle.md R286, R287). -/
structure Preset where
  bus : Bit
  pinSdo : Byte
  pinSck : Byte
  pinCs : Byte
  pinDc : Byte
  pinRst : Byte
  pinBusy : Byte
deriving DecidableEq, Repr, Inhabited

/-- `STR_BG`: what drawString does to glyph-clear pixels (R9, R268). -/
inductive StrBg where
  | opaqueBg
  | transparentBg
deriving DecidableEq, Repr

/-- The four bytes of a soft-start command (R195). -/
structure SoftStartBytes where
  s0 : Byte
  s1 : Byte
  s2 : Byte
  s3 : Byte
deriving DecidableEq, Repr, Inhabited

/-- One known value of the function SS_ENCODE: its three arguments and its result, `none` standing for `invalid`
(R9, R250; log 9). -/
structure SoftStartRow where
  strength : Half
  time : Half
  minOff : Half
  result : Option SoftStartBytes
deriving DecidableEq, Repr

/-- The parameters R9 leaves open, as plain data. Every one of them is an argument of the model: a state carries the
record, no step writes it, and a statement over all states holds for every value of every parameter (log 7). -/
structure Params where
  opcSwreset : Byte
  opcDriverOutput : Byte
  opcDataEntry : Byte
  opcRamXRange : Byte
  opcRamYRange : Byte
  opcBorder : Byte
  opcTempSensor : Byte
  opcRamXCnt : Byte
  opcRamYCnt : Byte
  opcWriteRamBw : Byte
  opcWriteRamRed : Byte
  opcUpdateCtrl1 : Byte
  opcUpdateCtrl2 : Byte
  opcMasterAct : Byte
  opcSoftStart : Byte
  opcDeepSleep : Byte
  gateScan : Byte
  dataEntry : Byte
  border : Byte
  tempSrc : Byte
  /-- `T_POLL`, in microseconds; not tied to `nPoll` by the ceiling of about 10 s (R204; log 32). -/
  tPoll : Nat
  /-- `N_POLL`, a positive integer (`Params.wellFormed`; log 26). -/
  nPoll : Nat
  /-- `T_SETTLE`, in microseconds. -/
  tSettle : Nat
  busyActive : Bit
  /-- `SPI_MODE` = (CPOL, CPHA); no rule depends on it (D6). -/
  spiMode : Bit × Bit
  preset3 : Preset
  preset4 : Preset
  /-- Known values of `SS_ENCODE`; the rest are `Config.freeSoftStart` (log 9). -/
  softStart : List SoftStartRow
  /-- `FONT`: the glyph of each character 0..127, bit `8 * row + column` (log 9). -/
  font : Vector (BitVec 64) 128
  strBg : StrBg
  /-- `P_DEINIT_SLEEP`: `none`, or the sleep command's mode byte. -/
  deinitSleep : Option Byte
  hbufSize : Nat
deriving DecidableEq, Repr

/-- The opcode byte a panel command's command frame carries (R109). -/
def Params.opcode (p : Params) : PanelOp → Byte
  | .swreset => p.opcSwreset
  | .drvout => p.opcDriverOutput
  | .entry => p.opcDataEntry
  | .xrange => p.opcRamXRange
  | .yrange => p.opcRamYRange
  | .border => p.opcBorder
  | .temp => p.opcTempSensor
  | .xcnt => p.opcRamXCnt
  | .ycnt => p.opcRamYCnt
  | .wrbw => p.opcWriteRamBw
  | .wrred => p.opcWriteRamRed
  | .uc1 => p.opcUpdateCtrl1
  | .uc2 => p.opcUpdateCtrl2
  | .act => p.opcMasterAct
  | .softst => p.opcSoftStart
  | .sleep => p.opcDeepSleep

/-! ## Free values: what the spec leaves open and no parameter record can name (log 5, 8) -/

/-- The level of the BUSY pin at a sample (R38, U8). -/
opaque Config.freeBusy : Nat → Bit
/-- The count a bus write reports as transferred (R142, U9); the write takes it up to the length asked. -/
opaque Config.freeCount : Nat → Nat
/-- The achieved rate a bus initialisation reports (R152, U10). -/
opaque Config.freeRate : Nat → Nat
/-- Whether the shared bus is 9 bits wide, and its clock, when an operation begins (R49, U11). -/
opaque Config.freeBusWide : Nat → Bool
opaque Config.freeBusHz : Nat → Quad
/-- An unspecified bit: a released pin, TS.MODE of a bus just opened, TS.MODE read while TS does not exist (U2, U21). -/
opaque Config.freeBit : Nat → Bit
/-- An unspecified byte of a plane or of HBUF: the fill's number and the byte's address (U2, U3). -/
opaque Config.freeByte : Nat → Nat → Byte
/-- SS_ENCODE where the parameter record lists no value (D23). -/
opaque Config.freeSoftStart : Half → Half → Half → Option SoftStartBytes
/-- T_POLL, N_POLL less one, T_SETTLE: no default in the spec (R9). They are drawn independently of each other: that
N_POLL * T_POLL is about 10 s (R9, R204) is not imposed on them (log 32). -/
opaque Config.freeTPoll : Nat
opaque Config.freeNPollPred : Nat
opaque Config.freeTSettle : Nat
/-- PRESET3, PRESET4, FONT: no default in the spec (R9). -/
opaque Config.freePreset3 : Preset
opaque Config.freePreset4 : Preset
opaque Config.freeFont : Vector (BitVec 64) 128

/-- The parameters with the defaults R9 lists. Those marked gk there are PRESUMED (general knowledge, not the source's,
log 7); those without a default are free values (log 8), T_POLL and N_POLL among them independent of each other (log 32). No statement over all states depends on this record. -/
def Config.defaults : Params where
  opcSwreset := 0x12
  opcDriverOutput := 0x01
  opcDataEntry := 0x11
  opcRamXRange := 0x44
  opcRamYRange := 0x45
  opcBorder := 0x3C
  opcTempSensor := 0x18
  opcRamXCnt := 0x4E
  opcRamYCnt := 0x4F
  opcWriteRamBw := 0x24
  opcWriteRamRed := 0x26
  opcUpdateCtrl1 := 0x21
  opcUpdateCtrl2 := 0x22
  opcMasterAct := 0x20
  opcSoftStart := 0x0C
  opcDeepSleep := 0x10
  gateScan := 0x00
  dataEntry := 0x03
  border := 0x05
  tempSrc := 0x80
  tPoll := Config.freeTPoll
  nPoll := Config.freeNPollPred + 1
  tSettle := Config.freeTSettle
  busyActive := 1
  spiMode := (0, 0)
  preset3 := Config.freePreset3
  preset4 := Config.freePreset4
  softStart := []
  font := Config.freeFont
  strBg := .opaqueBg
  deinitSleep := none
  hbufSize := 65536

end Sys2Proof
end

