-- ==== Sys2Proof/Syntax.lean ====
section
/-! DEFINITION. The instructions: one constructor for each row of spec/opcode_table.json, the fourteen host operations
(30_encoding.md R100) and the sixteen panel commands (R109). -/

namespace Sys2Proof

/-- The colour plane selector: black = 0, red = 1 (10_state.md R51). -/
inductive Plane where
  | black
  | red
deriving DecidableEq, Repr

/-- The wiring mode: 4-wire = 0, 3-wire = 1 (R31). -/
inductive Wiring where
  | fourWire
  | threeWire
deriving DecidableEq, Repr

/-- The four refresh strategies (R51, 44_update_sequencer.md R231). -/
inductive UpdateType where
  | fastPartial
  | cleanFull
  | fastFull
  | cleanFullAggressive
deriving DecidableEq, Repr

/-- The two values ever written to update-control-2 (41_command_protocol.md R193). -/
inductive Waveform where
  /-- 0xFE, "partial waveform, no full clear". -/
  | partialWave
  /-- 0xF6, "full clean waveform". -/
  | cleanWave
deriving DecidableEq, Repr

/-- The two payloads a RAM write of the black plane ever has (R190): the plane itself (a push) or 5000 bytes of
0xFF (the fast-full flash). -/
inductive Payload where
  | planeBytes
  | flashBytes
deriving DecidableEq, Repr

/-- The instructions. Operand names are those of R100; a 16-bit operand is unsigned and never truncated (R102). -/
inductive Instr where
  /-- INIT (R280). -/
  | init
  /-- DEINIT (R284). -/
  | deinit
  /-- CFGDEF3 (R286). -/
  | cfgdef3
  /-- CFGDEF4 (R287). -/
  | cfgdef4
  /-- CLEAR (R214). -/
  | clear (plane : Plane)
  /-- WRBUF (R236). -/
  | wrbuf (plane : Plane)
  /-- WRPT (R210). -/
  | wrpt (plane : Plane) (x y : Half) (value : Bit)
  /-- RDPT (R212). -/
  | rdpt (plane : Plane) (x y : Half)
  /-- FILLRECT (R260). -/
  | fillrect (plane : Plane) (left top right bottom : Half) (value : Bit)
  /-- DRAWPIC (R264). -/
  | drawpic (plane : Plane) (left top right bottom ptr : Half)
  /-- DRAWSTR (R268). -/
  | drawstr (plane : Plane) (x y ptr length : Half) (value : Bit) (fontSize : Half)
  /-- SOFTSTART (R250). -/
  | softstart (strength time minOff : Half)
  /-- UPDATE (R240). -/
  | update (type : Half)
  /-- WRUPD (R244). -/
  | wrupd (type : Half)
  /-- P.SWRESET (R181). -/
  | pSwreset
  /-- P.DRVOUT (R182). -/
  | pDrvout
  /-- P.ENTRY (R183). -/
  | pEntry
  /-- P.XRANGE (R184): pixel coordinates of the first and last column. -/
  | pXrange (xs xe : Half)
  /-- P.YRANGE (R185): the first and last row. -/
  | pYrange (ys ye : Half)
  /-- P.BORDER (R186). -/
  | pBorder
  /-- P.TEMP (R187). -/
  | pTemp
  /-- P.XCNT (R188). -/
  | pXcnt (x : Half)
  /-- P.YCNT (R189). -/
  | pYcnt (y : Half)
  /-- P.WRBW (R190). -/
  | pWrbw (payload : Payload)
  /-- P.WRRED (R191). -/
  | pWrred
  /-- P.UC1 (R192). -/
  | pUc1
  /-- P.UC2 (R193). -/
  | pUc2 (waveform : Waveform)
  /-- P.ACT (R194). -/
  | pAct
  /-- P.SOFTST (R195). -/
  | pSoftst (s0 s1 s2 s3 : Byte)
  /-- P.SLEEP (R196). -/
  | pSleep
deriving DecidableEq, Repr

/-- What stands latched for the FBC to run: the 128-bit descriptor of a host operation (R101), or the command word of
one panel command of the operation under way (log 1, 2). -/
inductive CmdWord where
  | descriptor (w : BitVec 128)
  | panel (w : BitVec 48)
deriving DecidableEq, Repr

end Sys2Proof
end

