-- ==== Sys2Proof/WellFormed.lean ====
section
/-! DEFINITION. What the spec asks of the parameters (R9) and of the operands a caller passes (R76, R264). -/

namespace Sys2Proof

/-- "All sixteen opcode parameters must be pairwise distinct bytes" (R9, D8). -/
def Params.opcodesDistinct (p : Params) : Bool :=
  decide ((PanelOp.all.map p.opcode).Nodup)

/-- The constraints of R9 and R204 on the parameters that a number can be put to: distinct opcodes, N_POLL at least 1.
DESIGN CHOICE (log 32): R9 and R204 also want `N_POLL * T_POLL` of about 10 s. 'About' gives no bound, so no relation
between the two is asked for here or anywhere else in the model (safe). -/
def Params.wellFormed (p : Params) : Bool :=
  p.opcodesDistinct && decide (1 ≤ p.nPoll)

/-- Bytes a bitmap of the rectangle takes: `ceil(width / 8) * height` (R264). -/
def bitmapBytes (left top right bottom : Nat) : Nat :=
  ((right - left + 1 + 7) / 8) * (bottom - top + 1)

/-- The caller's guarantee on the host operand buffer (R76, R264, U3): the bytes an operation may read from `PTR` on
lie inside HBUF. The null pointer is no buffer and needs none. Every other operand may have any value: the operation
itself checks it and answers with a status. -/
def Instr.wellFormed (p : Params) : Instr → Bool
  | .drawpic _ l t r b ptr =>
      decide (ptr = Config.nullPtr) ||
      decide (ptr.toNat + bitmapBytes l.toNat t.toNat r.toNat b.toNat ≤ p.hbufSize)
  | .drawstr _ _ _ ptr len _ _ =>
      decide (ptr = Config.nullPtr) || decide (ptr.toNat + len.toNat ≤ p.hbufSize)
  | .init | .deinit | .cfgdef3 | .cfgdef4 | .clear _ | .wrbuf _ | .wrpt _ _ _ _ | .rdpt _ _ _
  | .fillrect _ _ _ _ _ _ | .softstart _ _ _ | .update _ | .wrupd _ => true
  | .pSwreset | .pDrvout | .pEntry | .pXrange _ _ | .pYrange _ _ | .pBorder | .pTemp | .pXcnt _ | .pYcnt _
  | .pWrbw _ | .pWrred | .pUc1 | .pUc2 _ | .pAct | .pSoftst _ _ _ _ | .pSleep => true

end Sys2Proof
end

