-- ==== Sys2Proof/Decode.lean ====
section
/-! DEFINITION. Decoding and encoding: host descriptors (30_encoding.md R101 to R104), panel command words (R108, R109;
log 2) and the opcode table's words. Total on any bits; what it refuses it refuses by name. -/

namespace Sys2Proof

/-- Why a word is no instruction. -/
inductive Reject where
  /-- `OP` is not one of the fourteen codes of R100. -/
  | unknownOp
  /-- A reserved bit of the descriptor, W[15:10] or W[127:112], is set (R103). -/
  | reservedBits
  /-- Not sixteen bytes: no descriptor at all (R101 has one length). -/
  | wrongLength
  /-- The byte is none of the sixteen opcode parameters. -/
  | unknownPanelOpcode
  /-- The mode bit is 1: a data frame is no command frame (R105). -/
  | dataFrame
  /-- A bit of the panel word that the command does not use is set, or its operand names nothing (log 2). -/
  | panelOperand
deriving DecidableEq, Repr

/-! ## Format H: the host descriptor (R101) -/

/-- The fields of a descriptor, from the low bits up (R101). -/
structure Fields where
  op : Byte
  plane : Bit
  value : Bit
  reservedLow : BitVec 6
  a : Half
  b : Half
  c : Half
  d : Half
  e : Half
  ptr : Half
  reservedHigh : Half
deriving DecidableEq, Repr

/-- Cut a descriptor into its fields (R101). -/
def fieldsOfWord (w : BitVec 128) : Fields where
  op := w.extractLsb' 0 8
  plane := w.extractLsb' 8 1
  value := w.extractLsb' 9 1
  reservedLow := w.extractLsb' 10 6
  a := w.extractLsb' 16 16
  b := w.extractLsb' 32 16
  c := w.extractLsb' 48 16
  d := w.extractLsb' 64 16
  e := w.extractLsb' 80 16
  ptr := w.extractLsb' 96 16
  reservedHigh := w.extractLsb' 112 16

/-- Put the fields together into a descriptor (R101). -/
def wordOfFields (f : Fields) : BitVec 128 :=
  BitVec.ofNat 128
    (f.op.toNat + 2 ^ 8 * f.plane.toNat + 2 ^ 9 * f.value.toNat + 2 ^ 10 * f.reservedLow.toNat
      + 2 ^ 16 * f.a.toNat + 2 ^ 32 * f.b.toNat + 2 ^ 48 * f.c.toNat + 2 ^ 64 * f.d.toNat
      + 2 ^ 80 * f.e.toNat + 2 ^ 96 * f.ptr.toNat + 2 ^ 112 * f.reservedHigh.toNat)

/-- Plane selector: 0 = black, 1 = red (R101). -/
def planeOfBit (b : Bit) : Plane := if b = 0 then .black else .red

/-- The plane selector's bit. -/
def bitOfPlane : Plane → Bit
  | .black => 0
  | .red => 1

/-- The host operation a descriptor's fields name (R100). A field the operation does not list is ignored (R102). -/
def instrOfFields (f : Fields) : Except Reject Instr :=
  if f.op = 0x81 then .ok .init
  else if f.op = 0x82 then .ok .deinit
  else if f.op = 0x83 then .ok .cfgdef3
  else if f.op = 0x84 then .ok .cfgdef4
  else if f.op = 0x90 then .ok (.clear (planeOfBit f.plane))
  else if f.op = 0x91 then .ok (.wrbuf (planeOfBit f.plane))
  else if f.op = 0x92 then .ok (.wrpt (planeOfBit f.plane) f.a f.b f.value)
  else if f.op = 0x93 then .ok (.rdpt (planeOfBit f.plane) f.a f.b)
  else if f.op = 0x94 then .ok (.fillrect (planeOfBit f.plane) f.a f.b f.c f.d f.value)
  else if f.op = 0x95 then .ok (.drawpic (planeOfBit f.plane) f.a f.b f.c f.d f.ptr)
  else if f.op = 0x96 then .ok (.drawstr (planeOfBit f.plane) f.a f.b f.ptr f.e f.value f.c)
  else if f.op = 0xA0 then .ok (.softstart f.a f.b f.c)
  else if f.op = 0xA1 then .ok (.update f.a)
  else if f.op = 0xA2 then .ok (.wrupd f.a)
  else .error .unknownOp

/-- Decode a descriptor: the reserved bits must be zero and `OP` one of the fourteen (R103, R104). -/
def decodeDescriptor (w : BitVec 128) : Except Reject Instr :=
  let f := fieldsOfWord w
  if f.reservedLow = 0 ∧ f.reservedHigh = 0 then instrOfFields f else .error .reservedBits

/-- Byte `k` of a descriptor is `W[8k+7:8k]` (R101, R84 item 6). -/
def bytesOfDescriptor (w : BitVec 128) : List Byte :=
  (List.range 16).map fun k => w.extractLsb' (8 * k) 8

/-- The number whose bytes these are, the first the least significant. -/
def natOfBytes : List Byte → Nat
  | [] => 0
  | b :: bs => b.toNat + 256 * natOfBytes bs

/-- Decode a descriptor given as bytes, byte 0 first; only sixteen bytes are one (R101). -/
def decodeBytes (bs : List Byte) : Except Reject Instr :=
  if bs.length = 16 then decodeDescriptor (BitVec.ofNat 128 (natOfBytes bs)) else .error .wrongLength

/-! ## Formats PC and PCB: the word of one panel command (log 2) -/

/-- The fields of a panel word: the nine bits of the command frame (R105, R109), seven bits that are zero, two operand
fields in the places where a descriptor has `A` and `B`. -/
structure PanelFields where
  opcode : Byte
  mode : Bit
  reserved : BitVec 7
  a : Half
  b : Half
deriving DecidableEq, Repr

/-- Cut a panel word into its fields. -/
def panelFieldsOfWord (w : BitVec 48) : PanelFields where
  opcode := w.extractLsb' 0 8
  mode := w.extractLsb' 8 1
  reserved := w.extractLsb' 9 7
  a := w.extractLsb' 16 16
  b := w.extractLsb' 32 16

/-- Put the fields together into a panel word. -/
def wordOfPanelFields (f : PanelFields) : BitVec 48 :=
  BitVec.ofNat 48
    (f.opcode.toNat + 2 ^ 8 * f.mode.toNat + 2 ^ 9 * f.reserved.toNat + 2 ^ 16 * f.a.toNat + 2 ^ 32 * f.b.toNat)

/-- The panel command whose opcode parameter is this byte (R109); at most one, since they are distinct (R9). -/
def panelOpOfByte (p : Params) (b : Byte) : Option PanelOp :=
  PanelOp.all.find? fun k => decide (p.opcode k = b)

/-- An operand field a command does not use must be zero. -/
def unusedZero (z : Bool) (i : Instr) : Except Reject Instr :=
  if z then .ok i else .error .panelOperand

/-- The panel command with its operands (R181 to R196). -/
def instrOfPanel (k : PanelOp) (a b : Half) : Except Reject Instr :=
  match k with
  | .swreset => unusedZero (a = 0 && b = 0) .pSwreset
  | .drvout => unusedZero (a = 0 && b = 0) .pDrvout
  | .entry => unusedZero (a = 0 && b = 0) .pEntry
  | .xrange => .ok (.pXrange a b)
  | .yrange => .ok (.pYrange a b)
  | .border => unusedZero (a = 0 && b = 0) .pBorder
  | .temp => unusedZero (a = 0 && b = 0) .pTemp
  | .xcnt => unusedZero (b = 0) (.pXcnt a)
  | .ycnt => unusedZero (b = 0) (.pYcnt a)
  | .wrbw =>
      if a = 0 then unusedZero (b = 0) (.pWrbw .planeBytes)
      else unusedZero (a = 1 && b = 0) (.pWrbw .flashBytes)
  | .wrred => unusedZero (a = 0 && b = 0) .pWrred
  | .uc1 => unusedZero (a = 0 && b = 0) .pUc1
  | .uc2 =>
      if a = 0 then unusedZero (b = 0) (.pUc2 .partialWave)
      else unusedZero (a = 1 && b = 0) (.pUc2 .cleanWave)
  | .act => unusedZero (a = 0 && b = 0) .pAct
  | .softst =>
      .ok (.pSoftst (a.extractLsb' 0 8) (a.extractLsb' 8 8) (b.extractLsb' 0 8) (b.extractLsb' 8 8))
  | .sleep => unusedZero (a = 0 && b = 0) .pSleep

/-- Decode a panel word: a command frame (mode bit 0) whose opcode is one of the sixteen (R109). -/
def decodePanel (p : Params) (w : BitVec 48) : Except Reject Instr :=
  let f := panelFieldsOfWord w
  if f.mode ≠ 0 then .error .dataFrame
  else if f.reserved ≠ 0 then .error .panelOperand
  else match panelOpOfByte p f.opcode with
    | none => .error .unknownPanelOpcode
    | some k => instrOfPanel k f.a f.b

/-- Decode what stands latched. -/
def decode (p : Params) : CmdWord → Except Reject Instr
  | .descriptor w => decodeDescriptor w
  | .panel w => decodePanel p w

/-! ## The encoder (R101, R109; log 2) -/

/-- A descriptor with this `OP` and every other field zero. -/
def blankFields (op : Byte) : Fields :=
  { op, plane := 0, value := 0, reservedLow := 0, a := 0, b := 0, c := 0, d := 0, e := 0, ptr := 0, reservedHigh := 0 }

/-- The word latched for a host operation. -/
def hostWord (f : Fields) : CmdWord := .descriptor (wordOfFields f)

/-- The word latched for a panel command. -/
def panelWord (p : Params) (k : PanelOp) (a b : Half) : CmdWord :=
  .panel (wordOfPanelFields { opcode := p.opcode k, mode := 0, reserved := 0, a, b })

/-- The word of an instruction: fields an operation does not use are zero. -/
def encode (p : Params) : Instr → CmdWord
  | .init => hostWord (blankFields 0x81)
  | .deinit => hostWord (blankFields 0x82)
  | .cfgdef3 => hostWord (blankFields 0x83)
  | .cfgdef4 => hostWord (blankFields 0x84)
  | .clear pl => hostWord { blankFields 0x90 with plane := bitOfPlane pl }
  | .wrbuf pl => hostWord { blankFields 0x91 with plane := bitOfPlane pl }
  | .wrpt pl x y v => hostWord { blankFields 0x92 with plane := bitOfPlane pl, value := v, a := x, b := y }
  | .rdpt pl x y => hostWord { blankFields 0x93 with plane := bitOfPlane pl, a := x, b := y }
  | .fillrect pl l t r b v =>
      hostWord { blankFields 0x94 with plane := bitOfPlane pl, value := v, a := l, b := t, c := r, d := b }
  | .drawpic pl l t r b ptr =>
      hostWord { blankFields 0x95 with plane := bitOfPlane pl, a := l, b := t, c := r, d := b, ptr := ptr }
  | .drawstr pl x y ptr len v fs =>
      hostWord { blankFields 0x96 with plane := bitOfPlane pl, value := v, a := x, b := y, c := fs, e := len, ptr := ptr }
  | .softstart st ti mo => hostWord { blankFields 0xA0 with a := st, b := ti, c := mo }
  | .update t => hostWord { blankFields 0xA1 with a := t }
  | .wrupd t => hostWord { blankFields 0xA2 with a := t }
  | .pSwreset => panelWord p .swreset 0 0
  | .pDrvout => panelWord p .drvout 0 0
  | .pEntry => panelWord p .entry 0 0
  | .pXrange xs xe => panelWord p .xrange xs xe
  | .pYrange ys ye => panelWord p .yrange ys ye
  | .pBorder => panelWord p .border 0 0
  | .pTemp => panelWord p .temp 0 0
  | .pXcnt x => panelWord p .xcnt x 0
  | .pYcnt y => panelWord p .ycnt y 0
  | .pWrbw .planeBytes => panelWord p .wrbw 0 0
  | .pWrbw .flashBytes => panelWord p .wrbw 1 0
  | .pWrred => panelWord p .wrred 0 0
  | .pUc1 => panelWord p .uc1 0 0
  | .pUc2 .partialWave => panelWord p .uc2 0 0
  | .pUc2 .cleanWave => panelWord p .uc2 1 0
  | .pAct => panelWord p .act 0 0
  | .pSoftst s0 s1 s2 s3 => panelWord p .softst (s1 ++ s0) (s3 ++ s2)
  | .pSleep => panelWord p .sleep 0 0

/-! ## The opcode table's words -/

/-- Where an instruction of `nbits` bits is latched. A word no longer than a panel word whose low byte is a panel opcode is a
panel command; every other word is a descriptor, the bits above `nbits` zero. -/
def cmdWordOfTable (p : Params) (nbits w : Nat) : CmdWord :=
  let v := w % 2 ^ nbits
  if nbits ≤ 48 ∧ (panelOpOfByte p (BitVec.ofNat 8 v)).isSome then .panel (BitVec.ofNat 48 v)
  else .descriptor (BitVec.ofNat 128 v)

/-- The instruction the decoder reads from a word of the opcode table, with the opcode bytes the table lists (the gk
defaults of R9, log 7). -/
def decodeTableWord (nbits w : Nat) : Option Instr :=
  match decode Config.defaults (cmdWordOfTable Config.defaults nbits w) with
  | .ok i => some i
  | .error _ => none

end Sys2Proof
end

