-- ==== Sys2Proof/Machine/State.lean ====
section
/-! DEFINITION. The state of the FBC as plain data (10_state.md R30 to R52), with the model's own fields for the parameters,
the draws and the host's moves; the outcomes' reasons; the state after power-on. -/

namespace Sys2Proof.Machine

open Sys2Proof

/-! ## The parts of the state -/

/-- `CFG`, DisplayConfig (R31). -/
structure Cfg where
  wiring : Wiring
  bus : Bit
  pinSdo : Byte
  pinSck : Byte
  pinCs : Byte
  pinDc : Byte
  pinRst : Byte
  pinBusy : Byte
  clkHz : Quad
deriving DecidableEq, Repr

/-- `TS`, TransportState (R34); it exists only while a bus is held. -/
structure Transport where
  mode : Bit
  bush : Bit
  hz : Quad
deriving DecidableEq, Repr

/-- The output pins whose last level is state (R37). -/
inductive Pin where
  | cs
  | dc
  | rst
deriving DecidableEq, Repr

/-- `PIN`: the last level driven on each output (R37). -/
structure Pins where
  cs : Bit
  dc : Bit
  rst : Bit
deriving DecidableEq, Repr

/-- A frame width of the serial bus: 8 or 9 bits (R49, R105). -/
inductive FrameWidth where
  | bits8
  | bits9
deriving DecidableEq, Repr

/-- `BUS`: the serial bus provider's current frame width and clock, external state (R49). -/
structure Bus where
  width : FrameWidth
  hz : Quad
deriving DecidableEq, Repr

/-- `SEQ`, the sequencer state (R41). -/
inductive Seq where
  | idle
  | waitingReady
  | transmitting
  | activating
deriving DecidableEq, Repr

/-- `STATUS`: the seven status codes (60_exceptions.md R300). -/
inductive Status where
  | ok
  | notInitialized
  | alreadyInitialized
  | invalidArgument
  | transportError
  | notSupported
  | busy
deriving DecidableEq, Repr

/-- The four delays the FBC ever sleeps (R321): T_RST, T_SWRST, T_POLL, T_SETTLE. `Duration.micros` gives each its lower bound. -/
inductive Duration where
  | rst
  | swrst
  | poll
  | settle
deriving DecidableEq, Repr

/-- One serial frame: format F8 (4-wire) or F9 (3-wire) (30_encoding.md R105). -/
inductive Frame where
  | f8 (payload : BitVec 8)
  | f9 (v : BitVec 9)
deriving DecidableEq, Repr

/-- The events of the trace (00_scope.md R17). -/
inductive Event where
  | pinSet (p : Pin) (l : Bit)
  | busyRead (l : Bit)
  | delay (d : Duration)
  | frame (f : Frame)
  | busInit (b : Bit) (hz : Quad) (r : Nat)
  | busCfg (w : FrameWidth) (hz : Quad)
  | busDeinit (b : Bit)
deriving DecidableEq, Repr

/-- What a byte that no cell lists reads as: 0xFF (the cleared plane, R36, R214), or an unspecified byte, the free
value of this number (U2, U3; log 12). -/
inductive Fill where
  | ones
  | free (seed : Nat)
deriving DecidableEq, Repr

/-- One byte-addressed space: a plane (R35) or HBUF (R76). Canonical form: `Mem.wf`. -/
structure Mem where
  fill : Fill
  cells : List Host.Cell
deriving DecidableEq, Repr

/-- Draws of one kind still to come: the values given, then the free values from number `used` on (R13; log 5). -/
structure Feed (α : Type) where
  given : List α
  used : Nat
deriving DecidableEq, Repr

/-- The host operations that send panel commands, with their operand latches (R43, R111). -/
inductive Sending where
  | init
  | deinit
  | wrbuf (plane : Plane)
  | softstart (strength time minOff : Half)
  | update (type : Half)
  | wrupd (type : Half)
deriving DecidableEq, Repr

/-- A host operation seen between two of its micro-operations: which one, and how many lines of its pseudocode are done (R45 (b)). -/
structure Underway where
  op : Sending
  done : Nat
deriving DecidableEq, Repr

/-- The host-visible registers other than CMD (R47), index 1 to 11. -/
inductive HostReg where
  | status
  | rdata
  | state
  | cfgMode
  | cfgPinSdo
  | cfgPinSck
  | cfgPinCs
  | cfgPinDc
  | cfgPinRst
  | cfgPinBusy
  | cfgClkHz
deriving DecidableEq, Repr

/-- What the host can do at the FBC's port (R14, R47, R76, R341). -/
inductive HostMove where
  /-- Write a descriptor to CMD: starts a host operation (R43). -/
  | writeCmd (w : BitVec 128)
  /-- Read CMD, which is write-only (R47). -/
  | readCmd
  /-- Write a register (R47). -/
  | writeReg (r : HostReg) (v : Quad)
  /-- Read a register (R47). -/
  | readReg (r : HostReg)
  /-- Fill one byte of HBUF (R76). -/
  | writeHbuf (address : Nat) (v : Byte)
  /-- Loss and return of power (R341). -/
  | powerCycle
deriving DecidableEq, Repr

/-! ## The state -/

/-- The state of the machine (R30) and the model's own fields. -/
structure State where
  /-- The implementation parameters of R9; the model's own field, never written (log 7). -/
  params : Params
  /-- `CFG` (R31). -/
  cfg : Cfg
  /-- `INIT` (R33). -/
  initialised : Bool
  /-- `TS` (R34). -/
  ts : Option Transport
  /-- `PL[black]` (R35). -/
  black : Mem
  /-- `PL[red]` (R35). -/
  red : Mem
  /-- `PIN` (R37). -/
  pin : Pins
  /-- `SEQ` (R41). -/
  seq : Seq
  /-- `STATUS` (R39). -/
  status : Status
  /-- `RDATA` (R40). -/
  rdata : Bit
  /-- `CMD`'s latch while an operation is pending (R43; log 3). -/
  cmd : Option CmdWord
  /-- The operation under way, with its latches (R43) and its place in the order of its micro-operations (R45); `none` between
  host operations, which is all a run ever sees (R15; log 31). -/
  underway : Option Underway
  /-- `TR`, the trace, oldest event first (R50). -/
  tr : List Event
  /-- `BUS` (R49). -/
  bus : Bus
  /-- `HBUF` (R76). -/
  hbuf : Mem
  /-- The host's moves still to come; the model's own field (log 4). -/
  hostMoves : List HostMove
  /-- What the host's last register read returned; the model's own field (log 18). -/
  hostRead : Quad
  /-- BUSY levels to come (R38). -/
  busyFeed : Feed Bit
  /-- Transferred counts to come (R142). -/
  countFeed : Feed Nat
  /-- Achieved rates to come (R152). -/
  rateFeed : Feed Nat
  /-- Bus states to come (R49). -/
  busFeed : Feed Bus
  /-- How many free values have been taken; the model's own field (log 5). -/
  nextFree : Nat
deriving DecidableEq, Repr

/-! ## Why a step can stop -/

/-- Faults. -/
inductive Fault where
  /-- The host writes an HBUF address at or beyond HBUF_SIZE, which does not exist (R76). Raised by the host's own move,
  never by an operation. Safe: the model stops where the hardware's answer is unknown. -/
  | hbufAddress
deriving DecidableEq, Repr

/-- Refusals. -/
inductive Refusal where
  /-- The instruction has no meaning in this model yet; raised by `exec` only. Safe. -/
  | notModelled (mnemonic : String)
  /-- A host operation begins while another is executing: SEQ not Idle, or one under way (R16, R356, U1). Raised by `step`.
  Safe. -/
  | concurrentOperation
  /-- DRAWPIC or DRAWSTR reads HBUF at or beyond HBUF_SIZE (R76, U3). Safe. -/
  | hbufOverrun
  /-- A transport read in 4-wire wiring (R148, U4); no host operation makes one. Safe. -/
  | fourWireRead
  /-- The host reads CMD, which is write-only (R47). Raised by the host's own move. Safe. -/
  | cmdIsWriteOnly
deriving DecidableEq, Repr

/-! ## Power-on (R52, R340) -/

/-- The state right after power-on (R52, R340). Values the spec leaves unspecified: log 10 (CFG), 11 (PIN, RDATA),
12 (planes and HBUF), 6 and 33 (BUS). -/
def State.reset : State where
  params := Config.defaults
  cfg :=
    { wiring := .fourWire, bus := 0, pinSdo := 0, pinSck := 0, pinCs := 0, pinDc := 0, pinRst := 0, pinBusy := 0,
      clkHz := Config.clkDefault }
  initialised := false
  ts := none
  black := { fill := .free 1, cells := [] }
  red := { fill := .free 2, cells := [] }
  pin := { cs := 0, dc := 0, rst := 0 }
  seq := .idle
  status := .ok
  rdata := 0
  cmd := none
  underway := none
  tr := []
  bus := { width := .bits8, hz := 0 }
  hbuf := { fill := .free 0, cells := [] }
  hostMoves := []
  hostRead := 0
  busyFeed := { given := [], used := 0 }
  countFeed := { given := [], used := 0 }
  rateFeed := { given := [], used := 0 }
  busFeed := { given := [], used := 0 }
  nextFree := 3

end Sys2Proof.Machine
end

