-- ==== Sys2Proof/Machine/Memory.lean ====
section
/-! DEFINITION. The operations over the byte-addressed spaces: the two planes and HBUF (20_memory.md R70, R76, R80). -/

namespace Sys2Proof.Machine

open Sys2Proof

/-- What an unlisted byte of a space reads as. -/
def fillByte : Fill → Nat → Byte
  | .ones, _ => 0xFF
  | .free seed, i => Config.freeByte seed i

/-- The byte a list of cells holds at an address, if it lists one. -/
def lookupCell (a : Nat) : List Host.Cell → Option Byte
  | [] => none
  | (b, v) :: cs => if a = b then some v else lookupCell a cs

/-- Put a byte into a list of cells, addresses rising. -/
def insertCell (a : Nat) (v : Byte) : List Host.Cell → List Host.Cell
  | [] => [(a, v)]
  | (b, w) :: cs =>
      if a < b then (a, v) :: (b, w) :: cs
      else if a = b then (a, v) :: cs
      else (b, w) :: insertCell a v cs

/-- Take an address out of a list of cells. -/
def eraseCell (a : Nat) : List Host.Cell → List Host.Cell
  | [] => []
  | (b, w) :: cs => if a = b then cs else (b, w) :: eraseCell a cs

/-- `MemRead(space, a, 1)` (R11). -/
def Mem.read (m : Mem) (a : Nat) : Byte :=
  match lookupCell a m.cells with
  | some v => v
  | none => fillByte m.fill a

/-- `MemWrite(space, a, 1, v)` (R11). Writing what an unlisted byte reads as takes the cell away. -/
def Mem.write (m : Mem) (a : Nat) (v : Byte) : Mem :=
  if v = fillByte m.fill a then { m with cells := eraseCell a m.cells }
  else { m with cells := insertCell a v m.cells }

/-- The canonical form of a space of `size` bytes: addresses strictly rising and below `size`, no entry equal to what an
unlisted byte reads as. -/
abbrev Mem.wf (size : Nat) (m : Mem) : Prop :=
  m.cells.Pairwise (fun c d => c.1 < d.1) ∧ ∀ c ∈ m.cells, c.1 < size ∧ c.2 ≠ fillByte m.fill c.1

/-- A plane with every byte 0xFF: all pixels off (R36, R214). -/
def Mem.cleared : Mem := { fill := .ones, cells := [] }

/-- A space whose every byte is unspecified (U2, U3). -/
def Mem.unspecified (seed : Nat) : Mem := { fill := .free seed, cells := [] }

/-- The 5000 bytes of a plane in ascending index, the snapshot a push takes (R84 item 5, R232). -/
def Mem.planeBytes (m : Mem) : List Byte := (List.range Config.planeBytes).map m.read

/-- `PL[p]` (R11). -/
def State.plane (s : State) : Plane → Mem
  | .black => s.black
  | .red => s.red

/-- Replace `PL[p]`; the other plane stays (R71). -/
def State.setPlane (s : State) (p : Plane) (m : Mem) : State :=
  match p with
  | .black => { s with black := m }
  | .red => { s with red := m }

end Sys2Proof.Machine
end

