-- ==== Sys2Proof/Machine/Operands.lean ====
section
/-! DEFINITION. Operand forms: pixel addresses (20_memory.md R81 to R83), panel parameter bytes (30_encoding.md R110), frame
assembly (R105), the update type (44_update_sequencer.md R231), SS_ENCODE and FONT lookup (R9). -/

namespace Sys2Proof.Machine

open Sys2Proof

/-! ## Pixel addresses -/

/-- Byte index of the write transform (R81). -/
def wbyte (x y : Nat) : Nat := (Config.height - 1 - y) * Config.bytesPerRow + x / 8

/-- Bit index of the write transform (R81). -/
def wbit (x : Nat) : Nat := 7 - x % 8

/-- Byte index of the read transform: the row is NOT inverted (R82). -/
def rbyte (x y : Nat) : Nat := y * Config.bytesPerRow + x / 8

/-- Bit index of the read transform (R82). -/
def rbit (x : Nat) : Nat := 7 - x % 8

/-- The range check, on the full 16-bit operands (R83, R102). -/
def inPanel (x y : Half) : Bool := decide (x.toNat < Config.width) && decide (y.toNat < Config.height)

/-- The rectangle check of FILLRECT and DRAWPIC (R260, R264): ordered, and right and bottom in range. -/
def goodRect (l t r b : Half) : Bool :=
  decide (l.toNat ≤ r.toNat) && decide (t.toNat ≤ b.toNat)
    && decide (r.toNat < Config.width) && decide (b.toNat < Config.height)

/-- A byte with one bit cleared or set. -/
def clearBit (v : Byte) (b : Nat) : Byte := v &&& ~~~((1 : Byte) <<< b)
def setBit (v : Byte) (b : Nat) : Byte := v ||| ((1 : Byte) <<< b)

/-- The pixel a plane byte's bit stands for: bit clear = on = 1 (R19, R35). -/
def pixelOfBit (bit : Bool) : Bit := if bit then 0 else 1

/-- The pixel the write path knows as `(x, y)` (R81). -/
def Mem.pixel (m : Mem) (x y : Nat) : Bit := pixelOfBit ((m.read (wbyte x y)).getLsbD (wbit x))

/-- The pixel the read path returns for `(x, y)` (R82, R212). -/
def Mem.readPixel (m : Mem) (x y : Nat) : Bit := pixelOfBit ((m.read (rbyte x y)).getLsbD (rbit x))

/-- `WP(p, x, y, v)`, the inner pixel write (45_drawing.md R259): 'on' clears the bit, 'off' sets it. -/
def Mem.writePixel (m : Mem) (x y : Nat) (v : Bit) : Mem :=
  let old := m.read (wbyte x y)
  m.write (wbyte x y) (if v = 1 then clearBit old (wbit x) else setBit old (wbit x))

/-- One pixel write of a composite. -/
structure Dot where
  x : Nat
  y : Nat
  v : Bit
deriving DecidableEq, Repr

/-- Pixel writes in order, "transformations over the Framebuffer Model using a single pixel-addressing function" (R113). -/
def Mem.paint (m : Mem) (dots : List Dot) : Mem := dots.foldl (fun m d => m.writePixel d.x d.y d.v) m

/-! ## Panel parameters -/

/-- `v[7:0]` and `v[15:8]` (R84 item 4, R110). -/
def lowByte (v : Half) : Byte := v.extractLsb' 0 8
def highByte (v : Half) : Byte := v.extractLsb' 8 8

/-- The X byte address `(x / 8)[7:0]` (R77, R85, R110). -/
def columnByte (x : Half) : Byte := BitVec.ofNat 8 (x.toNat / 8)

/-- The waveform byte (R193). -/
def waveformByte : Waveform → Byte
  | .partialWave => 0xFE
  | .cleanWave => 0xF6

/-- The lower bound, in microseconds, that a `Delay(d)` event states (R8, R18, R371; log 30). -/
def Duration.micros (p : Params) : Duration → Nat
  | .rst => Config.tRst
  | .swrst => Config.tSwrst
  | .poll => p.tPoll
  | .settle => p.tSettle

/-- Update-type decoding at 16 bits; any other value is unknown (R231). -/
def updateTypeOf (t : Half) : Option UpdateType :=
  if t = 0 then some .fastPartial
  else if t = 1 then some .cleanFull
  else if t = 2 then some .fastFull
  else if t = 3 then some .cleanFullAggressive
  else none

/-! ## Wiring and frames -/

/-- The frame width a wiring needs (R105, R141). -/
def widthOf : Wiring → FrameWidth
  | .fourWire => .bits8
  | .threeWire => .bits9

/-- The frame of one payload byte: F8, or F9 with the mode in bit 8 (R105). -/
def frameOf (w : Wiring) (mode : Bit) (b : Byte) : Frame :=
  match w with
  | .fourWire => .f8 b
  | .threeWire => .f9 (mode ++ b)

/-! ## SS_ENCODE and FONT -/

/-- `SS_ENCODE`: the parameter record's values, elsewhere a free value (R9, D23; log 9). -/
def ssEncode (p : Params) (st ti mo : Half) : Option SoftStartBytes :=
  match p.softStart.find? fun r => decide (r.strength = st ∧ r.time = ti ∧ r.minOff = mo) with
  | some r => r.result
  | none => Config.freeSoftStart st ti mo

/-- `FONT(c)[row][col]`, 1 a foreground pixel, row 0 at the top, column 0 at the left (R268; log 9). -/
def fontPixel (p : Params) (c row col : Nat) : Bool :=
  (p.font.toList.getD c 0).getLsbD (Config.glyphSrc * row + col)

end Sys2Proof.Machine
end

