-- ==== Sys2Proof/Machine/Flags.lean ====
section
/-! DEFINITION. The flag-like state as the host reads it (10_state.md R46, R47): the numbers of STATUS, SEQ and the wiring mode,
and the bits of the STATE register. The block has no arithmetic condition codes (R46). -/

namespace Sys2Proof.Machine

open Sys2Proof

/-- The number of a status code (R300). -/
def statusCode : Status → BitVec 8
  | .ok => 0
  | .notInitialized => 1
  | .alreadyInitialized => 2
  | .invalidArgument => 3
  | .transportError => 4
  | .notSupported => 5
  | .busy => 6

/-- The number of a sequencer state (R41). -/
def seqCode : Seq → BitVec 2
  | .idle => 0
  | .waitingReady => 1
  | .transmitting => 2
  | .activating => 3

/-- The number of a wiring mode (R31). -/
def wiringCode : Wiring → Bit
  | .fourWire => 0
  | .threeWire => 1

/-- The wiring mode of a number (R31). -/
def wiringOfBit (b : Bit) : Wiring := if b = 0 then .fourWire else .threeWire

/-- `TS.MODE` as the STATE register shows it; unspecified while TS does not exist (R46, U2). -/
def State.tsModeBit (s : State) : Bit :=
  match s.ts with
  | some ts => ts.mode
  | none => Config.freeBit s.nextFree

/-- The STATE register: [0] INIT, [2:1] SEQ, [3] TS.MODE, [4] PIN.CS, [5] PIN.DC, [6] PIN.RST, [7] 0 (R47). -/
def State.stateRegister (s : State) : BitVec 8 :=
  (0 : BitVec 1) ++ s.pin.rst ++ s.pin.dc ++ s.pin.cs ++ s.tsModeBit ++ seqCode s.seq
    ++ BitVec.ofBool s.initialised

/-- The CFG_MODE register: [0] WIRING, [1] BUS, [7:2] read 0 (R47). -/
def State.cfgModeRegister (s : State) : BitVec 8 :=
  (0 : BitVec 6) ++ s.cfg.bus ++ wiringCode s.cfg.wiring

end Sys2Proof.Machine
end

