-- ==== Sys2Proof/Machine/Ops.lean ====
section
/-! DEFINITION. The shared operations: draws (00_scope.md R13), trace events and pin levels (R17, R37), raising and returning a
status (60_exceptions.md R310, the block's whole exception mechanism), and the composition of micro-operations (R12). -/

namespace Sys2Proof.Machine

open Sys2Proof

/-! ## Draws -/

/-- The next draw of a feed: the first value given, else the free value of its number. -/
def Feed.peek {α : Type} (free : Nat → α) (f : Feed α) : α :=
  match f.given with
  | v :: _ => v
  | [] => free f.used

/-- The feed after one draw. -/
def Feed.pop {α : Type} (f : Feed α) : Feed α := { given := f.given.tail, used := f.used + 1 }

/-- The free value of a bus state (R49). -/
def freeBus (n : Nat) : Bus :=
  { width := if Config.freeBusWide n then .bits9 else .bits8, hz := Config.freeBusHz n }

/-- The level the next BUSY sample reads (R38). -/
def State.busyLevel (s : State) : Bit := s.busyFeed.peek Config.freeBusy

/-- The count the next bus write of `len` frames reports: a draw in 0 .. len (R142). -/
def State.writeCount (s : State) (len : Nat) : Nat := min (s.countFeed.peek Config.freeCount) len

/-- The achieved rate the next bus initialisation reports (R152). -/
def State.achievedRate (s : State) : Nat := s.rateFeed.peek Config.freeRate

/-! ## Events and pins -/

/-- `emit` (R13): append to the trace, which is append-only (R50). -/
def State.emit (s : State) (es : List Event) : State := { s with tr := s.tr ++ es }

/-- The pin latches after one pin is driven. -/
def setPinLevel (pin : Pins) (p : Pin) (l : Bit) : Pins :=
  match p with
  | .cs => { pin with cs := l }
  | .dc => { pin with dc := l }
  | .rst => { pin with rst := l }

/-- `emit PinSet(p, l)`: the event, and `PIN.p <- l` (R37). -/
def State.drivePin (s : State) (p : Pin) (l : Bit) : State :=
  { s.emit [.pinSet p l] with pin := setPinLevel s.pin p l }

/-- `SEQ <- q` (R41). -/
def State.setSeq (s : State) (q : Seq) : State := { s with seq := q }

/-! ## Raising and returning -/

/-- Delivery of `raise E` (R310): SEQ <- Idle, STATUS <- E, nothing else; the next thing is the host's next operation. -/
def State.deliver (s : State) (e : Status) : State := { s with seq := .idle, status := e }

/-- `return OK` (R12): STATUS <- OK. -/
def State.complete (s : State) : State := { s with status := .ok }

/-- What a micro-operation answers (R12): it is done, or it raised a status, which makes every caller up to the host
operation raise the same. -/
inductive Micro where
  | done (s : State)
  | raised (e : Status) (s : State)
deriving DecidableEq, Repr

/-- One micro-operation after another; a raise ends the sequence (R12). -/
def Micro.andThen (m : Micro) (f : State → Micro) : Micro :=
  match m with
  | .done s => f s
  | .raised e s => .raised e s

/-- The state a micro-operation leaves, whether or not it raised. -/
def Micro.state : Micro → State
  | .done s => s
  | .raised _ s => s

/-- The end of a host operation whose body is this micro-operation: `return OK`, or the delivery of what was raised. -/
def Micro.endState : Micro → State
  | .done s => s.complete
  | .raised e s => s.deliver e

/-- A host operation's check "if INIT = 0: raise NotInitialized", its first after decoding (R301, R308). -/
def State.whenInitialised (s : State) (body : Host.Outcome State Fault Refusal) : Host.Outcome State Fault Refusal :=
  if s.initialised then body else .next (s.deliver .notInitialized)

end Sys2Proof.Machine
end

