-- ==== Sys2Proof/Machine/Drawing.lean ====
section
/-! DEFINITION. The drawing composites FILLRECT, DRAWPIC, DRAWSTR (45_drawing.md): each checks its arguments once and then paints a
list of pixel writes. None emits an event. -/

namespace Sys2Proof.Machine

open Sys2Proof

/-- The pixels of an inclusive rectangle, rows outer, columns inner, as offsets (column, row) (R260, R264). -/
def rectOffsets (w h : Nat) : List (Nat × Nat) :=
  (List.range h).flatMap fun j => (List.range w).map fun i => (i, j)

/-- FILLRECT's pixel writes (R260). -/
def fillDots (l t r b : Nat) (v : Bit) : List Dot :=
  (rectOffsets (r - l + 1) (b - t + 1)).map fun o => { x := l + o.1, y := t + o.2, v := v }

/-- `FILLRECT plane, left, top, right, bottom, value` (R260). -/
def execFillrect (p : Plane) (l t r b : Half) (v : Bit) (s : State) : Host.Outcome State Fault Refusal :=
  s.whenInitialised
    (if goodRect l t r b then
      .next (s.setPlane p ((s.plane p).paint (fillDots l.toNat t.toNat r.toNat b.toNat v))).complete
     else .next (s.deliver .invalidArgument))

/-- The bitmap pixel of column `i`, row `j`: `HBUF[ptr + j * stride + i / 8][7 - i mod 8]`, 1 = on (R264). -/
def bitmapPixel (hb : Mem) (ptr stride i j : Nat) : Bit :=
  BitVec.ofBool ((hb.read (ptr + j * stride + i / 8)).getLsbD (7 - i % 8))

/-- DRAWPIC's pixel writes (R264). -/
def picDots (hb : Mem) (ptr l t r b : Nat) : List Dot :=
  (rectOffsets (r - l + 1) (b - t + 1)).map fun o =>
    { x := l + o.1, y := t + o.2, v := bitmapPixel hb ptr ((r - l + 1 + 7) / 8) o.1 o.2 }

/-- `DRAWPIC plane, left, top, right, bottom, @bitmap` (R264). It reads `ptr` to `ptr + stride * h - 1`; past HBUF_SIZE the
caller's guarantee is broken and the operation has no meaning (U3). -/
def execDrawpic (p : Plane) (l t r b ptr : Half) (s : State) : Host.Outcome State Fault Refusal :=
  s.whenInitialised
    (if ptr ≠ Config.nullPtr ∧ goodRect l t r b then
      if ptr.toNat + bitmapBytes l.toNat t.toNat r.toNat b.toNat ≤ s.params.hbufSize then
        .next (s.setPlane p ((s.plane p).paint
          (picDots s.hbuf ptr.toNat l.toNat t.toNat r.toNat b.toNat))).complete
      else .refused .hbufOverrun
     else .next (s.deliver .invalidArgument))

/-- The pixel writes of one glyph at `(cx, cy)`, scaled to `fs` by `d * 8 / fs` (R268). -/
def glyphDots (q : Params) (c cx cy fs : Nat) (v : Bit) : List Dot :=
  (rectOffsets fs fs).filterMap fun o =>
    if fontPixel q c (o.2 * Config.glyphSrc / fs) (o.1 * Config.glyphSrc / fs) then
      some { x := cx + o.1, y := cy + o.2, v := v }
    else
      match q.strBg with
      | .opaqueBg => some { x := cx + o.1, y := cy + o.2, v := 1 - v }
      | .transparentBg => none

/-- The pixel writes of the characters left, from address `a` on, with the cursor at `(cx, cy)`; `none` where a character
beyond HBUF_SIZE is read (R268, U3). -/
def textDots (q : Params) (hb : Mem) (fs : Nat) (v : Bit) : Nat → Nat → Nat → Nat → Option (List Dot)
  | 0, _, _, _ => some []
  | n + 1, a, cx, cy =>
      if a < q.hbufSize then
        let c := (hb.read a).toNat
        if Config.charMax < c then textDots q hb fs v n (a + 1) cx cy
        else
          let x := if Config.width < cx + fs then 0 else cx
          let y := if Config.width < cx + fs then cy + fs else cy
          if Config.height < y + fs then some []
          else (textDots q hb fs v n (a + 1) (x + fs) y).map fun ds => glyphDots q c x y fs v ++ ds
      else none

/-- `DRAWSTR plane, x, y, @text, length, value, fontSize` (R268). -/
def execDrawstr (p : Plane) (x y ptr len : Half) (v : Bit) (fs : Half) (s : State) :
    Host.Outcome State Fault Refusal :=
  s.whenInitialised
    (if ptr ≠ Config.nullPtr ∧ fs ≠ 0 ∧ inPanel x y then
      match textDots s.params s.hbuf fs.toNat v len.toNat ptr.toNat x.toNat y.toNat with
      | some dots => .next (s.setPlane p ((s.plane p).paint dots)).complete
      | none => .refused .hbufOverrun
     else .next (s.deliver .invalidArgument))

end Sys2Proof.Machine
end

