-- ==== Sys2Proof/Machine/Framebuffer.lean ====
section
/-! DEFINITION. The Framebuffer Model operations WRPT, RDPT, CLEAR (43_framebuffer.md). None emits an event. -/

namespace Sys2Proof.Machine

open Sys2Proof

/-- `WRPT plane, x, y, value` (R210). -/
def execWrpt (p : Plane) (x y : Half) (v : Bit) (s : State) : Host.Outcome State Fault Refusal :=
  s.whenInitialised
    (if inPanel x y then .next (s.setPlane p ((s.plane p).writePixel x.toNat y.toNat v)).complete
     else .next (s.deliver .invalidArgument))

/-- `RDPT plane, x, y` (R212): the row is not inverted. -/
def execRdpt (p : Plane) (x y : Half) (s : State) : Host.Outcome State Fault Refusal :=
  s.whenInitialised
    (if inPanel x y then .next { s with rdata := (s.plane p).readPixel x.toNat y.toNat }.complete
     else .next (s.deliver .invalidArgument))

/-- `CLEAR plane` (R214): every byte of the plane 0xFF. -/
def execClear (p : Plane) (s : State) : Host.Outcome State Fault Refusal :=
  s.whenInitialised (.next (s.setPlane p Mem.cleared).complete)

end Sys2Proof.Machine
end

