-- ==== Sys2Proof/Machine/Transport.lean ====
section
/-! DEFINITION. The Transport Layer micro-operations (40_transport.md): T_BUSCHECK, BusWrite, T_WRBYTES in both wirings, T_RDBYTES,
T_OPEN, T_CLOSE. -/

namespace Sys2Proof.Machine

open Sys2Proof

/-- One `writeBytes(mode, buffer)` call (R140, R150): a mode, 0 command or 1 data, and the payload bytes. -/
structure Txn where
  mode : Bit
  bytes : List Byte
deriving DecidableEq, Repr

/-- The bus state a transaction needs (R141). -/
def Cfg.wantedBus (c : Cfg) : Bus := { width := widthOf c.wiring, hz := c.clkHz }

/-- `T_BUSCHECK(w)` (R141): compare the ACTUAL bus with the wanted one and reconfigure on any difference. -/
def tBusCheck (s : State) : State :=
  if s.bus = s.cfg.wantedBus then s
  else
    { s.emit [.busCfg (widthOf s.cfg.wiring) s.cfg.clkHz] with
      bus := s.cfg.wantedBus
      ts := s.ts.map fun t => { t with hz := s.cfg.clkHz } }

/-- `BusWrite(frames)` (R142): the first `n` frames go out, `n` the count the provider reports. -/
def busWrite (fs : List Frame) (s : State) : State :=
  { s.emit ((fs.take (s.writeCount fs.length)).map Event.frame) with countFeed := s.countFeed.pop }

/-- `TS.MODE <- mode` (R144). -/
def State.setTsMode (s : State) (m : Bit) : State := { s with ts := s.ts.map fun t => { t with mode := m } }

/-- How a wiring carries the mode before chip-select falls: the DC pin (R143), or `TS.MODE` (R144). -/
def carryMode (mode : Bit) (s : State) : State :=
  match s.cfg.wiring with
  | .fourWire => s.drivePin .dc mode
  | .threeWire => s.setTsMode mode

/-- `T_WRBYTES(mode, buf)` in both wirings (R143, R144), with the short-write check after chip-select is back at 1
(R146). -/
def tWrBytes (t : Txn) (s : State) : Micro :=
  let checked := tBusCheck s
  let ready := (carryMode t.mode checked).drivePin .cs 0
  let frames := t.bytes.map (frameOf s.cfg.wiring t.mode)
  let sent := (busWrite frames ready).drivePin .cs 1
  if ready.writeCount frames.length = frames.length then .done sent else .raised .transportError sent

/-- Transactions in order; the first that fails ends the sequence (R12, R146). -/
def sendAll : List Txn → State → Micro
  | [], s => .done s
  | t :: ts, s => (tWrBytes t s).andThen (sendAll ts)

/-- `T_RDBYTE()` and `T_RDBYTES(n)`: NotSupported in 3-wire before any pin changes (R147); no meaning in 4-wire (R148, U4).
No host operation makes a transport read. -/
def tRdBytes (_n : Nat) (s : State) : Host.Outcome State Fault Refusal :=
  match s.cfg.wiring with
  | .threeWire => .next (s.deliver .notSupported)
  | .fourWire => .refused .fourWireRead

/-- `T_OPEN` (R152): the achieved rate is a draw; zero raises TransportError and leaves no TS (R282; log 15). -/
def tOpen (s : State) : Micro :=
  let r := s.achievedRate
  let asked := { s.emit [.busInit s.cfg.bus s.cfg.clkHz r] with rateFeed := s.rateFeed.pop }
  if r = 0 then .raised .transportError { asked with ts := none }
  else
    .done
      ({ asked with
          ts := some { mode := Config.freeBit s.nextFree, bush := s.cfg.bus, hz := s.cfg.clkHz }
          bus := s.cfg.wantedBus
          nextFree := s.nextFree + 1 }.drivePin .cs 1)

/-- The bus TS holds; `TS.BUSH` equals `CFG.BUS` (R34). -/
def State.heldBus (s : State) : Bit :=
  match s.ts with
  | some t => t.bush
  | none => s.cfg.bus

/-- `T_CLOSE` (R153): release the bus; TS ceases to exist and the pins become unspecified (log 13). -/
def tClose (s : State) : State :=
  { s.emit [.busDeinit s.heldBus] with
    ts := none
    pin := { cs := Config.freeBit s.nextFree, dc := Config.freeBit (s.nextFree + 1),
             rst := Config.freeBit (s.nextFree + 2) }
    nextFree := s.nextFree + 3 }

end Sys2Proof.Machine
end

