-- ==== Sys2Proof/Machine/Protocol.lean ====
section
/-! DEFINITION. Wait-for-ready and the busy check (42_wait_ready.md), the Command Protocol Layer's micro-operations and the panel
commands as transactions (41_command_protocol.md), the building blocks of the update sequencer (44_update_sequencer.md R232 to
R234). -/

namespace Sys2Proof.Machine

open Sys2Proof

/-! ## BUSY (42_wait_ready.md) -/

/-- One sample of BUSY: `draw l ; emit BusyRead(l)` (R38). -/
def sampleBusy (s : State) : State :=
  { s.emit [.busyRead s.busyLevel] with busyFeed := s.busyFeed.pop }

/-- Whether the next sample reads the busy level (R38). -/
def State.seesBusy (s : State) : Bool := decide (s.busyLevel = s.params.busyActive)

/-- The loop of WAIT_READY with this many samples left (R200): sample first; settle on not-busy; after the last busy sample
proceed with no delay; else the poll delay and another sample. -/
def waitLoop : Nat → State → State
  | 0, s => s
  | k + 1, s =>
      if s.seesBusy then
        match k with
        | 0 => sampleBusy s
        | k' + 1 => waitLoop (k' + 1) ((sampleBusy s).emit [.delay .poll])
      else (sampleBusy s).emit [.delay .settle]

/-- `WAIT_READY` (R200 to R202): at most N_POLL samples, never an error. -/
def waitReady (s : State) : State := waitLoop s.params.nPoll s

/-! ## Panel commands as transactions (R108, R160) -/

/-- `C_CMD(opc)`, `C_DATA(b)`, `C_DATABUF(buf)` (R160). -/
def cCmd (opc : Byte) : Txn := { mode := 0, bytes := [opc] }
def cData (b : Byte) : Txn := { mode := 1, bytes := [b] }
def cDataBuf (buf : List Byte) : Txn := { mode := 1, bytes := buf }

/-- `PC(opc, [d0, ...])`: a command frame, then one transaction for each parameter byte (R108). -/
def pc (p : Params) (k : PanelOp) (data : List Byte) : List Txn := cCmd (p.opcode k) :: data.map cData

/-- `PCB(opc, buf)`: a command frame, then one transaction for the buffer (R108). -/
def pcb (p : Params) (k : PanelOp) (buf : List Byte) : List Txn := [cCmd (p.opcode k), cDataBuf buf]

/-- P.SWRESET (R181). -/
def txnsSwreset (p : Params) : List Txn := pc p .swreset []
/-- P.DRVOUT: (H-1)[7:0], (H-1)[15:8], P_GATE_SCAN (R182). -/
def txnsDrvout (p : Params) : List Txn := pc p .drvout [0xC7, 0x00, p.gateScan]
/-- P.ENTRY (R183). -/
def txnsEntry (p : Params) : List Txn := pc p .entry [p.dataEntry]
/-- P.XRANGE (R184). -/
def txnsXrange (p : Params) (xs xe : Half) : List Txn := pc p .xrange [columnByte xs, columnByte xe]
/-- P.YRANGE (R185). -/
def txnsYrange (p : Params) (ys ye : Half) : List Txn :=
  pc p .yrange [lowByte ys, highByte ys, lowByte ye, highByte ye]
/-- P.BORDER (R186). -/
def txnsBorder (p : Params) : List Txn := pc p .border [p.border]
/-- P.TEMP (R187). -/
def txnsTemp (p : Params) : List Txn := pc p .temp [p.tempSrc]
/-- P.XCNT (R188). -/
def txnsXcnt (p : Params) (x : Half) : List Txn := pc p .xcnt [columnByte x]
/-- P.YCNT (R189). -/
def txnsYcnt (p : Params) (y : Half) : List Txn := pc p .ycnt [lowByte y, highByte y]
/-- P.WRBW (R190). -/
def txnsWrbw (p : Params) (buf : List Byte) : List Txn := pcb p .wrbw buf
/-- P.WRRED (R191). -/
def txnsWrred (p : Params) (buf : List Byte) : List Txn := pcb p .wrred buf
/-- P.UC1 (R192). -/
def txnsUc1 (p : Params) : List Txn := pc p .uc1 [Config.uc1A, Config.uc1B]
/-- P.UC2 (R193). -/
def txnsUc2 (p : Params) (w : Waveform) : List Txn := pc p .uc2 [waveformByte w]
/-- P.ACT (R194). -/
def txnsAct (p : Params) : List Txn := pc p .act []
/-- P.SOFTST (R195). -/
def txnsSoftst (p : Params) (q : SoftStartBytes) : List Txn := pc p .softst [q.s0, q.s1, q.s2, q.s3]
/-- P.SLEEP: only where P_DEINIT_SLEEP is a byte (R196). -/
def txnsSleep (p : Params) : List Txn :=
  match p.deinitSleep with
  | none => []
  | some b => pc p .sleep [b]

/-- `C_SETWINDOW(xs, ys, xe, ye)` (R165): X before Y. -/
def cSetWindow (p : Params) (xs ys xe ye : Half) : List Txn := txnsXrange p xs xe ++ txnsYrange p ys ye

/-- `C_SETCURSOR(x, y)` (R166). -/
def cSetCursor (p : Params) (x y : Half) : List Txn := txnsXcnt p x ++ txnsYcnt p y

/-- The full-screen window and the origin, the only arguments ever used (R165, R166, R232). -/
def fullWindow (p : Params) : List Txn := cSetWindow p 0 0 199 199
def originCursor (p : Params) : List Txn := cSetCursor p 0 0

/-! ## Reset handshake and initialisation sequence -/

/-- The six RST events of the hardware pulse, positions RH1, RLO, RH2 (R170). -/
def rstPulse (s : State) : State :=
  let high1 := (s.drivePin .rst 1).emit [.delay .rst]
  let low := (high1.drivePin .rst 0).emit [.delay .rst]
  (low.drivePin .rst 1).emit [.delay .rst]

/-- `C_RESET` (R170, R171): both stages, each followed by a bounded wait. -/
def cReset (s : State) : Micro :=
  (sendAll (txnsSwreset s.params) (waitReady (rstPulse s))).andThen fun s =>
    .done (waitReady (s.emit [.delay .swrst]))

/-- The eighteen transactions of `C_INITSEQ`, in the order of the source's sentence (R172). -/
def initSeqTxns (p : Params) : List Txn :=
  txnsDrvout p ++ txnsEntry p ++ fullWindow p ++ txnsBorder p ++ txnsTemp p

/-- `C_INITSEQ` (R172). -/
def cInitSeq (s : State) : Micro := sendAll (initSeqTxns s.params) s

/-! ## Push, flash, activation -/

/-- The RAM-write command a plane selects, with its payload (R190, R191). -/
def ramWriteTxns (p : Params) (pl : Plane) (buf : List Byte) : List Txn :=
  match pl with
  | .black => txnsWrbw p buf
  | .red => txnsWrred p buf

/-- The fifteen transactions of a push of these bytes (R232). -/
def pushTxns (p : Params) (pl : Plane) (buf : List Byte) : List Txn :=
  fullWindow p ++ originCursor p ++ ramWriteTxns p pl buf

/-- 5000 bytes of FLASH_FILL (R8, R233). -/
def flashBytes : List Byte := List.replicate Config.planeBytes Config.flashFill

/-- `PUSH(p)` (R232): the plane is read as one snapshot and not changed. -/
def push (pl : Plane) (s : State) : Micro :=
  sendAll (pushTxns s.params pl (s.plane pl).planeBytes) (s.setSeq .transmitting)

/-- `FLASH` (R233): 0xFF straight to the black RAM, "bypassing the local buffer". -/
def flash (s : State) : Micro := sendAll (pushTxns s.params .black flashBytes) (s.setSeq .transmitting)

/-- `ACTIVATE(c2)` (R234). -/
def activate (w : Waveform) (s : State) : Micro :=
  (sendAll (txnsUc1 s.params ++ txnsUc2 s.params w) (s.setSeq .transmitting)).andThen fun s =>
    sendAll (txnsAct s.params) (s.setSeq .activating)

/-- `SEQ <- WaitingReady ; WAIT_READY` (R230, R240, R244). -/
def waitInSeq (s : State) : State := waitReady (s.setSeq .waitingReady)

end Sys2Proof.Machine
end

