-- ==== Sys2Proof/Machine/Lifecycle.lean ====
section
/-! DEFINITION. The lifecycle operations INIT, DEINIT, CFGDEF3, CFGDEF4 (46_lifecycle.md). -/

namespace Sys2Proof.Machine

open Sys2Proof

/-- The last steps of a successful INIT: the local clear of both planes, SEQ <- Idle, INIT <- 1 (R280). -/
def finishInit (s : State) : State :=
  { s with black := Mem.cleared, red := Mem.cleared, seq := .idle, initialised := true }

/-- INIT's body after its two checks: wire, reset, configure, clear (R280). -/
def initBody (s : State) : Micro :=
  (tOpen s).andThen fun s => (cReset s).andThen fun s => (cInitSeq s).andThen fun s => .done (finishInit s)

/-- `INIT` (R280). -/
def execInit (s : State) : Host.Outcome State Fault Refusal :=
  if s.initialised then .next (s.deliver .alreadyInitialized)
  else if s.cfg.clkHz = 0 then .next (s.deliver .invalidArgument)
  else .next (initBody s).endState

/-- The last steps of DEINIT: close the bus, INIT <- 0, SEQ <- Idle; the planes become unspecified (R284, R52; log 13). -/
def finishDeinit (s : State) : State :=
  let c := tClose s
  { c with
    initialised := false
    seq := .idle
    black := Mem.unspecified c.nextFree
    red := Mem.unspecified (c.nextFree + 1)
    nextFree := c.nextFree + 2 }

/-- `DEINIT` (R284): nothing to do when uninitialised; a failure of the optional sleep command is ignored. -/
def execDeinit (s : State) : Host.Outcome State Fault Refusal :=
  if s.initialised then .next (finishDeinit (sendAll (txnsSleep s.params) s).state).complete
  else .next s.complete

/-- `CFG <- PRESET with WIRING, CLK_HZ` (R286, R287). -/
def presetCfg (w : Wiring) (q : Preset) : Cfg :=
  { wiring := w, bus := q.bus, pinSdo := q.pinSdo, pinSck := q.pinSck, pinCs := q.pinCs, pinDc := q.pinDc,
    pinRst := q.pinRst, pinBusy := q.pinBusy, clkHz := Config.clkDefault }

/-- `CFGDEF3` (R286). -/
def execCfgdef3 (s : State) : Host.Outcome State Fault Refusal :=
  if s.initialised then .next (s.deliver .alreadyInitialized)
  else .next { s with cfg := presetCfg .threeWire s.params.preset3 }.complete

/-- `CFGDEF4` (R287). -/
def execCfgdef4 (s : State) : Host.Outcome State Fault Refusal :=
  if s.initialised then .next (s.deliver .alreadyInitialized)
  else .next { s with cfg := presetCfg .fourWire s.params.preset4 }.complete

end Sys2Proof.Machine
end

