-- ==== Sys2Proof/Machine/Sequencer.lean ====
section
/-! DEFINITION. The Update Sequencer operations WRBUF, UPDATE, WRUPD and SOFTSTART (44_update_sequencer.md). None writes a plane. -/

namespace Sys2Proof.Machine

open Sys2Proof

/-- The end of an operation that moves SEQ: `SEQ <- Idle` (R230). -/
def thenIdle (m : Micro) : Micro := m.andThen fun s => .done (s.setSeq .idle)

/-- `WRBUF plane` (R236): a push, no wait, no activation. -/
def execWrbuf (p : Plane) (s : State) : Host.Outcome State Fault Refusal :=
  s.whenInitialised (.next (thenIdle (push p s)).endState)

/-- The activations of UPDATE after its leading wait (R240); FastFull never reaches here. -/
def updateBody (t : UpdateType) (s : State) : Micro :=
  match t with
  | .fastPartial => activate .partialWave s
  | .cleanFull => activate .cleanWave s
  | .cleanFullAggressive => (activate .cleanWave s).andThen fun s => activate .cleanWave (waitInSeq s)
  | .fastFull => .raised .notSupported s

/-- `UPDATE type` (R240, R241): pushes no plane. -/
def execUpdate (t : Half) (s : State) : Host.Outcome State Fault Refusal :=
  s.whenInitialised
    (match updateTypeOf t with
     | none => .next (s.deliver .invalidArgument)
     | some .fastFull => .next (s.deliver .notSupported)
     | some u => .next (thenIdle (updateBody u (waitInSeq s))).endState)

/-- WRUPD after its one not-busy sample (R244). -/
def wrupdBody (t : UpdateType) (s : State) : Micro :=
  match t with
  | .fastPartial => (push .black s).andThen (activate .partialWave)
  | .cleanFull => (push .black s).andThen (activate .cleanWave)
  | .cleanFullAggressive =>
      (push .black s).andThen fun s => (activate .cleanWave s).andThen fun s => activate .cleanWave (waitInSeq s)
  | .fastFull =>
      (flash s).andThen fun s => (activate .partialWave s).andThen fun s =>
        (push .black (waitInSeq s)).andThen (activate .partialWave)

/-- `WRUPD type` (R244, R245): one busy sample; Busy, or the push and the activation. -/
def execWrupd (t : Half) (s : State) : Host.Outcome State Fault Refusal :=
  s.whenInitialised
    (match updateTypeOf t with
     | none => .next (s.deliver .invalidArgument)
     | some u =>
         let w := s.setSeq .waitingReady
         if w.seesBusy then .next ((sampleBusy w).deliver .busy)
         else .next (thenIdle (wrupdBody u (sampleBusy w))).endState)

/-- `SOFTSTART strength, time, minOff` (R250): SEQ stays Idle, no BUSY sample. -/
def execSoftstart (st ti mo : Half) (s : State) : Host.Outcome State Fault Refusal :=
  s.whenInitialised
    (match ssEncode s.params st ti mo with
     | none => .next (s.deliver .invalidArgument)
     | some q => .next (sendAll (txnsSoftst s.params q) s).endState)

end Sys2Proof.Machine
end

