-- ==== Sys2Proof/Machine/Underway.lean ====
section
/-! DEFINITION. The inside of a host operation (10_state.md R45): its fixed order of micro-operations as a list, one panel command a
line, and with it the places a panel command has (30_encoding.md R111). -/

namespace Sys2Proof.Machine

open Sys2Proof

/-! ## Panel commands as transactions -/

/-- The 5000 payload bytes of P.WRBW (R190). -/
def payloadBytes (s : State) : Payload → List Byte
  | .planeBytes => s.black.planeBytes
  | .flashBytes => flashBytes

/-- The transactions of a panel command (R181 to R196); a host operation is none. -/
def panelTxns (s : State) : Instr → List Txn
  | .pSwreset => txnsSwreset s.params
  | .pDrvout => txnsDrvout s.params
  | .pEntry => txnsEntry s.params
  | .pXrange xs xe => txnsXrange s.params xs xe
  | .pYrange ys ye => txnsYrange s.params ys ye
  | .pBorder => txnsBorder s.params
  | .pTemp => txnsTemp s.params
  | .pXcnt x => txnsXcnt s.params x
  | .pYcnt y => txnsYcnt s.params y
  | .pWrbw q => txnsWrbw s.params (payloadBytes s q)
  | .pWrred => txnsWrred s.params s.red.planeBytes
  | .pUc1 => txnsUc1 s.params
  | .pUc2 w => txnsUc2 s.params w
  | .pAct => txnsAct s.params
  | .pSoftst s0 s1 s2 s3 => txnsSoftst s.params { s0, s1, s2, s3 }
  | .pSleep => txnsSleep s.params
  | .init | .deinit | .cfgdef3 | .cfgdef4 | .clear _ | .wrbuf _ | .wrpt _ _ _ _ | .rdpt _ _ _
  | .fillrect _ _ _ _ _ _ | .drawpic _ _ _ _ _ _ | .drawstr _ _ _ _ _ _ _ | .softstart _ _ _ | .update _
  | .wrupd _ => []

/-! ## One line of an operation's pseudocode -/

/-- A line of a host operation's pseudocode, a panel command being one line. -/
inductive Task where
  /-- `T_OPEN` (R152). -/
  | openBus
  /-- `emit PinSet(RST, l)` (R170). -/
  | driveRst (l : Bit)
  /-- `emit Delay(d)`. -/
  | sleep (d : Duration)
  /-- `WAIT_READY` (R200). -/
  | awaitReady
  /-- `BUSY_CHECK`, and `raise Busy` where it reads the busy level (R203, R244). -/
  | checkBusy
  /-- `SEQ <- q` (R230). -/
  | enterSeq (q : Seq)
  /-- A panel command (R181 to R196). -/
  | issue (i : Instr)
deriving DecidableEq, Repr

/-- What a line does. -/
def runTask (t : Task) (s : State) : Micro :=
  match t with
  | .openBus => tOpen s
  | .driveRst l => .done (s.drivePin .rst l)
  | .sleep d => .done (s.emit [.delay d])
  | .awaitReady => .done (waitReady s)
  | .checkBusy => if s.seesBusy then .raised .busy (sampleBusy s) else .done (sampleBusy s)
  | .enterSeq q => .done (s.setSeq q)
  | .issue i => sendAll (panelTxns s i) s

/-- Lines in order; a raise ends them (R12). -/
def runTasks : List Task → State → Micro
  | [], s => .done s
  | t :: ts, s => (runTask t s).andThen (runTasks ts)

/-! ## The operations, line by line -/

/-- Both stages of the reset (R170, R171). -/
def resetTasks : List Task :=
  [.driveRst 1, .sleep .rst, .driveRst 0, .sleep .rst, .driveRst 1, .sleep .rst, .awaitReady,
   .issue .pSwreset, .sleep .swrst, .awaitReady]

/-- The full-screen window, the only one ever used (R165). -/
def windowTasks : List Task := [.issue (.pXrange 0 199), .issue (.pYrange 0 199)]

/-- `C_INITSEQ` (R172). -/
def initSeqTasks : List Task :=
  [.issue .pDrvout, .issue .pEntry] ++ windowTasks ++ [.issue .pBorder, .issue .pTemp]

/-- A push or a flash: window, cursor, RAM write (R232, R233). -/
def ramTasks (write : Instr) : List Task :=
  [.enterSeq .transmitting] ++ windowTasks ++ [.issue (.pXcnt 0), .issue (.pYcnt 0), .issue write]

/-- `PUSH(p)` (R232). -/
def pushTasks : Plane → List Task
  | .black => ramTasks (.pWrbw .planeBytes)
  | .red => ramTasks .pWrred

/-- `ACTIVATE(c2)` (R234). -/
def activateTasks (w : Waveform) : List Task :=
  [.enterSeq .transmitting, .issue .pUc1, .issue (.pUc2 w), .enterSeq .activating, .issue .pAct]

/-- `SEQ <- WaitingReady ; WAIT_READY` (R240). -/
def waitTasks : List Task := [.enterSeq .waitingReady, .awaitReady]

/-- UPDATE after its leading wait (R240). -/
def updateTasks : UpdateType → List Task
  | .fastPartial => activateTasks .partialWave
  | .cleanFull => activateTasks .cleanWave
  | .cleanFullAggressive => activateTasks .cleanWave ++ waitTasks ++ activateTasks .cleanWave
  | .fastFull => []

/-- WRUPD after its busy check (R244, R246). -/
def wrupdTasks : UpdateType → List Task
  | .fastPartial => pushTasks .black ++ activateTasks .partialWave
  | .cleanFull => pushTasks .black ++ activateTasks .cleanWave
  | .cleanFullAggressive =>
      pushTasks .black ++ activateTasks .cleanWave ++ waitTasks ++ activateTasks .cleanWave
  | .fastFull =>
      ramTasks (.pWrbw .flashBytes) ++ activateTasks .partialWave ++ waitTasks ++ pushTasks .black
        ++ activateTasks .partialWave

/-- The lines of an operation between its checks and its end, or the status its arguments raise (R236, R240, R244, R250, R280,
R284). -/
def Sending.tasks (p : Params) : Sending → Except Status (List Task)
  | .init => .ok (.openBus :: resetTasks ++ initSeqTasks)
  | .deinit =>
      match p.deinitSleep with
      | none => .ok []
      | some _ => .ok [.issue .pSleep]
  | .wrbuf pl => .ok (pushTasks pl)
  | .softstart st ti mo =>
      match ssEncode p st ti mo with
      | none => .error .invalidArgument
      | some q => .ok [.issue (.pSoftst q.s0 q.s1 q.s2 q.s3)]
  | .update t =>
      match updateTypeOf t with
      | none => .error .invalidArgument
      | some .fastFull => .error .notSupported
      | some u => .ok (waitTasks ++ updateTasks u)
  | .wrupd t =>
      match updateTypeOf t with
      | none => .error .invalidArgument
      | some u => .ok ([.enterSeq .waitingReady, .checkBusy] ++ wrupdTasks u)

/-- The instruction of an operation. -/
def Sending.instr : Sending → Instr
  | .init => .init
  | .deinit => .deinit
  | .wrbuf pl => .wrbuf pl
  | .softstart st ti mo => .softstart st ti mo
  | .update t => .update t
  | .wrupd t => .wrupd t

/-- The lifecycle checks (R280, R284, R301): the status an operation ends with at once, if any. -/
def State.turnsAway (s : State) : Sending → Option Status
  | .init => if s.initialised then some .alreadyInitialized else if s.cfg.clkHz = 0 then some .invalidArgument else none
  | .deinit => if s.initialised then none else some .ok
  | .wrbuf _ | .softstart _ _ _ | .update _ | .wrupd _ => if s.initialised then none else some .notInitialized

/-- The end of an operation after its lines: INIT's local clear, DEINIT's release of the bus whatever the sleep command did,
`SEQ <- Idle`, and the status (R230, R280, R284, R310). -/
def Sending.finish (op : Sending) (m : Micro) : State :=
  match op with
  | .init => (m.andThen fun s => .done (finishInit s)).endState
  | .deinit => (finishDeinit m.state).complete
  | .softstart _ _ _ => m.endState
  | .wrbuf _ | .update _ | .wrupd _ => (thenIdle m).endState

/-- An operation from its line `k` on, to its end (R15). -/
def State.perform (s : State) (op : Sending) (k : Nat) : State :=
  match s.turnsAway op with
  | some e => s.deliver e
  | none =>
      match op.tasks s.params with
      | .error e => s.deliver e
      | .ok ts => op.finish (runTasks (ts.drop k) s)

/-- The operation under way runs on to its end (R15). -/
def State.resume (s : State) (u : Underway) : State := { s.perform u.op u.done with underway := none }

/-! ## The place of a panel command (R111) -/

/-- Whether the next line of the operation under way is this panel command: past its lifecycle checks, with a bus held. -/
def State.nextIs (s : State) (u : Underway) (i : Instr) : Bool :=
  decide (s.turnsAway u.op = none) && s.ts.isSome &&
    match u.op.tasks s.params with
    | .error _ => false
    | .ok ts => decide (ts[u.done]? = some (.issue i))

/-- The place a panel command stands at: the operation under way, if its next line is this command (R111). -/
def State.place (s : State) (i : Instr) : Option Underway := s.underway.filter fun u => s.nextIs u i

/-- Operations in which every panel command has its place: its first place is looked for in this order. -/
def placesTried (p : Params) : List Sending :=
  [.init, .deinit, .wrbuf .black, .wrbuf .red, .update 0, .update 1, .wrupd 2]
    ++ p.softStart.map fun r => .softstart r.strength r.time r.minOff

/-- A place of a panel command, with the parameters at hand; `none` where it has none (R111). -/
def placeOf (p : Params) (i : Instr) : Option Underway :=
  (placesTried p).findSome? fun op =>
    match op.tasks p with
    | .error _ => none
    | .ok ts => (ts.findIdx? fun t => decide (t = .issue i)).map fun k => { op, done := k }

/-- SEQ at a place: what the lines done have last set it to (R230). -/
def Underway.seq (p : Params) (u : Underway) : Seq :=
  match u.op.tasks p with
  | .error _ => .idle
  | .ok ts =>
      (ts.take u.done).foldl (init := .idle) fun q t =>
        match t with
        | .enterSeq q' => q'
        | .openBus | .driveRst _ | .sleep _ | .awaitReady | .checkBusy | .issue _ => q

end Sys2Proof.Machine
end

