-- ==== Sys2Proof/Machine/Panel.lean ====
section
/-! DEFINITION. The sixteen panel commands as instructions (41_command_protocol.md R181 to R196; log 1): each is one line of the host
operation under way, and is sent in its place there and nowhere else (30_encoding.md R111). -/

namespace Sys2Proof.Machine

open Sys2Proof

/-- Send one panel command in its place (R111): its transactions go out and the operation stands at its next line; a short write
ends the operation as R310 delivers it, but for DEINIT, which ignores a failed sleep command (R284). Out of its place nothing is
sent and nothing changes but STATUS, as R103 has it for what names no operation (log 31). -/
def runPanel (i : Instr) (s : State) : State :=
  match s.place i with
  | none => { s with status := .invalidArgument }
  | some u =>
      match sendAll (panelTxns s i) s with
      | .done t => { t with underway := some { u with done := u.done + 1 } }
      | .raised e t =>
          if u.op = .deinit then { t with underway := some { u with done := u.done + 1 } }
          else { t.deliver e with underway := none }

/-- P.SWRESET (R181): in INIT, between the hardware pulse's wait and the delay of the second stage. -/
def execPSwreset (s : State) : Host.Outcome State Fault Refusal := .next (runPanel .pSwreset s)

/-- P.DRVOUT (R182): in INIT. -/
def execPDrvout (s : State) : Host.Outcome State Fault Refusal := .next (runPanel .pDrvout s)

/-- P.ENTRY (R183): in INIT. -/
def execPEntry (s : State) : Host.Outcome State Fault Refusal := .next (runPanel .pEntry s)

/-- P.XRANGE (R184): in INIT and in every push and flash. -/
def execPXrange (xs xe : Half) (s : State) : Host.Outcome State Fault Refusal := .next (runPanel (.pXrange xs xe) s)

/-- P.YRANGE (R185): behind every P.XRANGE. -/
def execPYrange (ys ye : Half) (s : State) : Host.Outcome State Fault Refusal := .next (runPanel (.pYrange ys ye) s)

/-- P.BORDER (R186): in INIT. -/
def execPBorder (s : State) : Host.Outcome State Fault Refusal := .next (runPanel .pBorder s)

/-- P.TEMP (R187): in INIT. -/
def execPTemp (s : State) : Host.Outcome State Fault Refusal := .next (runPanel .pTemp s)

/-- P.XCNT (R188): in every push and flash. -/
def execPXcnt (x : Half) (s : State) : Host.Outcome State Fault Refusal := .next (runPanel (.pXcnt x) s)

/-- P.YCNT (R189): behind every P.XCNT. -/
def execPYcnt (y : Half) (s : State) : Host.Outcome State Fault Refusal := .next (runPanel (.pYcnt y) s)

/-- P.WRBW (R190): in a push of the black plane or a flash. -/
def execPWrbw (q : Payload) (s : State) : Host.Outcome State Fault Refusal := .next (runPanel (.pWrbw q) s)

/-- P.WRRED (R191): in WRBUF red only (R237). -/
def execPWrred (s : State) : Host.Outcome State Fault Refusal := .next (runPanel .pWrred s)

/-- P.UC1 (R192): in every activation. -/
def execPUc1 (s : State) : Host.Outcome State Fault Refusal := .next (runPanel .pUc1 s)

/-- P.UC2 (R193): in every activation, behind P.UC1. -/
def execPUc2 (w : Waveform) (s : State) : Host.Outcome State Fault Refusal := .next (runPanel (.pUc2 w) s)

/-- P.ACT (R194): in every activation, behind P.UC2. -/
def execPAct (s : State) : Host.Outcome State Fault Refusal := .next (runPanel .pAct s)

/-- P.SOFTST (R195): in SOFTSTART, with the four bytes SS_ENCODE gives it. -/
def execPSoftst (s0 s1 s2 s3 : Byte) (s : State) : Host.Outcome State Fault Refusal :=
  .next (runPanel (.pSoftst s0 s1 s2 s3) s)

/-- P.SLEEP (R196): in DEINIT, where P_DEINIT_SLEEP is a byte. -/
def execPSleep (s : State) : Host.Outcome State Fault Refusal := .next (runPanel .pSleep s)

end Sys2Proof.Machine
end

