-- ==== Sys2Proof/Machine/Dispatch.lean ====
section
/-! DEFINITION. One arm per instruction, each one direct call of its meaning. -/

namespace Sys2Proof.Machine

open Sys2Proof

/-- The meaning of an instruction. -/
def exec (i : Instr) (s : State) : Host.Outcome State Fault Refusal :=
  match i with
  | .init => Sys2Proof.Machine.execInit s
  | .deinit => Sys2Proof.Machine.execDeinit s
  | .cfgdef3 => Sys2Proof.Machine.execCfgdef3 s
  | .cfgdef4 => Sys2Proof.Machine.execCfgdef4 s
  | .clear p => Sys2Proof.Machine.execClear p s
  | .wrbuf p => Sys2Proof.Machine.execWrbuf p s
  | .wrpt p x y v => Sys2Proof.Machine.execWrpt p x y v s
  | .rdpt p x y => Sys2Proof.Machine.execRdpt p x y s
  | .fillrect p l t r b v => Sys2Proof.Machine.execFillrect p l t r b v s
  | .drawpic p l t r b ptr => Sys2Proof.Machine.execDrawpic p l t r b ptr s
  | .drawstr p x y ptr len v fs => Sys2Proof.Machine.execDrawstr p x y ptr len v fs s
  | .softstart st ti mo => Sys2Proof.Machine.execSoftstart st ti mo s
  | .update t => Sys2Proof.Machine.execUpdate t s
  | .wrupd t => Sys2Proof.Machine.execWrupd t s
  | .pSwreset => Sys2Proof.Machine.execPSwreset s
  | .pDrvout => Sys2Proof.Machine.execPDrvout s
  | .pEntry => Sys2Proof.Machine.execPEntry s
  | .pXrange xs xe => Sys2Proof.Machine.execPXrange xs xe s
  | .pYrange ys ye => Sys2Proof.Machine.execPYrange ys ye s
  | .pBorder => Sys2Proof.Machine.execPBorder s
  | .pTemp => Sys2Proof.Machine.execPTemp s
  | .pXcnt x => Sys2Proof.Machine.execPXcnt x s
  | .pYcnt y => Sys2Proof.Machine.execPYcnt y s
  | .pWrbw q => Sys2Proof.Machine.execPWrbw q s
  | .pWrred => Sys2Proof.Machine.execPWrred s
  | .pUc1 => Sys2Proof.Machine.execPUc1 s
  | .pUc2 w => Sys2Proof.Machine.execPUc2 w s
  | .pAct => Sys2Proof.Machine.execPAct s
  | .pSoftst s0 s1 s2 s3 => Sys2Proof.Machine.execPSoftst s0 s1 s2 s3 s
  | .pSleep => Sys2Proof.Machine.execPSleep s

end Sys2Proof.Machine
end

