-- ==== Sys2Proof/Machine/HostPort.lean ====
section
/-! DEFINITION. The host's port: the register map (10_state.md R47), the host's moves, and what begins when something stands
latched in CMD (R43). -/

namespace Sys2Proof.Machine

open Sys2Proof

/-- A CFG register's effect on CFG; the other registers are read-only and a write to them changes nothing, and bits
of `v` above a register's width are ignored (R47 gives the access and the width; what such a write does is DESIGN CHOICE, log 18). -/
def writeCfg (c : Cfg) (r : HostReg) (v : Quad) : Cfg :=
  match r with
  | .cfgMode => { c with wiring := wiringOfBit (v.extractLsb' 0 1), bus := v.extractLsb' 1 1 }
  | .cfgPinSdo => { c with pinSdo := v.extractLsb' 0 8 }
  | .cfgPinSck => { c with pinSck := v.extractLsb' 0 8 }
  | .cfgPinCs => { c with pinCs := v.extractLsb' 0 8 }
  | .cfgPinDc => { c with pinDc := v.extractLsb' 0 8 }
  | .cfgPinRst => { c with pinRst := v.extractLsb' 0 8 }
  | .cfgPinBusy => { c with pinBusy := v.extractLsb' 0 8 }
  | .cfgClkHz => { c with clkHz := v }
  | .status | .rdata | .state => c

/-- A register write: CFG is writable only while INIT = 0; a write while INIT = 1 is ignored (R32, R360). -/
def State.writeReg (s : State) (r : HostReg) (v : Quad) : State :=
  if s.initialised then s else { s with cfg := writeCfg s.cfg r v }

/-- The value a register read returns (R47), zero-extended to the 32 bits of the model's port (log 18). -/
def State.readReg (s : State) : HostReg → Quad
  | .status => (statusCode s.status).setWidth 32
  | .rdata => s.rdata.setWidth 32
  | .state => s.stateRegister.setWidth 32
  | .cfgMode => s.cfgModeRegister.setWidth 32
  | .cfgPinSdo => s.cfg.pinSdo.setWidth 32
  | .cfgPinSck => s.cfg.pinSck.setWidth 32
  | .cfgPinCs => s.cfg.pinCs.setWidth 32
  | .cfgPinDc => s.cfg.pinDc.setWidth 32
  | .cfgPinRst => s.cfg.pinRst.setWidth 32
  | .cfgPinBusy => s.cfg.pinBusy.setWidth 32
  | .cfgClkHz => s.cfg.clkHz

/-- How many free values a register read takes: one where STATE shows TS.MODE of a TS that does not exist (U2). -/
def State.readTakes (s : State) (r : HostReg) : Nat :=
  if r = .state ∧ s.ts = none then 1 else 0

/-- The state after loss and return of power (R340, R341): power-on, with the parameters, the host's moves and the draws still
to come kept, and fresh unspecified contents of the planes and of HBUF. -/
def State.powerOn (s : State) : State :=
  { State.reset with
    params := s.params
    hostMoves := s.hostMoves
    busyFeed := s.busyFeed
    countFeed := s.countFeed
    rateFeed := s.rateFeed
    busFeed := s.busFeed
    hbuf := Mem.unspecified s.nextFree
    black := Mem.unspecified (s.nextFree + 1)
    red := Mem.unspecified (s.nextFree + 2)
    nextFree := s.nextFree + 3 }

/-- One move of the host. -/
def hostMove (m : HostMove) (s : State) : Host.Outcome State Fault Refusal :=
  match m with
  | .writeCmd w => .next { s with cmd := some (.descriptor w) }
  | .readCmd => .refused .cmdIsWriteOnly
  | .writeReg r v => .next (s.writeReg r v)
  | .readReg r => .next { s with hostRead := s.readReg r, nextFree := s.nextFree + s.readTakes r }
  | .writeHbuf a v =>
      if a < s.params.hbufSize then .next { s with hbuf := s.hbuf.write a v } else .fault .hbufAddress
  | .powerCycle => .next s.powerOn

/-- The host's turn: its next move, or nothing at all, the block staying idle with its state retained (R325; log 21). -/
def hostTurn (s : State) : Host.Outcome State Fault Refusal :=
  match s.hostMoves with
  | [] => .next s
  | m :: ms => hostMove m { s with hostMoves := ms }

/-! ## What stands latched -/

/-- Whether a latched word may run now: a host operation only while none is executing (R16); a panel command is a line of the one
that is. -/
def State.accepts (s : State) : CmdWord → Bool
  | .descriptor _ => decide (s.seq = .idle) && decide (s.underway = none)
  | .panel _ => true

/-- The latch is taken (R43). Where a host operation begins, the shared bus is as other bus users left it (R49; log 6); during
one they do not act (R14), so a panel word takes the `bus` the state holds (log 33). -/
def State.enter (s : State) : CmdWord → State
  | .descriptor _ => { s with cmd := none, bus := s.busFeed.peek freeBus, busFeed := s.busFeed.pop }
  | .panel _ => { s with cmd := none }

/-- The instruction a latched word names, if any (R103, R104; log 2). -/
def fetch (p : Params) (w : CmdWord) : Option Instr :=
  match decode p w with
  | .ok i => some i
  | .error _ => none

/-- A word that names no instruction: `raise InvalidArgument` (R103); a panel word ends no operation by it (log 31). -/
def State.turnAway (s : State) : CmdWord → State
  | .descriptor _ => s.deliver .invalidArgument
  | .panel _ => { s with status := .invalidArgument }

/-- The block at a place inside an operation: the operation's latches and line, the SEQ of that line, a bus held; inside INIT
INIT = 0, inside any other what a successful INIT leaves (R52, R111; log 4).
DESIGN CHOICE (log 33): BUS and PIN.DC stay as `s` has them, neither drawn (R49) nor set as the operation's earlier lines would have
left them (R141, R143); from `State.reset` that is 8 bits, 0 Hz and DC = 0, and the bus check of the command that stands here reads
that BUS. -/
def State.standAt (s : State) (u : Underway) : State :=
  let up := if u.op = .init then { s with initialised := false } else if s.initialised then s else finishInit s
  { up with
    underway := some u
    seq := u.seq s.params
    ts := some (s.ts.getD { mode := Config.freeBit s.nextFree, bush := s.cfg.bus, hz := s.cfg.clkHz })
    pin := { s.pin with cs := 1, rst := 1 }
    nextFree := s.nextFree + 1 }

/-- Latch a word so that the next step runs it (log 4): a descriptor between host operations, a panel command in its place. -/
def State.latch (s : State) (w : CmdWord) : State :=
  match w with
  | .descriptor _ => { s with cmd := some w, seq := .idle, underway := none }
  | .panel _ =>
      let at? := (fetch s.params w).bind (placeOf s.params)
      { (at?.elim s s.standAt) with cmd := some w }

end Sys2Proof.Machine
end

