-- ==== Sys2Proof/Machine/Step.lean ====
section
/-! DEFINITION. One step: the FBC runs what stands latched in CMD, to its end (00_scope.md R15), or the host makes its next
move. -/

namespace Sys2Proof.Machine

open Sys2Proof

/-- One step. While CMD is latched the FBC moves: one host operation, whole (R15), or one panel command of the operation under way
(R111); InvalidArgument for a word that names nothing (R103), a refusal where an operation is already executing (R16, R356, U1). An
operation under way runs to its end (R15). Otherwise the host moves. -/
def step (s : State) : Host.Outcome State Fault Refusal :=
  match s.cmd with
  | some w =>
      if s.accepts w then
        match fetch s.params w with
        | some i => exec i (s.enter w)
        | none => .next ((s.enter w).turnAway w)
      else .refused .concurrentOperation
  | none =>
      match s.underway with
      | some u => .next (s.resume u)
      | none => hostTurn s

/-- The state with an opcode table's word latched, so that the next step runs it (log 4). -/
def State.withFetchWord (s : State) (nbits w : Nat) : State := s.latch (cmdWordOfTable s.params nbits w)

end Sys2Proof.Machine
end

