-- ==== Sys2Proof/Safety.lean ====
section
/-! DEFINITION. The terms claims use: the transaction view of a trace (40_transport.md R150), chip-select framing (R151), complete
bus writes (R146), the wire form of the panel commands (30_encoding.md R109), the invariant every step keeps. -/

namespace Sys2Proof.Machine

open Sys2Proof

/-! ## The transaction view (R150) -/

/-- What a trace shows at the transaction level: the payload bytes one transaction shifted, each with its mode, and every other
event but `BusCfg` and the DC level. DESIGN CHOICE (log 29): the mode stands at each byte, so a transaction of which no frame went
out is `txn []`, with no mode, in both wirings; R150's projection needs a first frame there. -/
inductive Obs where
  | txn (shifted : List (Bit × Byte))
  | busyRead (l : Bit)
  | delay (d : Duration)
  | rst (l : Bit)
  | csHigh
  | busInit (b : Bit) (hz : Quad) (r : Nat)
  | busDeinit (b : Bit)
deriving DecidableEq, Repr

/-- The mode and the payload of a frame: in F9 the mode is bit 8, in F8 it is the DC level (R105). -/
def frameView (dc : Bit) : Frame → Bit × Byte
  | .f8 b => (dc, b)
  | .f9 v => (v.extractLsb' 8 1, v.extractLsb' 0 8)

/-- The projection (R150), with the DC level and the open transaction so far; an open transaction that closes without a frame
shows as `txn []` (log 29). -/
def viewFrom : Bit → Option (List (Bit × Byte)) → List Event → List Obs
  | _, _, [] => []
  | dc, cur, .pinSet .cs l :: es =>
      if l = 0 then viewFrom dc (some []) es
      else
        match cur with
        | some fs => .txn fs :: viewFrom dc none es
        | none => .csHigh :: viewFrom dc none es
  | _, cur, .pinSet .dc l :: es => viewFrom l cur es
  | dc, cur, .pinSet .rst l :: es => .rst l :: viewFrom dc cur es
  | dc, cur, .busyRead l :: es => .busyRead l :: viewFrom dc cur es
  | dc, cur, .delay d :: es => .delay d :: viewFrom dc cur es
  | dc, cur, .frame f :: es => viewFrom dc (cur.map fun fs => fs ++ [frameView dc f]) es
  | dc, cur, .busInit b hz r :: es => .busInit b hz r :: viewFrom dc cur es
  | dc, cur, .busCfg _ _ :: es => viewFrom dc cur es
  | dc, cur, .busDeinit b :: es => .busDeinit b :: viewFrom dc cur es

/-- The transaction view of the events of an operation (R150). -/
def view (es : List Event) : List Obs := viewFrom 0 none es

/-- `Txn(mode, bytes)` with the first `n` bytes shifted (R146, R150); `txn []` for `n = 0` (log 29). -/
def Txn.shown (t : Txn) (n : Nat) : Obs := .txn ((t.bytes.take n).map fun b => (t.mode, b))

/-- A transaction that went out whole. -/
def Txn.whole (t : Txn) : Obs := .txn (t.bytes.map fun b => (t.mode, b))

/-! ## Time as lower bounds (R18, R371) -/

/-- The least time, in microseconds, that the `Delay` events among these state: each is a lower bound (R371). -/
def sleptAtLeast (p : Params) (es : List Event) : Nat :=
  (es.map fun e =>
    match e with
    | .delay d => d.micros p
    | .pinSet _ _ | .busyRead _ | .frame _ | .busInit _ _ _ | .busCfg _ _ | .busDeinit _ => 0).sum

/-! ## Draws -/

/-- The `i`-th draw to come of a feed. -/
def Feed.nth {α : Type} (free : Nat → α) (f : Feed α) (i : Nat) : α := f.given.getD i (free (f.used + i))

/-- A feed after `n` draws. -/
def Feed.popMany {α : Type} (f : Feed α) (n : Nat) : Feed α := { given := f.given.drop n, used := f.used + n }

/-- "Every `BusWrite` draw equals the requested length" for these transactions, the next ones sent (R146). -/
def State.completes (s : State) (ts : List Txn) : Prop :=
  ∀ i (h : i < ts.length), ts[i].bytes.length ≤ s.countFeed.nth Config.freeCount i

/-- The next bus writes to come, of these lengths, are all reported complete (R146). -/
def State.writesAll (s : State) (lens : List Nat) : Prop :=
  ∀ i (h : i < lens.length), lens[i] ≤ s.countFeed.nth Config.freeCount i

/-- The level of the `i`-th BUSY sample to come. -/
def State.busyAt (s : State) (i : Nat) : Bit := s.busyFeed.nth Config.freeBusy i

/-- Everything but the trace that `n` complete transactions, the last of mode `m`, change (R141, R143, R144). `bus` is BUS
as the last of them left it; what it is when the next operation begins is a new draw (R49; log 6). -/
def State.wireEffect (s : State) (n : Nat) (m : Bit) : State :=
  { s with
    bus := s.cfg.wantedBus
    ts := s.ts.map fun u =>
      { u with
        mode := if s.cfg.wiring = .threeWire then m else u.mode
        hz := if s.bus = s.cfg.wantedBus then u.hz else s.cfg.clkHz }
    pin := { s.pin with cs := 1, dc := if s.cfg.wiring = .fourWire then m else s.pin.dc }
    countFeed := s.countFeed.popMany n }

/-! ## Named sub-traces (95_test_vectors.md, "Named sub-traces used below") -/

/-- The operation that led from `s` to `t` appended events that show as these. -/
def State.shows (s t : State) (os : List Obs) : Prop := ∃ es, t.tr = s.tr ++ es ∧ view es = os

/-- `Txn(0,[opc])`, `Txn(1,[b])`, `Txn(1,buf)`. -/
def cmdObs (p : Params) (k : PanelOp) : Obs := .txn [(0, p.opcode k)]
def dataObs (b : Byte) : Obs := .txn [(1, b)]
def bufObs (buf : List Byte) : Obs := .txn (buf.map fun b => (1, b))

/-- WIN: the full-screen window, eight transactions (R165). -/
def winObs (p : Params) : List Obs :=
  [cmdObs p .xrange, dataObs 0x00, dataObs 0x18,
   cmdObs p .yrange, dataObs 0x00, dataObs 0x00, dataObs 0xC7, dataObs 0x00]

/-- CUR: the cursor at the origin, five transactions (R166). -/
def curObs (p : Params) : List Obs := [cmdObs p .xcnt, dataObs 0x00, cmdObs p .ycnt, dataObs 0x00, dataObs 0x00]

/-- A RAM write of the plane's colour (R190, R191). -/
def ramObs (p : Params) (pl : Plane) (buf : List Byte) : List Obs :=
  [cmdObs p (match pl with | .black => .wrbw | .red => .wrred), bufObs buf]

/-- PUSH and FLASH: fifteen transactions (R232, R233). -/
def pushObs (p : Params) (pl : Plane) (buf : List Byte) : List Obs := winObs p ++ curObs p ++ ramObs p pl buf

/-- ACT(c2): six transactions (R234). -/
def actObs (p : Params) (c2 : Byte) : List Obs :=
  [cmdObs p .uc1, dataObs 0x00, dataObs 0x80, cmdObs p .uc2, dataObs c2, cmdObs p .act]

/-- The hardware half of the reset handshake (R170). -/
def rstObs : List Obs := [.rst 1, .delay .rst, .rst 0, .delay .rst, .rst 1, .delay .rst]

/-- INITSEQ: eighteen transactions (R172). -/
def initSeqObs (p : Params) : List Obs :=
  [cmdObs p .drvout, dataObs 0xC7, dataObs 0x00, dataObs p.gateScan, cmdObs p .entry, dataObs p.dataEntry]
    ++ winObs p ++ [cmdObs p .border, dataObs p.border, cmdObs p .temp, dataObs p.tempSrc]

/-- What a wait-for-ready shows from BUSY sample `i` on, with this many samples left (R200). -/
def waitShown (level : Nat → Bit) (active : Bit) : Nat → Nat → List Obs
  | 0, _ => []
  | k + 1, i =>
      if level i ≠ active then [.busyRead (level i), .delay .settle]
      else if k = 0 then [.busyRead (level i)]
      else .busyRead (level i) :: .delay .poll :: waitShown level active k (i + 1)

/-- How many samples it takes. -/
def waitSamples (level : Nat → Bit) (active : Bit) : Nat → Nat → Nat
  | 0, _ => 0
  | k + 1, i => if level i ≠ active then 1 else if k = 0 then 1 else waitSamples level active k (i + 1) + 1

/-- The wait of an operation that begins in `s`, from BUSY sample `i` on. -/
def State.waitObs (s : State) (i : Nat) : List Obs := waitShown s.busyAt s.params.busyActive s.params.nPoll i

/-- The first BUSY sample after that wait. -/
def State.afterWait (s : State) (i : Nat) : Nat := i + waitSamples s.busyAt s.params.busyActive s.params.nPoll i

/-! ## Text layout (R268) -/

/-- Where the characters' glyphs stand: code and top left corner of each, a character above 127 skipped, a line wrapped where
the next glyph would overflow the width, the text ended where it would overflow the height. -/
def glyphPlaces (fs : Nat) : List Nat → Nat → Nat → List (Nat × Nat × Nat)
  | [], _, _ => []
  | c :: cs, x, y =>
      if 127 < c then glyphPlaces fs cs x y
      else if x + fs ≤ 200 then
        if y + fs ≤ 200 then (c, x, y) :: glyphPlaces fs cs (x + fs) y else []
      else
        if fs ≤ 200 ∧ y + fs + fs ≤ 200 then (c, 0, y + fs) :: glyphPlaces fs cs fs (y + fs) else []

/-- Whether the text stops silently at one of these characters, the vertical space being exhausted (R268). A character behind such a
prefix is never read. -/
def textStops (fs : Nat) : List Nat → Nat → Nat → Bool
  | [], _, _ => false
  | c :: cs, x, y =>
      if 127 < c then textStops fs cs x y
      else if x + fs ≤ 200 then
        if y + fs ≤ 200 then textStops fs cs (x + fs) y else true
      else
        if fs ≤ 200 ∧ y + fs + fs ≤ 200 then textStops fs cs fs (y + fs) else true

/-- Whether a glyph's cell covers a pixel. -/
def inCell (fs px py : Nat) (g : Nat × Nat × Nat) : Bool :=
  decide (g.2.1 ≤ px ∧ px < g.2.1 + fs ∧ g.2.2 ≤ py ∧ py < g.2.2 + fs)

/-- What a pixel shows after the text: the covering glyph's pixel, nearest-neighbour scaled, else what it was. -/
def textPixel (p : Params) (fs : Nat) (places : List (Nat × Nat × Nat)) (v old : Bit) (px py : Nat) : Bit :=
  match places.find? (inCell fs px py) with
  | none => old
  | some (c, x, y) =>
      if fontPixel p c ((py - y) * 8 / fs) ((px - x) * 8 / fs) then v
      else
        match p.strBg with
        | .opaqueBg => 1 - v
        | .transparentBg => old

/-! ## Trace discipline (R151, R32, R106) -/

/-- Where chip-select stands along a trace: not driven, idle high, or low inside a transaction. -/
inductive CsLevel where
  | undriven
  | high
  | low
deriving DecidableEq, Repr

/-- Chip-select framing, event by event (R107, R151 (a)): it falls only from high, rises only from low (or is first driven
high after a bus initialisation), and a frame goes out only while it is low; `none` where an event breaks this. -/
def csNext : CsLevel → Event → Option CsLevel
  | .high, .pinSet .cs l => if l = 0 then some .low else none
  | .low, .pinSet .cs l => if l = 1 then some .high else none
  | .undriven, .pinSet .cs l => if l = 1 then some .high else none
  | .low, .frame _ => some .low
  | .high, .frame _ => none
  | .undriven, .frame _ => none
  | .low, .busInit _ _ _ => none
  | .high, .busInit _ _ _ => some .undriven
  | .undriven, .busInit _ _ _ => some .undriven
  | .high, .busDeinit _ => some .undriven
  | .low, .busDeinit _ => none
  | .undriven, .busDeinit _ => none
  | c, .pinSet .dc _ => some c
  | c, .pinSet .rst _ => some c
  | c, .busyRead _ => some c
  | c, .delay _ => some c
  | c, .busCfg _ _ => some c

/-- Chip-select framing along a list of events. -/
def csScan : CsLevel → List Event → Option CsLevel
  | c, [] => some c
  | c, e :: es =>
      match csNext c e with
      | some c' => csScan c' es
      | none => none

/-- Between operations chip-select is high while a bus is held, and not driven otherwise. -/
def State.csLevel (s : State) : CsLevel := if s.ts.isSome then .high else .undriven

/-- What a wiring allows on the wire: frames of its own width only, and no drive of DC in 3-wire (R32, R105, R106). -/
def eventFits (w : Wiring) : Event → Bool
  | .frame (.f8 _) => decide (w = .fourWire)
  | .frame (.f9 _) => decide (w = .threeWire)
  | .pinSet .dc _ => decide (w = .fourWire)
  | .busCfg width _ => decide (width = widthOf w)
  | .pinSet .cs _ | .pinSet .rst _ | .busyRead _ | .delay _ | .busInit _ _ _ | .busDeinit _ => true

end Sys2Proof.Machine

namespace Sys2Proof

/-! ## Instructions by kind -/

/-- The fourteen host operations (R100); the other instructions are panel commands. -/
def Instr.isHostOp : Instr → Bool
  | .init | .deinit | .cfgdef3 | .cfgdef4 | .clear _ | .wrbuf _ | .wrpt _ _ _ _ | .rdpt _ _ _
  | .fillrect _ _ _ _ _ _ | .drawpic _ _ _ _ _ _ | .drawstr _ _ _ _ _ _ _ | .softstart _ _ _ | .update _
  | .wrupd _ => true
  | .pSwreset | .pDrvout | .pEntry | .pXrange _ _ | .pYrange _ _ | .pBorder | .pTemp | .pXcnt _ | .pYcnt _
  | .pWrbw _ | .pWrred | .pUc1 | .pUc2 _ | .pAct | .pSoftst _ _ _ _ | .pSleep => false

/-- The OP code of a host operation (R100). -/
def Instr.opCode : Instr → Option Byte
  | .init => some 0x81
  | .deinit => some 0x82
  | .cfgdef3 => some 0x83
  | .cfgdef4 => some 0x84
  | .clear _ => some 0x90
  | .wrbuf _ => some 0x91
  | .wrpt _ _ _ _ => some 0x92
  | .rdpt _ _ _ => some 0x93
  | .fillrect _ _ _ _ _ _ => some 0x94
  | .drawpic _ _ _ _ _ _ => some 0x95
  | .drawstr _ _ _ _ _ _ _ => some 0x96
  | .softstart _ _ _ => some 0xA0
  | .update _ => some 0xA1
  | .wrupd _ => some 0xA2
  | .pSwreset | .pDrvout | .pEntry | .pXrange _ _ | .pYrange _ _ | .pBorder | .pTemp | .pXcnt _ | .pYcnt _
  | .pWrbw _ | .pWrred | .pUc1 | .pUc2 _ | .pAct | .pSoftst _ _ _ _ | .pSleep => none

/-- The fourteen OP codes (R100) and the decode mask (R104). -/
def opCodes : List Byte := [0x81, 0x82, 0x83, 0x84, 0x90, 0x91, 0x92, 0x93, 0x94, 0x95, 0x96, 0xA0, 0xA1, 0xA2]
def decodeMask : BitVec 128 := 0xFFFF000000000000000000000000FCFF

/-- The host operations that need INIT = 1 (R301). -/
def Instr.needsInit : Instr → Bool
  | .init | .deinit | .cfgdef3 | .cfgdef4 => false
  | .clear _ | .wrbuf _ | .wrpt _ _ _ _ | .rdpt _ _ _ | .fillrect _ _ _ _ _ _ | .drawpic _ _ _ _ _ _
  | .drawstr _ _ _ _ _ _ _ | .softstart _ _ _ | .update _ | .wrupd _ => true
  | .pSwreset | .pDrvout | .pEntry | .pXrange _ _ | .pYrange _ _ | .pBorder | .pTemp | .pXcnt _ | .pYcnt _
  | .pWrbw _ | .pWrred | .pUc1 | .pUc2 _ | .pAct | .pSoftst _ _ _ _ | .pSleep => false

/-- The plane an operation's plane operand names (R71). -/
def Instr.planeOperand : Instr → Option Plane
  | .clear p | .wrbuf p | .wrpt p _ _ _ | .rdpt p _ _ | .fillrect p _ _ _ _ _ | .drawpic p _ _ _ _ _
  | .drawstr p _ _ _ _ _ _ => some p
  | .init | .deinit | .cfgdef3 | .cfgdef4 | .softstart _ _ _ | .update _ | .wrupd _ => none
  | .pSwreset | .pDrvout | .pEntry | .pXrange _ _ | .pYrange _ _ | .pBorder | .pTemp | .pXcnt _ | .pYcnt _
  | .pWrbw _ | .pWrred | .pUc1 | .pUc2 _ | .pAct | .pSoftst _ _ _ _ | .pSleep => none

/-- Whether an operation writes into this plane (R36, R214, R280, R284): the writers of R36 with this plane operand; a
successful INIT and a DEINIT, which replace both planes. -/
def Instr.writesPlane (q : Plane) : Instr → Bool
  | .clear p | .wrpt p _ _ _ | .fillrect p _ _ _ _ _ | .drawpic p _ _ _ _ _ | .drawstr p _ _ _ _ _ _ => decide (p = q)
  | .init | .deinit => true
  | .wrbuf _ | .rdpt _ _ _ | .cfgdef3 | .cfgdef4 | .softstart _ _ _ | .update _ | .wrupd _ => false
  | .pSwreset | .pDrvout | .pEntry | .pXrange _ _ | .pYrange _ _ | .pBorder | .pTemp | .pXcnt _ | .pYcnt _
  | .pWrbw _ | .pWrred | .pUc1 | .pUc2 _ | .pAct | .pSoftst _ _ _ _ | .pSleep => false

/-- The panel commands a host operation may send, by the places their rules name (R111, R181 to R196). -/
def Instr.commands : Instr → List PanelOp
  | .init => [.swreset, .drvout, .entry, .xrange, .yrange, .border, .temp]
  | .deinit => [.sleep]
  | .wrbuf .black => [.xrange, .yrange, .xcnt, .ycnt, .wrbw]
  | .wrbuf .red => [.xrange, .yrange, .xcnt, .ycnt, .wrred]
  | .softstart _ _ _ => [.softst]
  | .update _ => [.uc1, .uc2, .act]
  | .wrupd _ => [.xrange, .yrange, .xcnt, .ycnt, .wrbw, .uc1, .uc2, .act]
  | .cfgdef3 | .cfgdef4 | .clear _ | .wrpt _ _ _ _ | .rdpt _ _ _ | .fillrect _ _ _ _ _ _ | .drawpic _ _ _ _ _ _
  | .drawstr _ _ _ _ _ _ _ => []
  | .pSwreset => [.swreset]
  | .pDrvout => [.drvout]
  | .pEntry => [.entry]
  | .pXrange _ _ => [.xrange]
  | .pYrange _ _ => [.yrange]
  | .pBorder => [.border]
  | .pTemp => [.temp]
  | .pXcnt _ => [.xcnt]
  | .pYcnt _ => [.ycnt]
  | .pWrbw _ => [.wrbw]
  | .pWrred => [.wrred]
  | .pUc1 => [.uc1]
  | .pUc2 _ => [.uc2]
  | .pAct => [.act]
  | .pSoftst _ _ _ _ => [.softst]
  | .pSleep => [.sleep]

end Sys2Proof

namespace Sys2Proof.Machine

open Sys2Proof

/-- A run of instructions, one after another; `none` where one of them stops. -/
def execAll : List Instr → State → Option State
  | [], s => some s
  | i :: is, s =>
      match exec i s with
      | .next t => execAll is t
      | .fault _ => none
      | .refused _ => none

/-- The wire form of a panel command (R109): its opcode parameter, and the bytes of each data transaction after the command
frame: one byte each in form PC, the whole buffer in form PCB (R108). -/
def wireForm (s : State) : Instr → Option (PanelOp × List (List Byte))
  | .pSwreset => some (.swreset, [])
  | .pDrvout => some (.drvout, [[0xC7], [0x00], [s.params.gateScan]])
  | .pEntry => some (.entry, [[s.params.dataEntry]])
  | .pXrange xs xe => some (.xrange, [[BitVec.ofNat 8 (xs.toNat / 8)], [BitVec.ofNat 8 (xe.toNat / 8)]])
  | .pYrange ys ye =>
      some (.yrange,
        [[BitVec.ofNat 8 (ys.toNat % 256)], [BitVec.ofNat 8 (ys.toNat / 256)],
         [BitVec.ofNat 8 (ye.toNat % 256)], [BitVec.ofNat 8 (ye.toNat / 256)]])
  | .pBorder => some (.border, [[s.params.border]])
  | .pTemp => some (.temp, [[s.params.tempSrc]])
  | .pXcnt x => some (.xcnt, [[BitVec.ofNat 8 (x.toNat / 8)]])
  | .pYcnt y => some (.ycnt, [[BitVec.ofNat 8 (y.toNat % 256)], [BitVec.ofNat 8 (y.toNat / 256)]])
  | .pWrbw .planeBytes => some (.wrbw, [s.black.planeBytes])
  | .pWrbw .flashBytes => some (.wrbw, [List.replicate 5000 0xFF])
  | .pWrred => some (.wrred, [s.red.planeBytes])
  | .pUc1 => some (.uc1, [[0x00], [0x80]])
  | .pUc2 .partialWave => some (.uc2, [[0xFE]])
  | .pUc2 .cleanWave => some (.uc2, [[0xF6]])
  | .pAct => some (.act, [])
  | .pSoftst s0 s1 s2 s3 => some (.softst, [[s0], [s1], [s2], [s3]])
  | .pSleep =>
      match s.params.deinitSleep with
      | some b => some (.sleep, [[b]])
      | none => none
  | .init | .deinit | .cfgdef3 | .cfgdef4 | .clear _ | .wrbuf _ | .wrpt _ _ _ _ | .rdpt _ _ _
  | .fillrect _ _ _ _ _ _ | .drawpic _ _ _ _ _ _ | .drawstr _ _ _ _ _ _ _ | .softstart _ _ _ | .update _
  | .wrupd _ => none

/-- The transactions of a wire form: the command frame, then one data transaction for each buffer (R108). -/
def wireTxns (p : Params) (f : PanelOp × List (List Byte)) : List Txn :=
  { mode := 0, bytes := [p.opcode f.1] } :: f.2.map fun d => { mode := 1, bytes := d }

/-- The mode of the last of some transactions. -/
def lastMode (ts : List Txn) : Bit := (ts.getLast?.map Txn.mode).getD 0

/-! ## The invariant -/

/-- What every step keeps: each space in canonical form; no operation in progress between steps (R15, R230); and while INIT = 1 a
bus held at the configured index and clock, a legal clock, chip-select and reset released, both planes free of unspecified
fill (R52, R34, R36). -/
structure State.Inv (s : State) : Prop where
  blackWf : s.black.wf Config.planeBytes
  redWf : s.red.wf Config.planeBytes
  hbufWf : s.hbuf.wf s.params.hbufSize
  seqIdle : s.seq = .idle
  atRest : s.underway = none
  csHigh : s.ts.isSome → s.pin.cs = 1
  held : s.initialised → ∃ t, s.ts = some t ∧ t.bush = s.cfg.bus ∧ t.hz = s.cfg.clkHz
  clock : s.initialised → s.cfg.clkHz ≠ 0
  released : s.initialised → s.pin.rst = 1
  fills : s.initialised → s.black.fill = .ones ∧ s.red.fill = .ones

/-- The same state wired 3-wire (R31). -/
def State.rewired (s : State) : State := { s with cfg := { s.cfg with wiring := .threeWire } }

end Sys2Proof.Machine
end

