-- ==== Sys2Proof/Certificates/Slice0/Obligations.lean ====
section
/-! DEFINITION. The statements for the provers, from the numbered rules of spec/. Each docstring names the rules; what rests on a choice
of the model's says so and names the log entry. -/

section

open Sys2Proof Sys2Proof.Machine

/-! ## Encoding (30_encoding.md) -/

/-- Decoding an encoded instruction gives it back, with every operand at every value (R100, R101, R109; the panel word's
layout is the model's, log 2). -/
def Obligations.DecodeOfEncode : Prop :=
  ∀ (p : Params) (i : Instr), p.opcodesDistinct = true → decode p (encode p i) = .ok i

/-- R104: a descriptor is an operation exactly where `W & mask = OP`, with the rule's example. -/
def Obligations.DescriptorDecodesIffMaskGivesOp : Prop :=
  (∀ (w : BitVec 128) (op : Byte), op ∈ opCodes →
    (w &&& decodeMask = op.setWidth 128 ↔ ∃ i, decodeDescriptor w = .ok i ∧ i.opCode = some op)) ∧
  (∀ (w : BitVec 128) (i : Instr), decodeDescriptor w = .ok i → ∃ op ∈ opCodes, i.opCode = some op) ∧
  decodeDescriptor 0x000000000000000000000039000D0292 = .ok (.wrpt .black 13 57 1) ∧
  bytesOfDescriptor 0x000000000000000000000039000D0292
    = [0x92, 0x02, 0x0D, 0x00, 0x39, 0x00, 0x00, 0x00, 0x00, 0x00, 0x00, 0x00, 0x00, 0x00, 0x00, 0x00]

/-- R100, R101, R102: each operation takes the operands R100 lists from the fields R101 gives them, at their full width, and
nothing else of the descriptor; its sixteen bytes, low byte first, are the same descriptor (R84 item 6). -/
def Obligations.OperandsComeFromTheirFields : Prop :=
  ∀ w : BitVec 128,
    let plane : Plane := if w.getLsbD 8 then .red else .black
    let value : Bit := BitVec.ofBool (w.getLsbD 9)
    let field (lo : Nat) : Half := BitVec.ofNat 16 (w.toNat / 2 ^ lo)
    (w &&& decodeMask = 0x81 → decodeDescriptor w = .ok .init) ∧
    (w &&& decodeMask = 0x82 → decodeDescriptor w = .ok .deinit) ∧
    (w &&& decodeMask = 0x83 → decodeDescriptor w = .ok .cfgdef3) ∧
    (w &&& decodeMask = 0x84 → decodeDescriptor w = .ok .cfgdef4) ∧
    (w &&& decodeMask = 0x90 → decodeDescriptor w = .ok (.clear plane)) ∧
    (w &&& decodeMask = 0x91 → decodeDescriptor w = .ok (.wrbuf plane)) ∧
    (w &&& decodeMask = 0x92 → decodeDescriptor w = .ok (.wrpt plane (field 16) (field 32) value)) ∧
    (w &&& decodeMask = 0x93 → decodeDescriptor w = .ok (.rdpt plane (field 16) (field 32))) ∧
    (w &&& decodeMask = 0x94 →
      decodeDescriptor w = .ok (.fillrect plane (field 16) (field 32) (field 48) (field 64) value)) ∧
    (w &&& decodeMask = 0x95 →
      decodeDescriptor w = .ok (.drawpic plane (field 16) (field 32) (field 48) (field 64) (field 96))) ∧
    (w &&& decodeMask = 0x96 →
      decodeDescriptor w = .ok (.drawstr plane (field 16) (field 32) (field 96) (field 80) value (field 48))) ∧
    (w &&& decodeMask = 0xA0 → decodeDescriptor w = .ok (.softstart (field 16) (field 32) (field 48))) ∧
    (w &&& decodeMask = 0xA1 → decodeDescriptor w = .ok (.update (field 16))) ∧
    (w &&& decodeMask = 0xA2 → decodeDescriptor w = .ok (.wrupd (field 16))) ∧
    (bytesOfDescriptor w).length = 16 ∧ decodeBytes (bytesOfDescriptor w) = decodeDescriptor w

/-- Words written out from R101 and R109 decode to the instruction they stand for (VH1 to VH21; the panel word's layout and the
opcode bytes are log 2 and log 7). -/
def Obligations.WrittenOutWordsDecode : Prop :=
  decodeDescriptor 0x00000000000000000000000000000081 = .ok .init ∧
  decodeDescriptor 0x00000000000000000000000000000190 = .ok (.clear .red) ∧
  decodeDescriptor 0x00000000000000000000000000000097 = .error .unknownOp ∧
  decodeDescriptor 0x00000000000000500064001400140294 = .ok (.fillrect .black 20 20 100 80 1) ∧
  decodeDescriptor 0x00000000000100000008000000C40296 = .ok (.drawstr .black 196 0 0 1 1 8) ∧
  decodeDescriptor 0x000000000000000000010002000300A0 = .ok (.softstart 3 2 1) ∧
  decodeDescriptor 0x000000000000000000000000000300A2 = .ok (.wrupd 3) ∧
  decodePanel Config.defaults 0x00C700000044 = .ok (.pXrange 0 199) ∧
  decodePanel Config.defaults 0x000000010022 = .ok (.pUc2 .cleanWave)

/-- R103: a descriptor that names no operation raises InvalidArgument, with no other effect, whatever INIT is. -/
def Obligations.IllegalDescriptorRaisesInvalidArgument : Prop :=
  ∀ (s : State) (w : BitVec 128), s.cmd = some (.descriptor w) → s.seq = .idle → s.underway = none →
    (∀ op ∈ opCodes, w &&& decodeMask ≠ op.setWidth 128) →
    ∃ t, step s = .next t ∧ t.status = .invalidArgument ∧ t.tr = s.tr ∧ t.black = s.black ∧ t.red = s.red ∧
      t.initialised = s.initialised ∧ t.cfg = s.cfg ∧ t.ts = s.ts ∧ t.pin = s.pin ∧ t.seq = s.seq ∧
      t.rdata = s.rdata ∧ t.hbuf = s.hbuf ∧ t.params = s.params ∧ t.cmd = none ∧ t.underway = none

/-! ## Steps, power-on, the invariant -/

/-- A step with a word latched that decodes to `i` is `exec i`; around it the latch is taken, and where a host operation begins the
shared bus is drawn anew (R43, R15, R49; latch and redraw are the model's, log 3 and log 6; so is a panel word as an instruction of
its own, log 1 and log 2). An operation under way runs from its
line on to its end (R15; the state inside an operation is the model's, log 31). -/
def Obligations.StepRunsTheDecodedInstruction : Prop :=
  (∀ (s : State) (w : BitVec 128) (i : Instr), s.cmd = some (.descriptor w) → s.seq = .idle → s.underway = none →
    decodeDescriptor w = .ok i →
    step s = exec i { s with cmd := none, bus := s.busFeed.nth freeBus 0, busFeed := s.busFeed.popMany 1 }) ∧
  (∀ (s : State) (w : BitVec 48) (i : Instr), s.cmd = some (.panel w) → decodePanel s.params w = .ok i →
    step s = exec i { s with cmd := none }) ∧
  (∀ (s : State) (u : Underway), s.cmd = none → s.underway = some u →
    step s = .next { s.perform u.op u.done with underway := none })

/-- R16, R356: an operation issued while another is executing is refused; how the model tells that one is, and that it refuses, is
log 16. -/
def Obligations.ConcurrentOperationIsRefused : Prop :=
  ∀ (s : State) (w : BitVec 128), s.cmd = some (.descriptor w) → s.seq ≠ .idle ∨ s.underway ≠ none →
    step s = .refused .concurrentOperation

/-- R340: the power-on state. The planes are unspecified (no byte listed over a free fill, log 12); what CFG, RDATA and the pins hold is
the model's choice (log 10, log 11) and not stated here. -/
def Obligations.ResetIsThePowerOnState : Prop :=
  State.reset.initialised = false ∧ State.reset.seq = .idle ∧ State.reset.status = .ok ∧ State.reset.ts = none ∧
  State.reset.tr = [] ∧ State.reset.cmd = none ∧ State.reset.underway = none ∧
  (∃ n, State.reset.black = Mem.unspecified n) ∧ (∃ n, State.reset.red = Mem.unspecified n)

/-- The power-on state meets the invariant (R52, R36; its canonical forms and `underway` are the model's, log 12 and log 31). -/
def Obligations.ResetMeetsTheInvariant : Prop := State.reset.Inv

/-- Every step keeps the invariant: canonical planes and HBUF, SEQ = Idle and no operation under way between steps (R230, R41, R15),
and while INIT = 1 a bus held at the configured index and clock (R34), a clock that is not 0 (R31), chip-select and reset released
(R52), and no unspecified byte in a plane (R36, R52). The canonical forms, the move of a power cycle and the state inside an operation
are the model's (log 12, log 22, log 31). -/
def Obligations.EveryStepKeepsTheInvariant : Prop :=
  ∀ s t : State, s.Inv → step s = .next t → t.Inv

/-- R15: every host operation runs to its end: whatever the state and the draws, a well-formed instruction answers a next state,
and SEQ is Idle again. An operation that sends does the lines of its pseudocode in their order, from the first to the last (R45; the
lines as a list, `Sending.tasks`, are the model's view, log 31). -/
def Obligations.WellFormedInstructionsAlwaysAnswer : Prop :=
  (∀ (i : Instr) (s : State), i.wellFormed s.params = true → s.seq = .idle →
    ∃ t, exec i s = .next t ∧ t.seq = .idle ∧ t.params = s.params ∧ t.hbuf = s.hbuf) ∧
  (∀ (op : Sending) (s : State), s.seq = .idle → exec op.instr s = .next (s.perform op 0))

/-- R50: the trace is append-only: no instruction takes an event away, in particular not INIT or DEINIT; only loss of power empties
it (R341; the power-cycle move is the model's, log 22). -/
def Obligations.TraceIsAppendOnly : Prop :=
  (∀ (i : Instr) (s t : State), exec i s = .next t → s.tr <+: t.tr) ∧
  (∀ s t : State, step s = .next t →
    (s.cmd = none → s.underway = none → s.hostMoves.head? ≠ some .powerCycle) → s.tr <+: t.tr)

/-! ## Lifecycle (46_lifecycle.md, 60_exceptions.md) -/

/-- R301: who raises NotInitialized, and its effect. -/
def Obligations.NotInitializedIsRaisedBeforeInit : Prop :=
  (∀ (i : Instr) (s : State), i.needsInit = true → s.initialised = false → s.seq = .idle →
    exec i s = .next { s with status := .notInitialized }) ∧
  (∀ (i : Instr) (s t : State), i = .init ∨ i = .deinit ∨ i = .cfgdef3 ∨ i = .cfgdef4 → exec i s = .next t →
    t.status ≠ .notInitialized) ∧
  State.reset.initialised = false ∧
  (∀ s t : State, exec .init s = .next t → s.initialised = false → t.status ≠ .ok → t.initialised = false) ∧
  (∀ s t : State, exec .deinit s = .next t → t.initialised = false)

/-- R302: INIT, CFGDEF3 and CFGDEF4 on an initialised block. -/
def Obligations.AlreadyInitializedLeavesTheInstance : Prop :=
  ∀ (i : Instr) (s : State), i = .init ∨ i = .cfgdef3 ∨ i = .cfgdef4 → s.initialised = true → s.seq = .idle →
    exec i s = .next { s with status := .alreadyInitialized }

/-- R280: a successful INIT: everything it writes, and the trace it leaves (R152, R170, R172). The new TS.MODE is 1 in 3-wire
and unspecified in 4-wire (R52; a free value, log 14). -/
def Obligations.InitBringsThePanelUp : Prop :=
  ∀ s : State, s.initialised = false → s.cfg.clkHz ≠ 0 → s.rateFeed.nth Config.freeRate 0 ≠ 0 →
    s.writesAll (List.replicate 19 1) →
    ∃ t m, exec .init s = .next t ∧
      t = { s with
        initialised := true
        status := .ok
        seq := .idle
        ts := some { mode := m, bush := s.cfg.bus, hz := s.cfg.clkHz }
        bus := { width := if s.cfg.wiring = .fourWire then .bits8 else .bits9, hz := s.cfg.clkHz }
        pin := { cs := 1, rst := 1, dc := if s.cfg.wiring = .fourWire then 1 else s.pin.dc }
        black := t.black
        red := t.red
        tr := t.tr
        rateFeed := s.rateFeed.popMany 1
        countFeed := s.countFeed.popMany 19
        busyFeed := s.busyFeed.popMany (s.afterWait (s.afterWait 0))
        nextFree := t.nextFree } ∧
      (s.cfg.wiring = .threeWire → m = 1) ∧
      (∀ a, t.black.read a = 0xFF ∧ t.red.read a = 0xFF) ∧
      s.shows t ([.busInit s.cfg.bus s.cfg.clkHz (s.rateFeed.nth Config.freeRate 0), .csHigh]
        ++ rstObs ++ s.waitObs 0 ++ [cmdObs s.params .swreset, .delay .swrst]
        ++ s.waitObs (s.afterWait 0) ++ initSeqObs s.params)

/-- R303 (INIT row), R304 (b), R282: a clock of 0 is InvalidArgument; an achieved rate of 0 is TransportError with no TS and no pin
driven (that an earlier failed INIT's TS is gone then is the model's reading, log 15); a short write leaves INIT at 0, the bus
open and the events so far. That the planes are unchanged after either TransportError is the model's reading, log 25, from R312; R282
calls them unspecified after a failed INIT. -/
def Obligations.FailedInitLeavesTheBlockUninitialised : Prop :=
  (∀ s : State, s.initialised = false → s.seq = .idle → s.cfg.clkHz = 0 →
    exec .init s = .next { s with status := .invalidArgument }) ∧
  (∀ s : State, s.initialised = false → s.seq = .idle → s.cfg.clkHz ≠ 0 → s.rateFeed.nth Config.freeRate 0 = 0 →
    exec .init s = .next { s with
      status := .transportError
      ts := none
      tr := s.tr ++ [.busInit s.cfg.bus s.cfg.clkHz 0]
      rateFeed := s.rateFeed.popMany 1 }) ∧
  (∀ s : State, s.initialised = false → s.cfg.clkHz ≠ 0 → s.rateFeed.nth Config.freeRate 0 ≠ 0 →
    ¬ s.writesAll (List.replicate 19 1) →
    ∃ t es u, exec .init s = .next t ∧
      t = { s with
        status := .transportError
        seq := .idle
        ts := some u
        tr := s.tr ++ es
        bus := t.bus
        pin := t.pin
        rateFeed := t.rateFeed
        countFeed := t.countFeed
        busyFeed := t.busyFeed
        nextFree := t.nextFree } ∧
      u.bush = s.cfg.bus ∧ u.hz = s.cfg.clkHz ∧ t.pin.cs = 1 ∧ t.pin.rst = 1 ∧
      es.head? = some (.busInit s.cfg.bus s.cfg.clkHz (s.rateFeed.nth Config.freeRate 0)) ∧
      ∀ b, Event.busDeinit b ∉ es)

/-- R173: no master activation and no RAM write between the start of an INIT and its end, successful or not. -/
def Obligations.InitActivatesNothing : Prop :=
  ∀ (s t : State) (os : List Obs), s.params.opcodesDistinct = true → exec .init s = .next t → s.shows t os →
    cmdObs s.params .act ∉ os ∧ cmdObs s.params .wrbw ∉ os ∧ cmdObs s.params .wrred ∉ os

/-- R284: DEINIT, with and without the optional sleep command; its failure is ignored. The planes and pins become unspecified
(free values, log 13). That `bus` is as the operation left it goes beyond R52, which calls BUS unknown then: the model draws it anew
when the next operation begins (log 6). -/
def Obligations.DeinitReleasesTheBus : Prop :=
  (∀ s : State, s.initialised = false → exec .deinit s = .next { s with status := .ok }) ∧
  (∀ s : State, s.initialised = true → s.params.deinitSleep = none →
    ∃ t, exec .deinit s = .next t ∧
      t = { s with
        initialised := false, seq := .idle, status := .ok, ts := none, tr := s.tr ++ [.busDeinit s.heldBus],
        pin := t.pin, black := t.black, red := t.red, nextFree := t.nextFree } ∧
      (∃ n, t.black = Mem.unspecified n) ∧ (∃ n, t.red = Mem.unspecified n)) ∧
  (∀ (s : State) (b : Byte), s.initialised = true → s.params.deinitSleep = some b →
    ∃ t, exec .deinit s = .next t ∧
      t = { s with
        initialised := false, seq := .idle, status := .ok, ts := none, tr := t.tr, bus := t.bus,
        countFeed := t.countFeed, pin := t.pin, black := t.black, red := t.red, nextFree := t.nextFree } ∧
      (∃ n, t.black = Mem.unspecified n) ∧ (∃ n, t.red = Mem.unspecified n) ∧ s.tr <+: t.tr ∧
      t.tr.getLast? = some (.busDeinit s.heldBus) ∧
      (s.writesAll [1, 1] → s.shows t [cmdObs s.params .sleep, dataObs b, .busDeinit s.heldBus]))

/-- R286, R287: the two presets load CFG while INIT = 0, and are turned away while INIT = 1. -/
def Obligations.CfgdefLoadsItsPreset : Prop :=
  (∀ s : State, s.initialised = false →
    exec .cfgdef3 s = .next { s with
      status := .ok
      cfg := { wiring := .threeWire, clkHz := 4000000, bus := s.params.preset3.bus, pinSdo := s.params.preset3.pinSdo,
               pinSck := s.params.preset3.pinSck, pinCs := s.params.preset3.pinCs, pinDc := s.params.preset3.pinDc,
               pinRst := s.params.preset3.pinRst, pinBusy := s.params.preset3.pinBusy } }) ∧
  (∀ s : State, s.initialised = true → s.seq = .idle →
    exec .cfgdef3 s = .next { s with status := .alreadyInitialized }) ∧
  (∀ s : State, s.initialised = false →
    exec .cfgdef4 s = .next { s with
      status := .ok
      cfg := { wiring := .fourWire, clkHz := 4000000, bus := s.params.preset4.bus, pinSdo := s.params.preset4.pinSdo,
               pinSck := s.params.preset4.pinSck, pinCs := s.params.preset4.pinCs, pinDc := s.params.preset4.pinDc,
               pinRst := s.params.preset4.pinRst, pinBusy := s.params.preset4.pinBusy } }) ∧
  (∀ s : State, s.initialised = true → s.seq = .idle →
    exec .cfgdef4 s = .next { s with status := .alreadyInitialized })

/-- R320: the mode changes by a successful INIT and by DEINIT only; no error changes it. -/
def Obligations.ModeChangesByInitAndDeinitOnly : Prop :=
  (∀ (i : Instr) (s t : State), exec i s = .next t → t.initialised ≠ s.initialised →
    (i = .init ∧ s.initialised = false ∧ t.status = .ok) ∨ (i = .deinit ∧ s.initialised = true)) ∧
  (∀ s t : State, exec .init s = .next t → s.initialised = false → t.status = .ok → t.initialised = true)

/-- R32, R360: CFG is frozen while INIT = 1: no instruction changes it, and a write of a CFG register is ignored. That a write of
STATUS, RDATA or STATE, which R47 calls read-only, changes nothing is the model's DESIGN CHOICE, log 18; the host's moves as a list
are log 4. -/
def Obligations.CfgIsFrozenWhileInitialised : Prop :=
  (∀ (i : Instr) (s t : State), s.initialised = true → exec i s = .next t → t.cfg = s.cfg) ∧
  (∀ (s : State) (r : HostReg) (v : Quad) (ms : List HostMove), s.initialised = true → s.cmd = none →
    s.underway = none → s.hostMoves = .writeReg r v :: ms → step s = .next { s with hostMoves := ms })

/-! ## Framebuffer (43_framebuffer.md, 20_memory.md) -/

/-- R81: the write transform's addresses and its bijection onto the 40 000 bits of a plane. -/
def Obligations.WriteTransformIsABijection : Prop :=
  (∀ x y, x < 200 → y < 200 → wbyte x y = (199 - y) * 25 + x / 8 ∧ wbyte x y < 5000 ∧ wbit x = 7 - x % 8) ∧
  (∀ a b, a < 5000 → b < 8 → ∃ x y, x < 200 ∧ y < 200 ∧ wbyte x y = a ∧ wbit x = b ∧
    ∀ x' y', x' < 200 → y' < 200 → wbyte x' y' = a → wbit x' = b → x' = x ∧ y' = y) ∧
  (∀ (m : Mem) (x y : Nat), m.wf 5000 → x < 200 → y < 200 →
    ((m.writePixel x y 1).read (wbyte x y)).getLsbD (wbit x) = false ∧
    ((m.writePixel x y 0).read (wbyte x y)).getLsbD (wbit x) = true)

/-- R210: WRPT, its rejections, and everything it leaves: the other bits of the byte, every other byte, the other plane. -/
def Obligations.WrptWritesOneBit : Prop :=
  (∀ (s : State) (p : Plane) (x y : Half) (v : Bit), s.initialised = true → (s.plane p).wf 5000 →
    x.toNat < 200 → y.toNat < 200 →
    ∃ t, exec (.wrpt p x y v) s = .next t ∧
      t = { s with black := t.black, red := t.red, status := .ok } ∧
      (∀ q, q ≠ p → t.plane q = s.plane q) ∧ (t.plane p).wf 5000 ∧
      (∀ a b, b < 8 → ((t.plane p).read a).getLsbD b =
        if a = (199 - y.toNat) * 25 + x.toNat / 8 ∧ b = 7 - x.toNat % 8 then decide (v = 0)
        else ((s.plane p).read a).getLsbD b)) ∧
  (∀ (s : State) (p : Plane) (x y : Half) (v : Bit), s.seq = .idle → s.initialised = true →
    (200 ≤ x.toNat ∨ 200 ≤ y.toNat) → exec (.wrpt p x y v) s = .next { s with status := .invalidArgument }) ∧
  (∀ (s : State) (p : Plane) (x y : Half) (v : Bit), s.seq = .idle → s.initialised = false →
    exec (.wrpt p x y v) s = .next { s with status := .notInitialized })

/-- R212: RDPT, its rejections; the row is not inverted, a clear bit reads 1. -/
def Obligations.RdptReadsTheUninvertedRow : Prop :=
  (∀ (s : State) (p : Plane) (x y : Half), s.initialised = true → x.toNat < 200 → y.toNat < 200 →
    exec (.rdpt p x y) s = .next { s with
      status := .ok
      rdata := if ((s.plane p).read (y.toNat * 25 + x.toNat / 8)).getLsbD (7 - x.toNat % 8) then 0 else 1 }) ∧
  (∀ (s : State) (p : Plane) (x y : Half), s.seq = .idle → s.initialised = true →
    (200 ≤ x.toNat ∨ 200 ≤ y.toNat) → exec (.rdpt p x y) s = .next { s with status := .invalidArgument }) ∧
  (∀ (s : State) (p : Plane) (x y : Half), s.seq = .idle → s.initialised = false →
    exec (.rdpt p x y) s = .next { s with status := .notInitialized })

/-- R214: CLEAR fills its plane with 0xFF, leaves the other, sends nothing. -/
def Obligations.ClearFillsThePlane : Prop :=
  (∀ (s : State) (p : Plane), s.initialised = true →
    ∃ t, exec (.clear p) s = .next t ∧
      t = { s with black := t.black, red := t.red, status := .ok } ∧
      (∀ q, q ≠ p → t.plane q = s.plane q) ∧ (∀ a, (t.plane p).read a = 0xFF) ∧ (t.plane p).wf 5000) ∧
  (∀ (s : State) (p : Plane), s.seq = .idle → s.initialised = false →
    exec (.clear p) s = .next { s with status := .notInitialized })

/-- R216 (a) to (d): a WRPT twice is once; WRPTs to different pixels or planes commute; read-back through the mirrored row
returns the value; read-back at the same coordinates is not affected by the write. -/
def Obligations.PixelWriteAndReadLaws : Prop :=
  ∀ (s : State) (p : Plane) (x y : Half) (v : Bit), s.Inv → s.initialised = true → x.toNat < 200 → y.toNat < 200 →
    ∃ t, exec (.wrpt p x y v) s = .next t ∧ exec (.wrpt p x y v) t = .next t ∧
      (∀ (q : Plane) (x' y' : Half) (v' : Bit), x'.toNat < 200 → y'.toNat < 200 → (q, x', y') ≠ (p, x, y) →
        ∃ u r, exec (.wrpt q x' y' v') t = .next u ∧ exec (.wrpt q x' y' v') s = .next r ∧
          exec (.wrpt p x y v) r = .next u) ∧
      (∃ u, exec (.rdpt p x (199 - y)) t = .next u ∧ u.rdata = v) ∧
      (∃ u r, exec (.rdpt p x y) t = .next u ∧ exec (.rdpt p x y) s = .next r ∧ u.rdata = r.rdata ∧
        r.rdata = (s.plane p).pixel x.toNat (199 - y.toNat))

/-- R216 (e): after `CLEAR p`, every RDPT on `p` returns 0 until the next write to `p`, whatever runs in between. -/
def Obligations.ClearedPlaneReadsOffUntilWritten : Prop :=
  ∀ (s t u : State) (p : Plane) (is : List Instr) (x y : Half), s.initialised = true → exec (.clear p) s = .next t →
    (∀ i ∈ is, i.writesPlane p = false) → execAll is t = some u → x.toNat < 200 → y.toNat < 200 →
    exec (.rdpt p x y) u = .next { u with status := .ok, rdata := 0 }

/-- R36, R40: the planes are written by WRPT, FILLRECT, DRAWPIC, DRAWSTR and CLEAR (and set up by INIT, given up by DEINIT) only: no
push, update or transport operation writes a plane; while INIT = 0 no instruction reaches them: other contents give the same run, and
a successful INIT leaves none of them; RDATA is written by a successful RDPT only. That a failed INIT keeps a plane's content is the
model's reading, log 25, from R312: R282 calls the planes unspecified then. That a panel command is an instruction at all is log 1. -/
def Obligations.PlanesAndRdataHaveTheirWriters : Prop :=
  (∀ (i : Instr) (s t : State) (q : Plane), i.writesPlane q = false → exec i s = .next t → t.plane q = s.plane q) ∧
  (∀ (i : Instr) (s t : State) (q : Plane) (m : Mem), s.initialised = false → exec i s = .next t →
    exec i (s.setPlane q m) = .next (if t.initialised then t else t.setPlane q m)) ∧
  (∀ (i : Instr) (s t : State), exec i s = .next t → t.rdata ≠ s.rdata →
    t.status = .ok ∧ ∃ p x y, i = .rdpt p x y ∧ t.rdata = (s.plane p).readPixel x.toNat y.toNat)

/-- R71: an operation whose plane operand is `p` neither reads nor writes the other plane: replacing that plane by any content
changes nothing but that content. -/
def Obligations.PlaneOperandIsolatesTheOtherPlane : Prop :=
  ∀ (i : Instr) (s t : State) (p q : Plane) (m : Mem), i.planeOperand = some p → q ≠ p → exec i s = .next t →
    exec i (s.setPlane q m) = .next (t.setPlane q m)

/-! ## Drawing (45_drawing.md) -/

/-- R260: FILLRECT sets the inclusive rectangle and nothing else; its rejections. -/
def Obligations.FillrectSetsTheRectangle : Prop :=
  (∀ (s : State) (p : Plane) (l t r b : Half) (v : Bit), s.initialised = true → (s.plane p).wf 5000 →
    l.toNat ≤ r.toNat → t.toNat ≤ b.toNat → r.toNat < 200 → b.toNat < 200 →
    ∃ u, exec (.fillrect p l t r b v) s = .next u ∧
      u = { s with black := u.black, red := u.red, status := .ok } ∧
      (∀ q, q ≠ p → u.plane q = s.plane q) ∧ (u.plane p).wf 5000 ∧
      (∀ x y, x < 200 → y < 200 → (u.plane p).pixel x y =
        if l.toNat ≤ x ∧ x ≤ r.toNat ∧ t.toNat ≤ y ∧ y ≤ b.toNat then v else (s.plane p).pixel x y) ∧
      (∀ a, (∀ x y, l.toNat ≤ x → x ≤ r.toNat → t.toNat ≤ y → y ≤ b.toNat → a ≠ (199 - y) * 25 + x / 8) →
        (u.plane p).read a = (s.plane p).read a)) ∧
  (∀ (s : State) (p : Plane) (l t r b : Half) (v : Bit), s.seq = .idle → s.initialised = true →
    (r.toNat < l.toNat ∨ b.toNat < t.toNat ∨ 200 ≤ r.toNat ∨ 200 ≤ b.toNat) →
    exec (.fillrect p l t r b v) s = .next { s with status := .invalidArgument }) ∧
  (∀ (s : State) (p : Plane) (l t r b : Half) (v : Bit), s.seq = .idle → s.initialised = false →
    exec (.fillrect p l t r b v) s = .next { s with status := .notInitialized })

/-- R261: FILLRECT is idempotent; two on different planes commute; of two on one plane the later wins where they overlap. -/
def Obligations.FillrectIdempotentAndCommuting : Prop :=
  ∀ (s : State) (p : Plane) (l t r b : Half) (v : Bit), s.Inv → s.initialised = true →
    l.toNat ≤ r.toNat → t.toNat ≤ b.toNat → r.toNat < 200 → b.toNat < 200 →
    ∃ u, exec (.fillrect p l t r b v) s = .next u ∧ exec (.fillrect p l t r b v) u = .next u ∧
      ∀ (q : Plane) (l' t' r' b' : Half) (v' : Bit), l'.toNat ≤ r'.toNat → t'.toNat ≤ b'.toNat → r'.toNat < 200 →
        b'.toNat < 200 →
        ∃ w c d, exec (.fillrect q l' t' r' b' v') u = .next w ∧ exec (.fillrect q l' t' r' b' v') s = .next c ∧
          exec (.fillrect p l t r b v) c = .next d ∧ (q ≠ p → w = d) ∧
          (q = p → ∀ x y, l.toNat ≤ x → x ≤ r.toNat → t.toNat ≤ y → y ≤ b.toNat → l'.toNat ≤ x → x ≤ r'.toNat →
            t'.toNat ≤ y → y ≤ b'.toNat → (w.plane p).pixel x y = v' ∧ (d.plane p).pixel x y = v)

/-- R264: DRAWPIC copies the bitmap's bits, 1 = on, rows of `(w + 7) / 8` bytes, the first pixel in bit 7; nothing else changes; its
rejections. -/
def Obligations.DrawpicCopiesTheBitmap : Prop :=
  (∀ (s : State) (p : Plane) (l t r b ptr : Half), s.initialised = true → (s.plane p).wf 5000 → ptr ≠ 0xFFFF →
    l.toNat ≤ r.toNat → t.toNat ≤ b.toNat → r.toNat < 200 → b.toNat < 200 →
    ptr.toNat + (r.toNat - l.toNat + 1 + 7) / 8 * (b.toNat - t.toNat + 1) ≤ s.params.hbufSize →
    ∃ u, exec (.drawpic p l t r b ptr) s = .next u ∧
      u = { s with black := u.black, red := u.red, status := .ok } ∧
      (∀ q, q ≠ p → u.plane q = s.plane q) ∧ (u.plane p).wf 5000 ∧
      (∀ x y, x < 200 → y < 200 → (u.plane p).pixel x y =
        if l.toNat ≤ x ∧ x ≤ r.toNat ∧ t.toNat ≤ y ∧ y ≤ b.toNat then
          BitVec.ofBool ((s.hbuf.read (ptr.toNat + (y - t.toNat) * ((r.toNat - l.toNat + 1 + 7) / 8)
            + (x - l.toNat) / 8)).getLsbD (7 - (x - l.toNat) % 8))
        else (s.plane p).pixel x y) ∧
      (∀ a, (∀ x y, l.toNat ≤ x → x ≤ r.toNat → t.toNat ≤ y → y ≤ b.toNat → a ≠ (199 - y) * 25 + x / 8) →
        (u.plane p).read a = (s.plane p).read a)) ∧
  (∀ (s : State) (p : Plane) (l t r b ptr : Half), s.seq = .idle → s.initialised = true →
    (ptr = 0xFFFF ∨ r.toNat < l.toNat ∨ b.toNat < t.toNat ∨ 200 ≤ r.toNat ∨ 200 ≤ b.toNat) →
    exec (.drawpic p l t r b ptr) s = .next { s with status := .invalidArgument }) ∧
  (∀ (s : State) (p : Plane) (l t r b ptr : Half), s.seq = .idle → s.initialised = false →
    exec (.drawpic p l t r b ptr) s = .next { s with status := .notInitialized })

/-- R268: DRAWSTR draws each character's scaled glyph where the layout puts it, and nothing else; its rejections. The text may
run past HBUF_SIZE where it stops silently before a character there is read (R76, log 17). What FONT holds is a parameter; nothing
of it is assumed. -/
def Obligations.DrawstrDrawsTheGlyphs : Prop :=
  (∀ (s : State) (p : Plane) (x y ptr len : Half) (v : Bit) (fs : Half), s.initialised = true → (s.plane p).wf 5000 →
    ptr ≠ 0xFFFF → fs ≠ 0 → x.toNat < 200 → y.toNat < 200 →
    let chars := (List.range len.toNat).map fun k => (s.hbuf.read (ptr.toNat + k)).toNat
    (∀ k, k < len.toNat → s.params.hbufSize ≤ ptr.toNat + k → textStops fs.toNat (chars.take k) x.toNat y.toNat = true) →
    let places := glyphPlaces fs.toNat chars x.toNat y.toNat
    ∃ u, exec (.drawstr p x y ptr len v fs) s = .next u ∧
      u = { s with black := u.black, red := u.red, status := .ok } ∧
      (∀ q, q ≠ p → u.plane q = s.plane q) ∧ (u.plane p).wf 5000 ∧
      (∀ px py, px < 200 → py < 200 →
        (u.plane p).pixel px py = textPixel s.params fs.toNat places v ((s.plane p).pixel px py) px py) ∧
      (∀ a, (∀ px py, places.any (inCell fs.toNat px py) = true → a ≠ (199 - py) * 25 + px / 8) →
        (u.plane p).read a = (s.plane p).read a)) ∧
  (∀ (s : State) (p : Plane) (x y ptr len : Half) (v : Bit) (fs : Half), s.seq = .idle → s.initialised = true →
    (ptr = 0xFFFF ∨ fs = 0 ∨ 200 ≤ x.toNat ∨ 200 ≤ y.toNat) →
    exec (.drawstr p x y ptr len v fs) s = .next { s with status := .invalidArgument }) ∧
  (∀ (s : State) (p : Plane) (x y ptr len : Half) (v : Bit) (fs : Half), s.seq = .idle → s.initialised = false →
    exec (.drawstr p x y ptr len v fs) s = .next { s with status := .notInitialized })

/-- R76, U3: reading HBUF at or beyond HBUF_SIZE has no defined result: DRAWPIC whose bitmap ends beyond it, and DRAWSTR of which
some character at or beyond it is reached before the silent stop, refuse by name (log 17). -/
def Obligations.HbufOverrunIsRefused : Prop :=
  (∀ (s : State) (p : Plane) (l t r b ptr : Half), s.initialised = true → ptr ≠ 0xFFFF → l.toNat ≤ r.toNat →
    t.toNat ≤ b.toNat → r.toNat < 200 → b.toNat < 200 →
    s.params.hbufSize < ptr.toNat + (r.toNat - l.toNat + 1 + 7) / 8 * (b.toNat - t.toNat + 1) →
    exec (.drawpic p l t r b ptr) s = .refused .hbufOverrun) ∧
  (∀ (s : State) (p : Plane) (x y ptr len : Half) (v : Bit) (fs : Half), s.initialised = true → ptr ≠ 0xFFFF → fs ≠ 0 →
    x.toNat < 200 → y.toNat < 200 →
    let chars := (List.range len.toNat).map fun k => (s.hbuf.read (ptr.toNat + k)).toNat
    (∃ k, k < len.toNat ∧ s.params.hbufSize ≤ ptr.toNat + k ∧ textStops fs.toNat (chars.take k) x.toNat y.toNat = false) →
    exec (.drawstr p x y ptr len v fs) s = .refused .hbufOverrun)

/-- R351, R304: drawing is local: the six framebuffer and drawing operations and the two presets add no event, touch no pin, bus or
transport state, and never raise TransportError. -/
def Obligations.DrawingIsLocal : Prop :=
  ∀ (i : Instr) (s t : State), i.isHostOp = true → i.commands = [] → exec i s = .next t →
    t.tr = s.tr ∧ t.pin = s.pin ∧ t.ts = s.ts ∧ t.bus = s.bus ∧ t.countFeed = s.countFeed ∧ t.busyFeed = s.busyFeed ∧
    t.status ≠ .transportError

/-! ## Transport (40_transport.md) -/

/-- R141, R143, R145: one 4-wire transaction, pin by pin, on a bus left as any other user left it. -/
def Obligations.FourWireTransaction : Prop :=
  ∀ (s : State) (t : Txn), s.cfg.wiring = .fourWire →
    let n := s.writeCount t.bytes.length
    let u := { s with
      tr := s.tr ++ ((if s.bus.width = .bits8 ∧ s.bus.hz = s.cfg.clkHz then [] else [.busCfg .bits8 s.cfg.clkHz])
        ++ [.pinSet .dc t.mode, .pinSet .cs 0] ++ (t.bytes.take n).map (fun b => Event.frame (.f8 b)) ++ [.pinSet .cs 1])
      bus := { width := .bits8, hz := s.cfg.clkHz }
      ts := s.ts.map fun x =>
        { x with hz := if s.bus.width = .bits8 ∧ s.bus.hz = s.cfg.clkHz then x.hz else s.cfg.clkHz }
      pin := { s.pin with cs := 1, dc := t.mode }
      countFeed := s.countFeed.popMany 1 }
    (n = t.bytes.length → tWrBytes t s = .done u) ∧ (n ≠ t.bytes.length → tWrBytes t s = .raised .transportError u)

/-- R141, R144, R145: one 3-wire transaction, pin by pin: the mode is bit 8 of every frame, TS.MODE takes it, DC is not driven. -/
def Obligations.ThreeWireTransaction : Prop :=
  ∀ (s : State) (t : Txn), s.cfg.wiring = .threeWire →
    let n := s.writeCount t.bytes.length
    let u := { s with
      tr := s.tr ++ ((if s.bus.width = .bits9 ∧ s.bus.hz = s.cfg.clkHz then [] else [.busCfg .bits9 s.cfg.clkHz])
        ++ [.pinSet .cs 0]
        ++ (t.bytes.take n).map (fun b => Event.frame (.f9 (BitVec.ofNat 9 (t.mode.toNat * 256 + b.toNat))))
        ++ [.pinSet .cs 1])
      bus := { width := .bits9, hz := s.cfg.clkHz }
      ts := s.ts.map fun x =>
        { x with mode := t.mode, hz := if s.bus.width = .bits9 ∧ s.bus.hz = s.cfg.clkHz then x.hz else s.cfg.clkHz }
      pin := { s.pin with cs := 1 }
      countFeed := s.countFeed.popMany 1 }
    (n = t.bytes.length → tWrBytes t s = .done u) ∧ (n ≠ t.bytes.length → tWrBytes t s = .raised .transportError u)

/-- R146: the first short write ends a sequence: what went before is whole, the cut transaction shows the bytes that went out,
nothing follows, the bus is idle. -/
def Obligations.ShortWriteEndsTheSequence : Prop :=
  ∀ (s : State) (pre post : List Txn) (t : Txn), s.completes pre →
    s.countFeed.nth Config.freeCount pre.length < t.bytes.length →
    ∃ u, sendAll (pre ++ t :: post) s = .raised .transportError u ∧
      u = { s.wireEffect (pre.length + 1) t.mode with tr := u.tr } ∧ u.pin.cs = 1 ∧
      s.shows u (pre.map Txn.whole ++ [t.shown (s.countFeed.nth Config.freeCount pre.length)])

/-- R147, R148: transport reads: NotSupported in 3-wire with no other effect; no meaning in 4-wire. No operation makes one; as a
micro-operation of its own it is the model's (log 19). -/
def Obligations.TransportReadsAreNotSupported : Prop :=
  ∀ (s : State) (n : Nat), s.seq = .idle →
    (s.cfg.wiring = .threeWire → tRdBytes n s = .next { s with status := .notSupported }) ∧
    (s.cfg.wiring = .fourWire → tRdBytes n s = .refused .fourWireRead)

/-- R107, R151 (a): along every instruction's events chip-select falls and rises in turn, and every frame lies between. -/
def Obligations.ChipSelectFramesEveryTransaction : Prop :=
  ∀ (i : Instr) (s t : State), (s.initialised = true → s.ts.isSome = true) → exec i s = .next t →
    ∃ es, t.tr = s.tr ++ es ∧ csScan s.csLevel es = some t.csLevel

/-- R105, R106, R32: frames have the width the wiring fixes, and DC is never driven in 3-wire. -/
def Obligations.EventsFitTheWiring : Prop :=
  ∀ (i : Instr) (s t : State), exec i s = .next t →
    ∃ es, t.tr = s.tr ++ es ∧ ∀ e ∈ es, eventFits s.cfg.wiring e = true

/-- R150: the transaction view of an operation is the same in both wirings, given the same calls and draws (a transaction without a
frame shows as the model chose, log 29). That STATUS, INIT, both planes and RDATA agree too goes beyond R150: it follows from the
operations' pseudocode, which branches on the wiring in the transport only. -/
def Obligations.BothWiringsShowTheSameTransactions : Prop :=
  ∀ (i : Instr) (s t : State), s.cfg.wiring = .fourWire → exec i s = .next t →
    ∃ t' es es', exec i s.rewired = .next t' ∧ t.tr = s.tr ++ es ∧ t'.tr = s.tr ++ es' ∧ view es = view es' ∧
      t'.status = t.status ∧ t'.initialised = t.initialised ∧ t'.black = t.black ∧ t'.red = t.red ∧ t'.rdata = t.rdata

/-- Clause 1 (derived from the operations' pseudocode, as R111 is): no command frame but those of the instruction's own panel
commands, each alone in its transaction. Clause 2 is the model's DESIGN CHOICE of log 31, not a rule of the spec: from a state of the
invariant, where no operation is under way, a step on a latched panel word leaves STATUS = InvalidArgument and nothing else. Clauses 3
and 4 speak of the model's own `State.place` and `Sending.tasks` (panel commands as steps, log 1; the lines of an operation as a
list, log 31). Clause 3, for every panel command: it has a place only inside an operation that passed its lifecycle checks, where the
next line is this command. Clause 4 spells the lines out for five of the sixteen: P.SWRESET stands between the hardware pulse's wait
and the second stage's delay and wait, P.ACT behind P.UC1 and P.UC2 with SEQ = Activating, P.WRRED in WRBUF red, P.SLEEP in DEINIT,
P.SOFTST in SOFTSTART; the other eleven have clause 3 alone. -/
def Obligations.CommandFramesStandInTheirPlaces : Prop :=
  (∀ (i : Instr) (s t : State) (os : List Obs) (fs : List (Bit × Byte)), exec i s = .next t → s.shows t os →
    Obs.txn fs ∈ os → ∀ f ∈ fs, f.1 = 0 → fs = [f] ∧ ∃ k ∈ i.commands, f.2 = s.params.opcode k) ∧
  (∀ (s t : State) (w : BitVec 48), s.Inv → s.cmd = some (.panel w) → step s = .next t →
    t = { s with cmd := none, status := .invalidArgument }) ∧
  (∀ (i : Instr) (s : State) (u : Underway), s.place i = some u →
    s.underway = some u ∧ s.ts.isSome = true ∧ (s.initialised = true ↔ u.op ≠ .init) ∧
      ∃ ts, u.op.tasks s.params = .ok ts ∧ ts[u.done]? = some (.issue i)) ∧
  (∀ (p : Params) (op : Sending) (ts : List Task) (k : Nat), op.tasks p = .ok ts →
    (ts[k]? = some (.issue .pSwreset) → op = .init ∧
      ts.take (k + 3) = [.openBus, .driveRst 1, .sleep .rst, .driveRst 0, .sleep .rst, .driveRst 1, .sleep .rst,
        .awaitReady, .issue .pSwreset, .sleep .swrst, .awaitReady]) ∧
    (ts[k]? = some (.issue .pAct) → ((∃ y, op = .update y) ∨ ∃ y, op = .wrupd y) ∧
      ∃ w, 4 ≤ k ∧ (ts.drop (k - 4)).take 5 =
        [.enterSeq .transmitting, .issue .pUc1, .issue (.pUc2 w), .enterSeq .activating, .issue .pAct]) ∧
    (ts[k]? = some (.issue .pWrred) → op = .wrbuf .red) ∧
    (ts[k]? = some (.issue .pSleep) → op = .deinit) ∧
    (∀ s0 s1 s2 s3, ts[k]? = some (.issue (.pSoftst s0 s1 s2 s3)) →
      ∃ a b c, op = .softstart a b c ∧ ssEncode p a b c = some { s0, s1, s2, s3 }))

/-! ## Panel commands (41_command_protocol.md) -/

/-- R108, R109, R181 to R196: each panel command is its command frame and its data in the form R109 gives, whatever its operands; in
its place (the model's, log 1 and log 31) it is sent, the operation under way stands at its next line, and nothing else but the wire
changes. -/
def Obligations.PanelCommandsSendTheirWireForm : Prop :=
  (∀ (i : Instr) (s : State) (f : PanelOp × List (List Byte)), wireForm s i = some f →
    panelTxns s i = wireTxns s.params f) ∧
  (∀ (i : Instr) (s : State) (f : PanelOp × List (List Byte)) (u : Underway), s.place i = some u →
    wireForm s i = some f → s.writesAll (1 :: f.2.map List.length) →
    ∃ t, exec i s = .next t ∧
      t = { s.wireEffect (f.2.length + 1) (lastMode (wireTxns s.params f)) with
        tr := t.tr, underway := some { op := u.op, done := u.done + 1 } } ∧
      s.shows t (.txn [(0, s.params.opcode f.1)] :: f.2.map fun d => .txn (d.map fun b => (1, b))))

/-- The model's choice, not a rule of the spec (log 31; log 2 for a panel word that is no command): out of its place a panel command,
like a panel word that is none, sends nothing and leaves only STATUS = InvalidArgument. P.SLEEP has no place where P_DEINIT_SLEEP is
`none` (R196). In its place (log 1, log 31) a short write answers TransportError and ends the operation (R146, R304), but for DEINIT,
which goes on (R284). That the planes are as they were also where the operation is INIT is log 25. -/
def Obligations.PanelCommandsThatSendNothingOrFail : Prop :=
  (∀ (i : Instr) (s : State), i.isHostOp = false → s.place i = none →
    exec i s = .next { s with status := .invalidArgument }) ∧
  (∀ (s : State) (w : BitVec 48) (e : Reject), s.cmd = some (.panel w) → decodePanel s.params w = .error e →
    step s = .next { s with cmd := none, status := .invalidArgument }) ∧
  (∀ s : State, s.params.deinitSleep = none → s.place .pSleep = none) ∧
  (∀ (i : Instr) (s : State) (f : PanelOp × List (List Byte)) (u : Underway), s.place i = some u → u.op ≠ .deinit →
    wireForm s i = some f → ¬ s.writesAll (1 :: f.2.map List.length) →
    ∃ t, exec i s = .next t ∧
      t = { s with
        status := .transportError, seq := .idle, underway := none, tr := t.tr, bus := t.bus, ts := t.ts, pin := t.pin,
        countFeed := t.countFeed } ∧
      t.pin.cs = 1 ∧ s.tr <+: t.tr) ∧
  (∀ (s : State) (u : Underway), s.place .pSleep = some u → ¬ s.writesAll [1, 1] →
    ∃ t, exec .pSleep s = .next t ∧
      t = { s with
        underway := some { op := .deinit, done := u.done + 1 }, tr := t.tr, bus := t.bus, ts := t.ts, pin := t.pin,
        countFeed := t.countFeed } ∧
      t.pin.cs = 1 ∧ s.tr <+: t.tr)

/-! ## Waiting for ready (42_wait_ready.md) -/

/-- R200, R201: the Ready outcome, after `j` busy samples; the TimedOut outcome, with no settle delay and no error. -/
def Obligations.WaitReadyHasTwoOutcomes : Prop :=
  (∀ (s : State) (j : Nat), j < s.params.nPoll → (∀ i, i < j → s.busyAt i = s.params.busyActive) →
    s.busyAt j ≠ s.params.busyActive →
    waitReady s = { s with
      tr := s.tr ++ (List.replicate j [Event.busyRead s.params.busyActive, .delay .poll]).flatten
        ++ [.busyRead (s.busyAt j), .delay .settle]
      busyFeed := s.busyFeed.popMany (j + 1) }) ∧
  (∀ (s : State) (k : Nat), s.params.nPoll = k + 1 → (∀ i, i < k + 1 → s.busyAt i = s.params.busyActive) →
    waitReady s = { s with
      tr := s.tr ++ (List.replicate k [Event.busyRead s.params.busyActive, .delay .poll]).flatten
        ++ [.busyRead s.params.busyActive]
      busyFeed := s.busyFeed.popMany (k + 1) })

/-- R371, R8: each `Delay` is a lower bound. A successful INIT sleeps 40 ms at least, 10 ms for each phase of the reset pulse and after
the software reset; a wait sleeps T_POLL after each busy sample but a last one at N_POLL, and T_SETTLE at its Ready outcome. -/
def Obligations.DelaysAreLowerBounds : Prop :=
  (∀ s : State, s.initialised = false → s.cfg.clkHz ≠ 0 → s.rateFeed.nth Config.freeRate 0 ≠ 0 →
    s.writesAll (List.replicate 19 1) →
    ∃ t es, exec .init s = .next t ∧ t.initialised = true ∧ t.tr = s.tr ++ es ∧ 40000 ≤ sleptAtLeast s.params es) ∧
  (∀ (s : State) (j : Nat), j < s.params.nPoll → (∀ i, i < j → s.busyAt i = s.params.busyActive) →
    s.busyAt j ≠ s.params.busyActive →
    ∃ es, (waitReady s).tr = s.tr ++ es ∧ sleptAtLeast s.params es = j * s.params.tPoll + s.params.tSettle) ∧
  (∀ (s : State) (k : Nat), s.params.nPoll = k + 1 → (∀ i, i < k + 1 → s.busyAt i = s.params.busyActive) →
    ∃ es, (waitReady s).tr = s.tr ++ es ∧ sleptAtLeast s.params es = k * s.params.tPoll)

/-! ## Update sequencer (44_update_sequencer.md) -/

/-- R236, R232: WRBUF is one push: window, cursor, RAM-write command of the plane's colour, the 5000 bytes of the plane ascending. -/
def Obligations.WrbufPushesThePlane : Prop :=
  ∀ (s : State) (p : Plane), s.initialised = true → s.writesAll (List.replicate 14 1 ++ [5000]) →
    ∃ t, exec (.wrbuf p) s = .next t ∧
      t = { s.wireEffect 15 1 with tr := t.tr, seq := .idle, status := .ok } ∧
      s.shows t (pushObs s.params p ((List.range 5000).map (s.plane p).read))

/-- R240: UPDATE of the three types it serves: the leading wait, the activation or the two with a wait between; no push. -/
def Obligations.UpdateWaitsAndActivates : Prop :=
  (∀ s : State, s.initialised = true → s.writesAll (List.replicate 6 1) →
    ∃ t, exec (.update 0) s = .next t ∧
      t = { s.wireEffect 6 0 with
        tr := t.tr, seq := .idle, status := .ok, busyFeed := s.busyFeed.popMany (s.afterWait 0) } ∧
      s.shows t (s.waitObs 0 ++ actObs s.params 0xFE)) ∧
  (∀ s : State, s.initialised = true → s.writesAll (List.replicate 6 1) →
    ∃ t, exec (.update 1) s = .next t ∧
      t = { s.wireEffect 6 0 with
        tr := t.tr, seq := .idle, status := .ok, busyFeed := s.busyFeed.popMany (s.afterWait 0) } ∧
      s.shows t (s.waitObs 0 ++ actObs s.params 0xF6)) ∧
  (∀ s : State, s.initialised = true → s.writesAll (List.replicate 12 1) →
    ∃ t, exec (.update 3) s = .next t ∧
      t = { s.wireEffect 12 0 with
        tr := t.tr, seq := .idle, status := .ok, busyFeed := s.busyFeed.popMany (s.afterWait (s.afterWait 0)) } ∧
      s.shows t (s.waitObs 0 ++ actObs s.params 0xF6 ++ s.waitObs (s.afterWait 0) ++ actObs s.params 0xF6))

/-- R231, R241, R303: an unknown type is InvalidArgument, UPDATE FastFull is NotSupported, before any event. -/
def Obligations.UpdateTypesRejected : Prop :=
  (∀ (s : State) (t : Half), s.initialised = true → s.seq = .idle → 3 < t.toNat →
    exec (.update t) s = .next { s with status := .invalidArgument } ∧
    exec (.wrupd t) s = .next { s with status := .invalidArgument }) ∧
  (∀ s : State, s.initialised = true → s.seq = .idle → exec (.update 2) s = .next { s with status := .notSupported })

/-- R245: WRUPD on a busy panel: one BusyRead, STATUS = Busy, nothing else. -/
def Obligations.WrupdOnABusyPanelDoesNothing : Prop :=
  ∀ (s : State) (t : Half), s.initialised = true → s.seq = .idle → t.toNat ≤ 3 → s.busyAt 0 = s.params.busyActive →
    exec (.wrupd t) s = .next { s with
      status := .busy
      tr := s.tr ++ [.busyRead s.params.busyActive]
      busyFeed := s.busyFeed.popMany 1 }

/-- R244: WRUPD of the three one-colour types on a panel that is not busy. -/
def Obligations.WrupdPushesAndActivates : Prop :=
  (∀ s : State, s.initialised = true → s.busyAt 0 ≠ s.params.busyActive →
    s.writesAll (List.replicate 14 1 ++ [5000] ++ List.replicate 6 1) →
    ∃ t, exec (.wrupd 0) s = .next t ∧
      t = { s.wireEffect 21 0 with tr := t.tr, seq := .idle, status := .ok, busyFeed := s.busyFeed.popMany 1 } ∧
      s.shows t ([.busyRead (s.busyAt 0)] ++ pushObs s.params .black s.black.planeBytes ++ actObs s.params 0xFE)) ∧
  (∀ s : State, s.initialised = true → s.busyAt 0 ≠ s.params.busyActive →
    s.writesAll (List.replicate 14 1 ++ [5000] ++ List.replicate 6 1) →
    ∃ t, exec (.wrupd 1) s = .next t ∧
      t = { s.wireEffect 21 0 with tr := t.tr, seq := .idle, status := .ok, busyFeed := s.busyFeed.popMany 1 } ∧
      s.shows t ([.busyRead (s.busyAt 0)] ++ pushObs s.params .black s.black.planeBytes ++ actObs s.params 0xF6)) ∧
  (∀ s : State, s.initialised = true → s.busyAt 0 ≠ s.params.busyActive →
    s.writesAll (List.replicate 14 1 ++ [5000] ++ List.replicate 12 1) →
    ∃ t, exec (.wrupd 3) s = .next t ∧
      t = { s.wireEffect 27 0 with
        tr := t.tr, seq := .idle, status := .ok, busyFeed := s.busyFeed.popMany (s.afterWait 1) } ∧
      s.shows t ([.busyRead (s.busyAt 0)] ++ pushObs s.params .black s.black.planeBytes ++ actObs s.params 0xF6
        ++ s.waitObs 1 ++ actObs s.params 0xF6))

/-- R246: WRUPD FastFull: flash and activate, wait, push and activate; 42 transactions. -/
def Obligations.FastFullFlashesThenDraws : Prop :=
  ∀ s : State, s.initialised = true → s.busyAt 0 ≠ s.params.busyActive →
    s.writesAll (List.replicate 14 1 ++ [5000] ++ List.replicate 6 1 ++ List.replicate 14 1 ++ [5000] ++ List.replicate 6 1) →
    ∃ t, exec (.wrupd 2) s = .next t ∧
      t = { s.wireEffect 42 0 with
        tr := t.tr, seq := .idle, status := .ok, busyFeed := s.busyFeed.popMany (s.afterWait 1) } ∧
      s.shows t ([.busyRead (s.busyAt 0)] ++ pushObs s.params .black (List.replicate 5000 0xFF) ++ actObs s.params 0xFE
        ++ s.waitObs 1 ++ pushObs s.params .black s.black.planeBytes ++ actObs s.params 0xFE)

/-- R250: SOFTSTART sends SS_ENCODE's four bytes, reads no BUSY, keeps SEQ; an invalid argument triple sends nothing. -/
def Obligations.SoftstartSendsFourBytes : Prop :=
  (∀ (s : State) (st ti mo : Half) (q : SoftStartBytes), s.initialised = true → ssEncode s.params st ti mo = some q →
    s.writesAll (List.replicate 5 1) →
    ∃ t, exec (.softstart st ti mo) s = .next t ∧ t = { s.wireEffect 5 1 with tr := t.tr, status := .ok } ∧
      s.shows t [cmdObs s.params .softst, dataObs q.s0, dataObs q.s1, dataObs q.s2, dataObs q.s3]) ∧
  (∀ (s : State) (st ti mo : Half), s.initialised = true → s.seq = .idle → ssEncode s.params st ti mo = none →
    exec (.softstart st ti mo) s = .next { s with status := .invalidArgument }) ∧
  (∀ (s : State) (st ti mo : Half), s.initialised = false → s.seq = .idle →
    exec (.softstart st ti mo) s = .next { s with status := .notInitialized })

/-- R237: the update operations neither read nor write the red plane (UPDATE and SOFTSTART neither plane): any other red content
gives the same run. The last clause says of the model's places of panel commands (log 1, log 31) that P.WRRED has none but in WRBUF
red, with INIT = 1. -/
def Obligations.UpdatesIgnoreTheRedPlane : Prop :=
  (∀ (i : Instr) (s t : State) (m : Mem),
    (∃ y, i = .update y ∨ i = .wrupd y) ∨ (∃ a b c, i = .softstart a b c) → exec i s = .next t →
    exec i (s.setPlane .red m) = .next (t.setPlane .red m) ∧
    ((∀ y, i ≠ .wrupd y) → exec i (s.setPlane .black m) = .next (t.setPlane .black m))) ∧
  (∀ (s : State) (u : Underway), s.place .pWrred = some u → u.op = .wrbuf .red ∧ s.initialised = true)

/-! ## Statuses (60_exceptions.md) -/

/-- R312: what a failed host operation leaves: nothing but STATUS; for Busy one BusyRead; for TransportError the events so far and
the wire's levels, with the planes, CFG, INIT and RDATA as they were. For an INIT that answers TransportError two clauses are the
model's reading, DEDUCED: the planes unchanged is log 25, from R312, while R282 calls them unspecified then; no TS after a failed
T_OPEN, whatever an earlier failed INIT left, is log 15, from R152 and R282. -/
def Obligations.FailedOperationsLeaveTheState : Prop :=
  ∀ (i : Instr) (s t : State), i.isHostOp = true → s.seq = .idle → exec i s = .next t →
    (t.status = .notInitialized ∨ t.status = .alreadyInitialized ∨ t.status = .invalidArgument ∨
      t.status = .notSupported → t = { s with status := t.status }) ∧
    (t.status = .busy → t = { s with
      status := .busy, tr := s.tr ++ [.busyRead s.params.busyActive], busyFeed := s.busyFeed.popMany 1 }) ∧
    (t.status = .transportError →
      t = { s with
        status := .transportError, seq := .idle, tr := t.tr, bus := t.bus, ts := t.ts, pin := t.pin,
        busyFeed := t.busyFeed, countFeed := t.countFeed, rateFeed := t.rateFeed, nextFree := t.nextFree } ∧
      s.tr <+: t.tr ∧ (t.pin.cs = 1 ∨ (i = .init ∧ t.ts = none)))

/-- R304, R305, R306: where TransportError, NotSupported and Busy come from: an operation that sends; UPDATE FastFull; WRUPD whose
one sample reads the busy level. -/
def Obligations.HardwareStatusesHaveTheirCauses : Prop :=
  ∀ (i : Instr) (s t : State), i.isHostOp = true → exec i s = .next t →
    (t.status = .transportError → i = .init ∨ (∃ p, i = .wrbuf p) ∨ (∃ y, i = .update y) ∨ (∃ y, i = .wrupd y) ∨
      ∃ a b c, i = .softstart a b c) ∧
    (t.status = .notSupported → i = .update 2) ∧
    (t.status = .busy → (∃ y, i = .wrupd y) ∧ s.busyAt 0 = s.params.busyActive)

/-! ## The host's port (10_state.md R47) -/

/-- R47: the STATE register's bits, the numbers of SEQ (R41) and of STATUS (R300). The port of 32 bits, over which they read
zero-extended, is the model's (log 18). -/
def Obligations.StateAndStatusRegistersRead : Prop :=
  (∀ s : State,
    s.stateRegister.getLsbD 0 = s.initialised ∧ s.stateRegister.extractLsb' 1 2 =
      (match s.seq with
       | .idle => 0
       | .waitingReady => 1
       | .transmitting => 2
       | .activating => 3) ∧
    (∀ u, s.ts = some u → s.stateRegister.extractLsb' 3 1 = u.mode) ∧
    s.stateRegister.extractLsb' 4 1 = s.pin.cs ∧ s.stateRegister.extractLsb' 5 1 = s.pin.dc ∧
    s.stateRegister.extractLsb' 6 1 = s.pin.rst ∧ s.stateRegister.getLsbD 7 = false) ∧
  (∀ s : State, s.readReg .rdata = s.rdata.setWidth 32 ∧ s.readReg .state = s.stateRegister.setWidth 32 ∧
    s.readReg .status =
      match s.status with
      | .ok => 0
      | .notInitialized => 1
      | .alreadyInitialized => 2
      | .invalidArgument => 3
      | .transportError => 4
      | .notSupported => 5
      | .busy => 6)

/-- R47, R32: a CFG register written while INIT = 0 reads back what was written, and no other register or field changes; bits 7 to 2
of CFG_MODE read 0. The model's DESIGN CHOICE of log 18, not a rule of the spec: a write of STATUS, RDATA or STATE, which R47 calls
read-only, changes nothing (the last case of the match), and the bits of the written 32-bit value above a register's width are ignored.
The host's moves as a list are log 4. -/
def Obligations.CfgRegistersHoldWhatIsWritten : Prop :=
  ∀ (s : State) (r : HostReg) (v : Quad) (ms : List HostMove), s.initialised = false → s.cmd = none →
    s.underway = none → s.hostMoves = .writeReg r v :: ms →
    ∃ t, step s = .next t ∧ t = { s with hostMoves := ms, cfg := t.cfg } ∧
      (∀ r', r' ≠ r → t.readReg r' = s.readReg r') ∧
      t.readReg r =
        match r with
        | .cfgMode => v &&& 3
        | .cfgClkHz => v
        | .cfgPinSdo | .cfgPinSck | .cfgPinCs | .cfgPinDc | .cfgPinRst | .cfgPinBusy => v &&& 0xFF
        | .status | .rdata | .state => s.readReg r

/-- R43, R47, R76, R341: what the other host moves do: a write to CMD latches the descriptor for the next step, a register read
returns the register, HBUF takes a byte below HBUF_SIZE, CMD is not readable, loss of power leads back to the power-on state. The
moves and their list, the answers to an access that R47 and R76 do not allow, and the step with no move left are the model's (log 4,
log 17, log 18, log 21, log 22). -/
def Obligations.HostMovesAtThePort : Prop :=
  ∀ (s : State) (ms : List HostMove), s.cmd = none → s.underway = none →
    (∀ w, s.hostMoves = .writeCmd w :: ms → step s = .next { s with hostMoves := ms, cmd := some (.descriptor w) }) ∧
    (∀ r, s.hostMoves = .readReg r :: ms →
      ∃ t, step s = .next t ∧ t = { s with hostMoves := ms, hostRead := s.readReg r, nextFree := t.nextFree }) ∧
    (∀ a v, s.hostMoves = .writeHbuf a v :: ms → a < s.params.hbufSize → s.hbuf.wf s.params.hbufSize →
      ∃ t, step s = .next t ∧ t = { s with hostMoves := ms, hbuf := t.hbuf } ∧ t.hbuf.wf s.params.hbufSize ∧
        ∀ b, t.hbuf.read b = if b = a then v else s.hbuf.read b) ∧
    (∀ a v, s.hostMoves = .writeHbuf a v :: ms → s.params.hbufSize ≤ a → step s = .fault .hbufAddress) ∧
    (s.hostMoves = .readCmd :: ms → step s = .refused .cmdIsWriteOnly) ∧
    (s.hostMoves = .powerCycle :: ms →
      ∃ t, step s = .next t ∧ t.initialised = false ∧ t.seq = .idle ∧ t.status = .ok ∧ t.ts = none ∧ t.tr = [] ∧
        t.cmd = none ∧ t.params = s.params ∧ t.hostMoves = ms) ∧
    (s.hostMoves = [] → step s = .next s)

end
end

