-- ==== Sys2Proof/Laws/Decode.lean ====
section
/-! SUPPORT. What decoding rests on: fields cut out of a word put together are the fields put in, an opcode byte finds its panel
command, the two halves of a 16-bit operand, what the decode mask selects. -/

namespace Sys2Proof

/-- The fields of a descriptor put together from fields (R101). -/
theorem fieldsOfWord_wordOfFields (f : Fields) : fieldsOfWord (wordOfFields f) = f := by
  obtain ⟨op, plane, value, lo, a, b, c, d, e, ptr, hi⟩ := f
  simp only [fieldsOfWord, wordOfFields, Fields.mk.injEq]
  refine ⟨?_, ?_, ?_, ?_, ?_, ?_, ?_, ?_, ?_, ?_, ?_⟩ <;>
  · apply BitVec.eq_of_toNat_eq
    simp only [BitVec.extractLsb'_toNat, BitVec.toNat_ofNat, Nat.shiftRight_eq_div_pow]
    have := op.isLt; have := plane.isLt; have := value.isLt; have := lo.isLt; have := a.isLt; have := b.isLt
    have := c.isLt; have := d.isLt; have := e.isLt; have := ptr.isLt; have := hi.isLt
    omega

/-- A descriptor put together again from its own fields: no bit is dropped (R101). -/
theorem wordOfFields_fieldsOfWord (w : BitVec 128) : wordOfFields (fieldsOfWord w) = w := by
  apply BitVec.eq_of_toNat_eq
  have := w.isLt
  simp only [fieldsOfWord, wordOfFields, BitVec.extractLsb'_toNat, BitVec.toNat_ofNat, Nat.shiftRight_eq_div_pow]
  omega

/-- The fields of a panel word put together from fields. -/
theorem panelFieldsOfWord_wordOfPanelFields (f : PanelFields) : panelFieldsOfWord (wordOfPanelFields f) = f := by
  obtain ⟨op, mode, rsv, a, b⟩ := f
  simp only [panelFieldsOfWord, wordOfPanelFields, PanelFields.mk.injEq]
  refine ⟨?_, ?_, ?_, ?_, ?_⟩ <;>
  · apply BitVec.eq_of_toNat_eq
    simp only [BitVec.extractLsb'_toNat, BitVec.toNat_ofNat, Nat.shiftRight_eq_div_pow]
    have := op.isLt; have := mode.isLt; have := rsv.isLt; have := a.isLt; have := b.isLt
    omega

@[simp] theorem planeOfBit_bitOfPlane (p : Plane) : planeOfBit (bitOfPlane p) = p := by cases p <;> decide

theorem PanelOp.mem_all (k : PanelOp) : k ∈ PanelOp.all := by cases k <;> decide

/-- With pairwise distinct opcodes (R9) the byte of a panel command finds that command. -/
theorem panelOpOfByte_opcode {p : Params} (h : p.opcodesDistinct = true) (k : PanelOp) :
    panelOpOfByte p (p.opcode k) = some k := by
  have hn : (PanelOp.all.map p.opcode).Nodup := by simpa [Params.opcodesDistinct] using h
  have key : ∀ l : List PanelOp, (l.map p.opcode).Nodup → k ∈ l →
      l.find? (fun j => decide (p.opcode j = p.opcode k)) = some k := by
    intro l
    induction l with
    | nil => intro _ hk; simp at hk
    | cons j l ih =>
      intro hl hk
      simp only [List.map_cons, List.nodup_cons] at hl
      by_cases hj : p.opcode j = p.opcode k
      · rcases List.mem_cons.1 hk with rfl | hk
        · simp
        · exact absurd (hj ▸ List.mem_map_of_mem hk) hl.1
      · rcases List.mem_cons.1 hk with rfl | hk
        · exact absurd rfl hj
        · simp only [List.find?_cons, hj, decide_false]
          exact ih hl.2 hk
  exact key _ hn (PanelOp.mem_all k)

/-- The low and high bytes of two bytes side by side. -/
theorem append_lowByte (hi lo : Byte) : (hi ++ lo : BitVec 16).extractLsb' 0 8 = lo := by
  apply BitVec.eq_of_getLsbD_eq
  intro i h
  simp only [BitVec.getLsbD_extractLsb', BitVec.getLsbD_append, h, decide_true, Bool.true_and, Nat.zero_add, if_true]

theorem append_highByte (hi lo : Byte) : (hi ++ lo : BitVec 16).extractLsb' 8 8 = hi := by
  apply BitVec.eq_of_getLsbD_eq
  intro i h
  have : ¬ 8 + i < 8 := by omega
  simp only [BitVec.getLsbD_extractLsb', BitVec.getLsbD_append, h, decide_true, Bool.true_and, this, if_false, Nat.add_sub_cancel_left]

/-- Masking selects `OP` and the two reserved fields (R103, R104). -/
theorem mask_iff (w : BitVec 128) (op : Byte) :
    w &&& decodeMask = op.setWidth 128 ↔ (fieldsOfWord w).op = op ∧ (fieldsOfWord w).reservedLow = 0 ∧ (fieldsOfWord w).reservedHigh = 0 := by
  simp only [fieldsOfWord]
  constructor
  · intro h
    have hb : ∀ i, (w &&& decodeMask).getLsbD i = (op.setWidth 128).getLsbD i := by rw [h]; simp
    simp only [BitVec.getLsbD_and, BitVec.getLsbD_setWidth] at hb
    refine ⟨?_, ?_, ?_⟩
    · apply BitVec.eq_of_getLsbD_eq; intro i hi
      have := hb i
      rw [BitVec.getLsbD_extractLsb']
      have hm : decodeMask.getLsbD i = true := by
        have : ∀ i : Fin 8, decodeMask.getLsbD i.1 = true := by decide
        exact this ⟨i, hi⟩
      rw [hm, Bool.and_true] at this
      simp only [Nat.zero_add, hi, decide_true, Bool.true_and, this, show i < 128 by omega]
    · apply BitVec.eq_of_getLsbD_eq; intro i hi
      have := hb (10 + i)
      rw [BitVec.getLsbD_extractLsb']
      have hm : decodeMask.getLsbD (10 + i) = true := by
        have : ∀ i : Fin 6, decodeMask.getLsbD (10 + i.1) = true := by decide
        exact this ⟨i, hi⟩
      rw [hm, BitVec.getLsbD_of_ge op (10 + i) (by omega)] at this
      simpa [hi] using this
    · apply BitVec.eq_of_getLsbD_eq; intro i hi
      have := hb (112 + i)
      rw [BitVec.getLsbD_extractLsb']
      have hm : decodeMask.getLsbD (112 + i) = true := by
        have : ∀ i : Fin 16, decodeMask.getLsbD (112 + i.1) = true := by decide
        exact this ⟨i, hi⟩
      rw [hm, BitVec.getLsbD_of_ge op (112 + i) (by omega)] at this
      simpa [hi] using this
  · rintro ⟨h1, h2, h3⟩
    apply BitVec.eq_of_getLsbD_eq; intro i hi
    rw [BitVec.getLsbD_and, BitVec.getLsbD_setWidth]
    by_cases a : i < 8
    · have hm : decodeMask.getLsbD i = true := by
        have : ∀ i : Fin 8, decodeMask.getLsbD i.1 = true := by decide
        exact this ⟨i, a⟩
      rw [hm, ← h1, BitVec.getLsbD_extractLsb']
      simp [a, hi]
    · rw [BitVec.getLsbD_of_ge op i (by omega)]
      by_cases b : 10 ≤ i ∧ i < 16
      · have := congrArg (fun v => v.getLsbD (i - 10)) h2
        rw [BitVec.getLsbD_extractLsb'] at this
        simp [show i - 10 < 6 by omega, show 10 + (i - 10) = i by omega] at this
        simp [this]
      · by_cases c : 112 ≤ i
        · have := congrArg (fun v => v.getLsbD (i - 112)) h3
          rw [BitVec.getLsbD_extractLsb'] at this
          simp [show i - 112 < 16 by omega, show 112 + (i - 112) = i by omega] at this
          simp [this]
        · have hm : decodeMask.getLsbD i = false := by
            have : ∀ i : Fin 128, ¬ i.1 < 8 → ¬ (10 ≤ i.1 ∧ i.1 < 16) → ¬ 112 ≤ i.1 → decodeMask.getLsbD i.1 = false := by decide
            exact this ⟨i, hi⟩ a b c
          simp [hm]

/-- An operation decoded from fields has the `OP` of the fields (R100). -/
theorem instrOfFields_opCode {f : Fields} {i : Instr} (h : instrOfFields f = .ok i) : i.opCode = some f.op ∧ f.op ∈ opCodes := by
  by_cases hm : f.op ∈ opCodes
  · refine ⟨?_, hm⟩
    simp only [opCodes, List.mem_cons, List.not_mem_nil, or_false] at hm
    unfold instrOfFields at h
    rcases hm with e|e|e|e|e|e|e|e|e|e|e|e|e|e <;> (simp [e] at h; subst h; rw [e]; rfl)
  · simp only [opCodes, List.mem_cons, List.not_mem_nil, or_false, not_or] at hm
    unfold instrOfFields at h
    obtain ⟨h1, h2, h3, h4, h5, h6, h7, h8, h9, h10, h11, h12, h13, h14⟩ := hm
    rw [if_neg h1, if_neg h2, if_neg h3, if_neg h4, if_neg h5, if_neg h6, if_neg h7, if_neg h8, if_neg h9, if_neg h10, if_neg h11, if_neg h12, if_neg h13, if_neg h14] at h
    cases h

/-- Each of the fourteen codes is an operation (R100). -/
theorem instrOfFields_of_mem {f : Fields} (h : f.op ∈ opCodes) : ∃ i, instrOfFields f = .ok i := by
  simp only [opCodes, List.mem_cons, List.not_mem_nil, or_false] at h
  unfold instrOfFields
  rcases h with h|h|h|h|h|h|h|h|h|h|h|h|h|h <;> simp [h]

end Sys2Proof
end

