-- ==== Sys2Proof/Laws/State.lean ====
section
/-! SUPPORT. One lemma per field per state update, each true by definition, so that no later proof unfolds a record update. -/

namespace Sys2Proof.Machine

open Sys2Proof

variable (s : State)

/-! ## `emit` -/

@[simp] theorem emit_params (es : List Event) : (s.emit es).params = s.params := rfl
@[simp] theorem emit_cfg (es : List Event) : (s.emit es).cfg = s.cfg := rfl
@[simp] theorem emit_initialised (es : List Event) : (s.emit es).initialised = s.initialised := rfl
@[simp] theorem emit_ts (es : List Event) : (s.emit es).ts = s.ts := rfl
@[simp] theorem emit_black (es : List Event) : (s.emit es).black = s.black := rfl
@[simp] theorem emit_red (es : List Event) : (s.emit es).red = s.red := rfl
@[simp] theorem emit_pin (es : List Event) : (s.emit es).pin = s.pin := rfl
@[simp] theorem emit_seq (es : List Event) : (s.emit es).seq = s.seq := rfl
@[simp] theorem emit_status (es : List Event) : (s.emit es).status = s.status := rfl
@[simp] theorem emit_rdata (es : List Event) : (s.emit es).rdata = s.rdata := rfl
@[simp] theorem emit_cmd (es : List Event) : (s.emit es).cmd = s.cmd := rfl
@[simp] theorem emit_underway (es : List Event) : (s.emit es).underway = s.underway := rfl
@[simp] theorem emit_tr (es : List Event) : (s.emit es).tr = s.tr ++ es := rfl
@[simp] theorem emit_bus (es : List Event) : (s.emit es).bus = s.bus := rfl
@[simp] theorem emit_hbuf (es : List Event) : (s.emit es).hbuf = s.hbuf := rfl
@[simp] theorem emit_hostMoves (es : List Event) : (s.emit es).hostMoves = s.hostMoves := rfl
@[simp] theorem emit_hostRead (es : List Event) : (s.emit es).hostRead = s.hostRead := rfl
@[simp] theorem emit_busyFeed (es : List Event) : (s.emit es).busyFeed = s.busyFeed := rfl
@[simp] theorem emit_countFeed (es : List Event) : (s.emit es).countFeed = s.countFeed := rfl
@[simp] theorem emit_rateFeed (es : List Event) : (s.emit es).rateFeed = s.rateFeed := rfl
@[simp] theorem emit_busFeed (es : List Event) : (s.emit es).busFeed = s.busFeed := rfl
@[simp] theorem emit_nextFree (es : List Event) : (s.emit es).nextFree = s.nextFree := rfl

/-! ## `drivePin` -/

@[simp] theorem drivePin_params (p : Pin) (l : Bit) : (s.drivePin p l).params = s.params := rfl
@[simp] theorem drivePin_cfg (p : Pin) (l : Bit) : (s.drivePin p l).cfg = s.cfg := rfl
@[simp] theorem drivePin_initialised (p : Pin) (l : Bit) : (s.drivePin p l).initialised = s.initialised := rfl
@[simp] theorem drivePin_ts (p : Pin) (l : Bit) : (s.drivePin p l).ts = s.ts := rfl
@[simp] theorem drivePin_black (p : Pin) (l : Bit) : (s.drivePin p l).black = s.black := rfl
@[simp] theorem drivePin_red (p : Pin) (l : Bit) : (s.drivePin p l).red = s.red := rfl
@[simp] theorem drivePin_pin (p : Pin) (l : Bit) : (s.drivePin p l).pin = setPinLevel s.pin p l := rfl
@[simp] theorem drivePin_seq (p : Pin) (l : Bit) : (s.drivePin p l).seq = s.seq := rfl
@[simp] theorem drivePin_status (p : Pin) (l : Bit) : (s.drivePin p l).status = s.status := rfl
@[simp] theorem drivePin_rdata (p : Pin) (l : Bit) : (s.drivePin p l).rdata = s.rdata := rfl
@[simp] theorem drivePin_cmd (p : Pin) (l : Bit) : (s.drivePin p l).cmd = s.cmd := rfl
@[simp] theorem drivePin_underway (p : Pin) (l : Bit) : (s.drivePin p l).underway = s.underway := rfl
@[simp] theorem drivePin_tr (p : Pin) (l : Bit) : (s.drivePin p l).tr = s.tr ++ [.pinSet p l] := rfl
@[simp] theorem drivePin_bus (p : Pin) (l : Bit) : (s.drivePin p l).bus = s.bus := rfl
@[simp] theorem drivePin_hbuf (p : Pin) (l : Bit) : (s.drivePin p l).hbuf = s.hbuf := rfl
@[simp] theorem drivePin_hostMoves (p : Pin) (l : Bit) : (s.drivePin p l).hostMoves = s.hostMoves := rfl
@[simp] theorem drivePin_hostRead (p : Pin) (l : Bit) : (s.drivePin p l).hostRead = s.hostRead := rfl
@[simp] theorem drivePin_busyFeed (p : Pin) (l : Bit) : (s.drivePin p l).busyFeed = s.busyFeed := rfl
@[simp] theorem drivePin_countFeed (p : Pin) (l : Bit) : (s.drivePin p l).countFeed = s.countFeed := rfl
@[simp] theorem drivePin_rateFeed (p : Pin) (l : Bit) : (s.drivePin p l).rateFeed = s.rateFeed := rfl
@[simp] theorem drivePin_busFeed (p : Pin) (l : Bit) : (s.drivePin p l).busFeed = s.busFeed := rfl
@[simp] theorem drivePin_nextFree (p : Pin) (l : Bit) : (s.drivePin p l).nextFree = s.nextFree := rfl

/-! ## `setSeq` -/

@[simp] theorem setSeq_params (q : Seq) : (s.setSeq q).params = s.params := rfl
@[simp] theorem setSeq_cfg (q : Seq) : (s.setSeq q).cfg = s.cfg := rfl
@[simp] theorem setSeq_initialised (q : Seq) : (s.setSeq q).initialised = s.initialised := rfl
@[simp] theorem setSeq_ts (q : Seq) : (s.setSeq q).ts = s.ts := rfl
@[simp] theorem setSeq_black (q : Seq) : (s.setSeq q).black = s.black := rfl
@[simp] theorem setSeq_red (q : Seq) : (s.setSeq q).red = s.red := rfl
@[simp] theorem setSeq_pin (q : Seq) : (s.setSeq q).pin = s.pin := rfl
@[simp] theorem setSeq_seq (q : Seq) : (s.setSeq q).seq = q := rfl
@[simp] theorem setSeq_status (q : Seq) : (s.setSeq q).status = s.status := rfl
@[simp] theorem setSeq_rdata (q : Seq) : (s.setSeq q).rdata = s.rdata := rfl
@[simp] theorem setSeq_cmd (q : Seq) : (s.setSeq q).cmd = s.cmd := rfl
@[simp] theorem setSeq_underway (q : Seq) : (s.setSeq q).underway = s.underway := rfl
@[simp] theorem setSeq_tr (q : Seq) : (s.setSeq q).tr = s.tr := rfl
@[simp] theorem setSeq_bus (q : Seq) : (s.setSeq q).bus = s.bus := rfl
@[simp] theorem setSeq_hbuf (q : Seq) : (s.setSeq q).hbuf = s.hbuf := rfl
@[simp] theorem setSeq_hostMoves (q : Seq) : (s.setSeq q).hostMoves = s.hostMoves := rfl
@[simp] theorem setSeq_hostRead (q : Seq) : (s.setSeq q).hostRead = s.hostRead := rfl
@[simp] theorem setSeq_busyFeed (q : Seq) : (s.setSeq q).busyFeed = s.busyFeed := rfl
@[simp] theorem setSeq_countFeed (q : Seq) : (s.setSeq q).countFeed = s.countFeed := rfl
@[simp] theorem setSeq_rateFeed (q : Seq) : (s.setSeq q).rateFeed = s.rateFeed := rfl
@[simp] theorem setSeq_busFeed (q : Seq) : (s.setSeq q).busFeed = s.busFeed := rfl
@[simp] theorem setSeq_nextFree (q : Seq) : (s.setSeq q).nextFree = s.nextFree := rfl

/-! ## `deliver` -/

@[simp] theorem deliver_params (e : Status) : (s.deliver e).params = s.params := rfl
@[simp] theorem deliver_cfg (e : Status) : (s.deliver e).cfg = s.cfg := rfl
@[simp] theorem deliver_initialised (e : Status) : (s.deliver e).initialised = s.initialised := rfl
@[simp] theorem deliver_ts (e : Status) : (s.deliver e).ts = s.ts := rfl
@[simp] theorem deliver_black (e : Status) : (s.deliver e).black = s.black := rfl
@[simp] theorem deliver_red (e : Status) : (s.deliver e).red = s.red := rfl
@[simp] theorem deliver_pin (e : Status) : (s.deliver e).pin = s.pin := rfl
@[simp] theorem deliver_seq (e : Status) : (s.deliver e).seq = .idle := rfl
@[simp] theorem deliver_status (e : Status) : (s.deliver e).status = e := rfl
@[simp] theorem deliver_rdata (e : Status) : (s.deliver e).rdata = s.rdata := rfl
@[simp] theorem deliver_cmd (e : Status) : (s.deliver e).cmd = s.cmd := rfl
@[simp] theorem deliver_underway (e : Status) : (s.deliver e).underway = s.underway := rfl
@[simp] theorem deliver_tr (e : Status) : (s.deliver e).tr = s.tr := rfl
@[simp] theorem deliver_bus (e : Status) : (s.deliver e).bus = s.bus := rfl
@[simp] theorem deliver_hbuf (e : Status) : (s.deliver e).hbuf = s.hbuf := rfl
@[simp] theorem deliver_hostMoves (e : Status) : (s.deliver e).hostMoves = s.hostMoves := rfl
@[simp] theorem deliver_hostRead (e : Status) : (s.deliver e).hostRead = s.hostRead := rfl
@[simp] theorem deliver_busyFeed (e : Status) : (s.deliver e).busyFeed = s.busyFeed := rfl
@[simp] theorem deliver_countFeed (e : Status) : (s.deliver e).countFeed = s.countFeed := rfl
@[simp] theorem deliver_rateFeed (e : Status) : (s.deliver e).rateFeed = s.rateFeed := rfl
@[simp] theorem deliver_busFeed (e : Status) : (s.deliver e).busFeed = s.busFeed := rfl
@[simp] theorem deliver_nextFree (e : Status) : (s.deliver e).nextFree = s.nextFree := rfl

/-! ## `complete` -/

@[simp] theorem complete_params : s.complete.params = s.params := rfl
@[simp] theorem complete_cfg : s.complete.cfg = s.cfg := rfl
@[simp] theorem complete_initialised : s.complete.initialised = s.initialised := rfl
@[simp] theorem complete_ts : s.complete.ts = s.ts := rfl
@[simp] theorem complete_black : s.complete.black = s.black := rfl
@[simp] theorem complete_red : s.complete.red = s.red := rfl
@[simp] theorem complete_pin : s.complete.pin = s.pin := rfl
@[simp] theorem complete_seq : s.complete.seq = s.seq := rfl
@[simp] theorem complete_status : s.complete.status = .ok := rfl
@[simp] theorem complete_rdata : s.complete.rdata = s.rdata := rfl
@[simp] theorem complete_cmd : s.complete.cmd = s.cmd := rfl
@[simp] theorem complete_underway : s.complete.underway = s.underway := rfl
@[simp] theorem complete_tr : s.complete.tr = s.tr := rfl
@[simp] theorem complete_bus : s.complete.bus = s.bus := rfl
@[simp] theorem complete_hbuf : s.complete.hbuf = s.hbuf := rfl
@[simp] theorem complete_hostMoves : s.complete.hostMoves = s.hostMoves := rfl
@[simp] theorem complete_hostRead : s.complete.hostRead = s.hostRead := rfl
@[simp] theorem complete_busyFeed : s.complete.busyFeed = s.busyFeed := rfl
@[simp] theorem complete_countFeed : s.complete.countFeed = s.countFeed := rfl
@[simp] theorem complete_rateFeed : s.complete.rateFeed = s.rateFeed := rfl
@[simp] theorem complete_busFeed : s.complete.busFeed = s.busFeed := rfl
@[simp] theorem complete_nextFree : s.complete.nextFree = s.nextFree := rfl

/-! ## `setTsMode` -/

@[simp] theorem setTsMode_params (m : Bit) : (s.setTsMode m).params = s.params := rfl
@[simp] theorem setTsMode_cfg (m : Bit) : (s.setTsMode m).cfg = s.cfg := rfl
@[simp] theorem setTsMode_initialised (m : Bit) : (s.setTsMode m).initialised = s.initialised := rfl
@[simp] theorem setTsMode_ts (m : Bit) : (s.setTsMode m).ts = s.ts.map fun t => { t with mode := m } := rfl
@[simp] theorem setTsMode_black (m : Bit) : (s.setTsMode m).black = s.black := rfl
@[simp] theorem setTsMode_red (m : Bit) : (s.setTsMode m).red = s.red := rfl
@[simp] theorem setTsMode_pin (m : Bit) : (s.setTsMode m).pin = s.pin := rfl
@[simp] theorem setTsMode_seq (m : Bit) : (s.setTsMode m).seq = s.seq := rfl
@[simp] theorem setTsMode_status (m : Bit) : (s.setTsMode m).status = s.status := rfl
@[simp] theorem setTsMode_rdata (m : Bit) : (s.setTsMode m).rdata = s.rdata := rfl
@[simp] theorem setTsMode_cmd (m : Bit) : (s.setTsMode m).cmd = s.cmd := rfl
@[simp] theorem setTsMode_underway (m : Bit) : (s.setTsMode m).underway = s.underway := rfl
@[simp] theorem setTsMode_tr (m : Bit) : (s.setTsMode m).tr = s.tr := rfl
@[simp] theorem setTsMode_bus (m : Bit) : (s.setTsMode m).bus = s.bus := rfl
@[simp] theorem setTsMode_hbuf (m : Bit) : (s.setTsMode m).hbuf = s.hbuf := rfl
@[simp] theorem setTsMode_hostMoves (m : Bit) : (s.setTsMode m).hostMoves = s.hostMoves := rfl
@[simp] theorem setTsMode_hostRead (m : Bit) : (s.setTsMode m).hostRead = s.hostRead := rfl
@[simp] theorem setTsMode_busyFeed (m : Bit) : (s.setTsMode m).busyFeed = s.busyFeed := rfl
@[simp] theorem setTsMode_countFeed (m : Bit) : (s.setTsMode m).countFeed = s.countFeed := rfl
@[simp] theorem setTsMode_rateFeed (m : Bit) : (s.setTsMode m).rateFeed = s.rateFeed := rfl
@[simp] theorem setTsMode_busFeed (m : Bit) : (s.setTsMode m).busFeed = s.busFeed := rfl
@[simp] theorem setTsMode_nextFree (m : Bit) : (s.setTsMode m).nextFree = s.nextFree := rfl

/-! ## `sampleBusy` -/

@[simp] theorem sampleBusy_params : (sampleBusy s).params = s.params := rfl
@[simp] theorem sampleBusy_cfg : (sampleBusy s).cfg = s.cfg := rfl
@[simp] theorem sampleBusy_initialised : (sampleBusy s).initialised = s.initialised := rfl
@[simp] theorem sampleBusy_ts : (sampleBusy s).ts = s.ts := rfl
@[simp] theorem sampleBusy_black : (sampleBusy s).black = s.black := rfl
@[simp] theorem sampleBusy_red : (sampleBusy s).red = s.red := rfl
@[simp] theorem sampleBusy_pin : (sampleBusy s).pin = s.pin := rfl
@[simp] theorem sampleBusy_seq : (sampleBusy s).seq = s.seq := rfl
@[simp] theorem sampleBusy_status : (sampleBusy s).status = s.status := rfl
@[simp] theorem sampleBusy_rdata : (sampleBusy s).rdata = s.rdata := rfl
@[simp] theorem sampleBusy_cmd : (sampleBusy s).cmd = s.cmd := rfl
@[simp] theorem sampleBusy_underway : (sampleBusy s).underway = s.underway := rfl
@[simp] theorem sampleBusy_tr : (sampleBusy s).tr = s.tr ++ [.busyRead s.busyLevel] := rfl
@[simp] theorem sampleBusy_bus : (sampleBusy s).bus = s.bus := rfl
@[simp] theorem sampleBusy_hbuf : (sampleBusy s).hbuf = s.hbuf := rfl
@[simp] theorem sampleBusy_hostMoves : (sampleBusy s).hostMoves = s.hostMoves := rfl
@[simp] theorem sampleBusy_hostRead : (sampleBusy s).hostRead = s.hostRead := rfl
@[simp] theorem sampleBusy_busyFeed : (sampleBusy s).busyFeed = s.busyFeed.pop := rfl
@[simp] theorem sampleBusy_countFeed : (sampleBusy s).countFeed = s.countFeed := rfl
@[simp] theorem sampleBusy_rateFeed : (sampleBusy s).rateFeed = s.rateFeed := rfl
@[simp] theorem sampleBusy_busFeed : (sampleBusy s).busFeed = s.busFeed := rfl
@[simp] theorem sampleBusy_nextFree : (sampleBusy s).nextFree = s.nextFree := rfl

/-! ## `latch_descriptor` -/

@[simp] theorem latch_descriptor_params (w : BitVec 128) : (s.latch (.descriptor w)).params = s.params := rfl
@[simp] theorem latch_descriptor_cfg (w : BitVec 128) : (s.latch (.descriptor w)).cfg = s.cfg := rfl
@[simp] theorem latch_descriptor_initialised (w : BitVec 128) : (s.latch (.descriptor w)).initialised = s.initialised := rfl
@[simp] theorem latch_descriptor_ts (w : BitVec 128) : (s.latch (.descriptor w)).ts = s.ts := rfl
@[simp] theorem latch_descriptor_black (w : BitVec 128) : (s.latch (.descriptor w)).black = s.black := rfl
@[simp] theorem latch_descriptor_red (w : BitVec 128) : (s.latch (.descriptor w)).red = s.red := rfl
@[simp] theorem latch_descriptor_pin (w : BitVec 128) : (s.latch (.descriptor w)).pin = s.pin := rfl
@[simp] theorem latch_descriptor_seq (w : BitVec 128) : (s.latch (.descriptor w)).seq = .idle := rfl
@[simp] theorem latch_descriptor_status (w : BitVec 128) : (s.latch (.descriptor w)).status = s.status := rfl
@[simp] theorem latch_descriptor_rdata (w : BitVec 128) : (s.latch (.descriptor w)).rdata = s.rdata := rfl
@[simp] theorem latch_descriptor_cmd (w : BitVec 128) : (s.latch (.descriptor w)).cmd = some (.descriptor w) := rfl
@[simp] theorem latch_descriptor_underway (w : BitVec 128) : (s.latch (.descriptor w)).underway = none := rfl
@[simp] theorem latch_descriptor_tr (w : BitVec 128) : (s.latch (.descriptor w)).tr = s.tr := rfl
@[simp] theorem latch_descriptor_bus (w : BitVec 128) : (s.latch (.descriptor w)).bus = s.bus := rfl
@[simp] theorem latch_descriptor_hbuf (w : BitVec 128) : (s.latch (.descriptor w)).hbuf = s.hbuf := rfl
@[simp] theorem latch_descriptor_hostMoves (w : BitVec 128) : (s.latch (.descriptor w)).hostMoves = s.hostMoves := rfl
@[simp] theorem latch_descriptor_hostRead (w : BitVec 128) : (s.latch (.descriptor w)).hostRead = s.hostRead := rfl
@[simp] theorem latch_descriptor_busyFeed (w : BitVec 128) : (s.latch (.descriptor w)).busyFeed = s.busyFeed := rfl
@[simp] theorem latch_descriptor_countFeed (w : BitVec 128) : (s.latch (.descriptor w)).countFeed = s.countFeed := rfl
@[simp] theorem latch_descriptor_rateFeed (w : BitVec 128) : (s.latch (.descriptor w)).rateFeed = s.rateFeed := rfl
@[simp] theorem latch_descriptor_busFeed (w : BitVec 128) : (s.latch (.descriptor w)).busFeed = s.busFeed := rfl
@[simp] theorem latch_descriptor_nextFree (w : BitVec 128) : (s.latch (.descriptor w)).nextFree = s.nextFree := rfl

/-! ## `enter_descriptor` -/

@[simp] theorem enter_descriptor_params (w : BitVec 128) : (s.enter (.descriptor w)).params = s.params := rfl
@[simp] theorem enter_descriptor_cfg (w : BitVec 128) : (s.enter (.descriptor w)).cfg = s.cfg := rfl
@[simp] theorem enter_descriptor_initialised (w : BitVec 128) : (s.enter (.descriptor w)).initialised = s.initialised := rfl
@[simp] theorem enter_descriptor_ts (w : BitVec 128) : (s.enter (.descriptor w)).ts = s.ts := rfl
@[simp] theorem enter_descriptor_black (w : BitVec 128) : (s.enter (.descriptor w)).black = s.black := rfl
@[simp] theorem enter_descriptor_red (w : BitVec 128) : (s.enter (.descriptor w)).red = s.red := rfl
@[simp] theorem enter_descriptor_pin (w : BitVec 128) : (s.enter (.descriptor w)).pin = s.pin := rfl
@[simp] theorem enter_descriptor_seq (w : BitVec 128) : (s.enter (.descriptor w)).seq = s.seq := rfl
@[simp] theorem enter_descriptor_status (w : BitVec 128) : (s.enter (.descriptor w)).status = s.status := rfl
@[simp] theorem enter_descriptor_rdata (w : BitVec 128) : (s.enter (.descriptor w)).rdata = s.rdata := rfl
@[simp] theorem enter_descriptor_cmd (w : BitVec 128) : (s.enter (.descriptor w)).cmd = none := rfl
@[simp] theorem enter_descriptor_underway (w : BitVec 128) : (s.enter (.descriptor w)).underway = s.underway := rfl
@[simp] theorem enter_descriptor_tr (w : BitVec 128) : (s.enter (.descriptor w)).tr = s.tr := rfl
@[simp] theorem enter_descriptor_bus (w : BitVec 128) : (s.enter (.descriptor w)).bus = s.busFeed.peek freeBus := rfl
@[simp] theorem enter_descriptor_hbuf (w : BitVec 128) : (s.enter (.descriptor w)).hbuf = s.hbuf := rfl
@[simp] theorem enter_descriptor_hostMoves (w : BitVec 128) : (s.enter (.descriptor w)).hostMoves = s.hostMoves := rfl
@[simp] theorem enter_descriptor_hostRead (w : BitVec 128) : (s.enter (.descriptor w)).hostRead = s.hostRead := rfl
@[simp] theorem enter_descriptor_busyFeed (w : BitVec 128) : (s.enter (.descriptor w)).busyFeed = s.busyFeed := rfl
@[simp] theorem enter_descriptor_countFeed (w : BitVec 128) : (s.enter (.descriptor w)).countFeed = s.countFeed := rfl
@[simp] theorem enter_descriptor_rateFeed (w : BitVec 128) : (s.enter (.descriptor w)).rateFeed = s.rateFeed := rfl
@[simp] theorem enter_descriptor_busFeed (w : BitVec 128) : (s.enter (.descriptor w)).busFeed = s.busFeed.pop := rfl
@[simp] theorem enter_descriptor_nextFree (w : BitVec 128) : (s.enter (.descriptor w)).nextFree = s.nextFree := rfl

/-! ## `enter_panel` -/

@[simp] theorem enter_panel_params (w : BitVec 48) : (s.enter (.panel w)).params = s.params := rfl
@[simp] theorem enter_panel_cfg (w : BitVec 48) : (s.enter (.panel w)).cfg = s.cfg := rfl
@[simp] theorem enter_panel_initialised (w : BitVec 48) : (s.enter (.panel w)).initialised = s.initialised := rfl
@[simp] theorem enter_panel_ts (w : BitVec 48) : (s.enter (.panel w)).ts = s.ts := rfl
@[simp] theorem enter_panel_black (w : BitVec 48) : (s.enter (.panel w)).black = s.black := rfl
@[simp] theorem enter_panel_red (w : BitVec 48) : (s.enter (.panel w)).red = s.red := rfl
@[simp] theorem enter_panel_pin (w : BitVec 48) : (s.enter (.panel w)).pin = s.pin := rfl
@[simp] theorem enter_panel_seq (w : BitVec 48) : (s.enter (.panel w)).seq = s.seq := rfl
@[simp] theorem enter_panel_status (w : BitVec 48) : (s.enter (.panel w)).status = s.status := rfl
@[simp] theorem enter_panel_rdata (w : BitVec 48) : (s.enter (.panel w)).rdata = s.rdata := rfl
@[simp] theorem enter_panel_cmd (w : BitVec 48) : (s.enter (.panel w)).cmd = none := rfl
@[simp] theorem enter_panel_underway (w : BitVec 48) : (s.enter (.panel w)).underway = s.underway := rfl
@[simp] theorem enter_panel_tr (w : BitVec 48) : (s.enter (.panel w)).tr = s.tr := rfl
@[simp] theorem enter_panel_bus (w : BitVec 48) : (s.enter (.panel w)).bus = s.bus := rfl
@[simp] theorem enter_panel_hbuf (w : BitVec 48) : (s.enter (.panel w)).hbuf = s.hbuf := rfl
@[simp] theorem enter_panel_hostMoves (w : BitVec 48) : (s.enter (.panel w)).hostMoves = s.hostMoves := rfl
@[simp] theorem enter_panel_hostRead (w : BitVec 48) : (s.enter (.panel w)).hostRead = s.hostRead := rfl
@[simp] theorem enter_panel_busyFeed (w : BitVec 48) : (s.enter (.panel w)).busyFeed = s.busyFeed := rfl
@[simp] theorem enter_panel_countFeed (w : BitVec 48) : (s.enter (.panel w)).countFeed = s.countFeed := rfl
@[simp] theorem enter_panel_rateFeed (w : BitVec 48) : (s.enter (.panel w)).rateFeed = s.rateFeed := rfl
@[simp] theorem enter_panel_busFeed (w : BitVec 48) : (s.enter (.panel w)).busFeed = s.busFeed := rfl
@[simp] theorem enter_panel_nextFree (w : BitVec 48) : (s.enter (.panel w)).nextFree = s.nextFree := rfl

/-! ## `busWrite` -/

@[simp] theorem busWrite_params (fs : List Frame) : (busWrite fs s).params = s.params := rfl
@[simp] theorem busWrite_cfg (fs : List Frame) : (busWrite fs s).cfg = s.cfg := rfl
@[simp] theorem busWrite_initialised (fs : List Frame) : (busWrite fs s).initialised = s.initialised := rfl
@[simp] theorem busWrite_ts (fs : List Frame) : (busWrite fs s).ts = s.ts := rfl
@[simp] theorem busWrite_black (fs : List Frame) : (busWrite fs s).black = s.black := rfl
@[simp] theorem busWrite_red (fs : List Frame) : (busWrite fs s).red = s.red := rfl
@[simp] theorem busWrite_pin (fs : List Frame) : (busWrite fs s).pin = s.pin := rfl
@[simp] theorem busWrite_seq (fs : List Frame) : (busWrite fs s).seq = s.seq := rfl
@[simp] theorem busWrite_status (fs : List Frame) : (busWrite fs s).status = s.status := rfl
@[simp] theorem busWrite_rdata (fs : List Frame) : (busWrite fs s).rdata = s.rdata := rfl
@[simp] theorem busWrite_cmd (fs : List Frame) : (busWrite fs s).cmd = s.cmd := rfl
@[simp] theorem busWrite_underway (fs : List Frame) : (busWrite fs s).underway = s.underway := rfl
@[simp] theorem busWrite_tr (fs : List Frame) : (busWrite fs s).tr = s.tr ++ (fs.take (s.writeCount fs.length)).map Event.frame := rfl
@[simp] theorem busWrite_bus (fs : List Frame) : (busWrite fs s).bus = s.bus := rfl
@[simp] theorem busWrite_hbuf (fs : List Frame) : (busWrite fs s).hbuf = s.hbuf := rfl
@[simp] theorem busWrite_hostMoves (fs : List Frame) : (busWrite fs s).hostMoves = s.hostMoves := rfl
@[simp] theorem busWrite_hostRead (fs : List Frame) : (busWrite fs s).hostRead = s.hostRead := rfl
@[simp] theorem busWrite_busyFeed (fs : List Frame) : (busWrite fs s).busyFeed = s.busyFeed := rfl
@[simp] theorem busWrite_countFeed (fs : List Frame) : (busWrite fs s).countFeed = s.countFeed.pop := rfl
@[simp] theorem busWrite_rateFeed (fs : List Frame) : (busWrite fs s).rateFeed = s.rateFeed := rfl
@[simp] theorem busWrite_busFeed (fs : List Frame) : (busWrite fs s).busFeed = s.busFeed := rfl
@[simp] theorem busWrite_nextFree (fs : List Frame) : (busWrite fs s).nextFree = s.nextFree := rfl

/-! ## `wireEffect` -/

@[simp] theorem wireEffect_params (n : Nat) (m : Bit) : (s.wireEffect n m).params = s.params := rfl
@[simp] theorem wireEffect_cfg (n : Nat) (m : Bit) : (s.wireEffect n m).cfg = s.cfg := rfl
@[simp] theorem wireEffect_initialised (n : Nat) (m : Bit) : (s.wireEffect n m).initialised = s.initialised := rfl
@[simp] theorem wireEffect_ts (n : Nat) (m : Bit) : (s.wireEffect n m).ts = s.ts.map fun u =>
      { u with
        mode := if s.cfg.wiring = .threeWire then m else u.mode
        hz := if s.bus = s.cfg.wantedBus then u.hz else s.cfg.clkHz } := rfl
@[simp] theorem wireEffect_black (n : Nat) (m : Bit) : (s.wireEffect n m).black = s.black := rfl
@[simp] theorem wireEffect_red (n : Nat) (m : Bit) : (s.wireEffect n m).red = s.red := rfl
@[simp] theorem wireEffect_pin (n : Nat) (m : Bit) : (s.wireEffect n m).pin = { s.pin with cs := 1, dc := if s.cfg.wiring = .fourWire then m else s.pin.dc } := rfl
@[simp] theorem wireEffect_seq (n : Nat) (m : Bit) : (s.wireEffect n m).seq = s.seq := rfl
@[simp] theorem wireEffect_status (n : Nat) (m : Bit) : (s.wireEffect n m).status = s.status := rfl
@[simp] theorem wireEffect_rdata (n : Nat) (m : Bit) : (s.wireEffect n m).rdata = s.rdata := rfl
@[simp] theorem wireEffect_cmd (n : Nat) (m : Bit) : (s.wireEffect n m).cmd = s.cmd := rfl
@[simp] theorem wireEffect_underway (n : Nat) (m : Bit) : (s.wireEffect n m).underway = s.underway := rfl
@[simp] theorem wireEffect_tr (n : Nat) (m : Bit) : (s.wireEffect n m).tr = s.tr := rfl
@[simp] theorem wireEffect_bus (n : Nat) (m : Bit) : (s.wireEffect n m).bus = s.cfg.wantedBus := rfl
@[simp] theorem wireEffect_hbuf (n : Nat) (m : Bit) : (s.wireEffect n m).hbuf = s.hbuf := rfl
@[simp] theorem wireEffect_hostMoves (n : Nat) (m : Bit) : (s.wireEffect n m).hostMoves = s.hostMoves := rfl
@[simp] theorem wireEffect_hostRead (n : Nat) (m : Bit) : (s.wireEffect n m).hostRead = s.hostRead := rfl
@[simp] theorem wireEffect_busyFeed (n : Nat) (m : Bit) : (s.wireEffect n m).busyFeed = s.busyFeed := rfl
@[simp] theorem wireEffect_countFeed (n : Nat) (m : Bit) : (s.wireEffect n m).countFeed = s.countFeed.popMany n := rfl
@[simp] theorem wireEffect_rateFeed (n : Nat) (m : Bit) : (s.wireEffect n m).rateFeed = s.rateFeed := rfl
@[simp] theorem wireEffect_busFeed (n : Nat) (m : Bit) : (s.wireEffect n m).busFeed = s.busFeed := rfl
@[simp] theorem wireEffect_nextFree (n : Nat) (m : Bit) : (s.wireEffect n m).nextFree = s.nextFree := rfl

/-! ## `setPlane` -/

@[simp] theorem setPlane_params (p : Plane) (m : Mem) : (s.setPlane p m).params = s.params := by cases p <;> rfl
@[simp] theorem setPlane_cfg (p : Plane) (m : Mem) : (s.setPlane p m).cfg = s.cfg := by cases p <;> rfl
@[simp] theorem setPlane_initialised (p : Plane) (m : Mem) : (s.setPlane p m).initialised = s.initialised := by cases p <;> rfl
@[simp] theorem setPlane_ts (p : Plane) (m : Mem) : (s.setPlane p m).ts = s.ts := by cases p <;> rfl
@[simp] theorem setPlane_pin (p : Plane) (m : Mem) : (s.setPlane p m).pin = s.pin := by cases p <;> rfl
@[simp] theorem setPlane_seq (p : Plane) (m : Mem) : (s.setPlane p m).seq = s.seq := by cases p <;> rfl
@[simp] theorem setPlane_status (p : Plane) (m : Mem) : (s.setPlane p m).status = s.status := by cases p <;> rfl
@[simp] theorem setPlane_rdata (p : Plane) (m : Mem) : (s.setPlane p m).rdata = s.rdata := by cases p <;> rfl
@[simp] theorem setPlane_cmd (p : Plane) (m : Mem) : (s.setPlane p m).cmd = s.cmd := by cases p <;> rfl
@[simp] theorem setPlane_underway (p : Plane) (m : Mem) : (s.setPlane p m).underway = s.underway := by cases p <;> rfl
@[simp] theorem setPlane_tr (p : Plane) (m : Mem) : (s.setPlane p m).tr = s.tr := by cases p <;> rfl
@[simp] theorem setPlane_bus (p : Plane) (m : Mem) : (s.setPlane p m).bus = s.bus := by cases p <;> rfl
@[simp] theorem setPlane_hbuf (p : Plane) (m : Mem) : (s.setPlane p m).hbuf = s.hbuf := by cases p <;> rfl
@[simp] theorem setPlane_hostMoves (p : Plane) (m : Mem) : (s.setPlane p m).hostMoves = s.hostMoves := by cases p <;> rfl
@[simp] theorem setPlane_hostRead (p : Plane) (m : Mem) : (s.setPlane p m).hostRead = s.hostRead := by cases p <;> rfl
@[simp] theorem setPlane_busyFeed (p : Plane) (m : Mem) : (s.setPlane p m).busyFeed = s.busyFeed := by cases p <;> rfl
@[simp] theorem setPlane_countFeed (p : Plane) (m : Mem) : (s.setPlane p m).countFeed = s.countFeed := by cases p <;> rfl
@[simp] theorem setPlane_rateFeed (p : Plane) (m : Mem) : (s.setPlane p m).rateFeed = s.rateFeed := by cases p <;> rfl
@[simp] theorem setPlane_busFeed (p : Plane) (m : Mem) : (s.setPlane p m).busFeed = s.busFeed := by cases p <;> rfl
@[simp] theorem setPlane_nextFree (p : Plane) (m : Mem) : (s.setPlane p m).nextFree = s.nextFree := by cases p <;> rfl

/-- The plane written reads as the new one. -/
@[simp] theorem setPlane_plane_same (p : Plane) (m : Mem) : (s.setPlane p m).plane p = m := by cases p <;> rfl

/-- The other plane stays (R71). -/
theorem setPlane_plane_other (p q : Plane) (m : Mem) (h : q ≠ p) : (s.setPlane p m).plane q = s.plane q := by
  cases p <;> cases q <;> first | rfl | exact absurd rfl h

/-- Replacing a plane by itself changes nothing. -/
@[simp] theorem setPlane_plane_self (p : Plane) : s.setPlane p (s.plane p) = s := by cases p <;> rfl

/-- The last plane written wins. -/
@[simp] theorem setPlane_setPlane_same (p : Plane) (m n : Mem) : (s.setPlane p m).setPlane p n = s.setPlane p n := by
  cases p <;> rfl

/-- Writes to different planes commute (R71). -/
theorem setPlane_comm (p q : Plane) (m n : Mem) (h : q ≠ p) :
    (s.setPlane p m).setPlane q n = (s.setPlane q n).setPlane p m := by
  cases p <;> cases q <;> first | rfl | exact absurd rfl h

@[simp] theorem emit_plane (es : List Event) (pl : Plane) : (s.emit es).plane pl = s.plane pl := by cases pl <;> rfl
@[simp] theorem drivePin_plane (p : Pin) (l : Bit) (pl : Plane) : (s.drivePin p l).plane pl = s.plane pl := by cases pl <;> rfl
@[simp] theorem setSeq_plane (q : Seq) (pl : Plane) : (s.setSeq q).plane pl = s.plane pl := by cases pl <;> rfl
@[simp] theorem deliver_plane (e : Status) (pl : Plane) : (s.deliver e).plane pl = s.plane pl := by cases pl <;> rfl
@[simp] theorem complete_plane (pl : Plane) : s.complete.plane pl = s.plane pl := by cases pl <;> rfl
@[simp] theorem setTsMode_plane (m : Bit) (pl : Plane) : (s.setTsMode m).plane pl = s.plane pl := by cases pl <;> rfl
@[simp] theorem sampleBusy_plane (pl : Plane) : (sampleBusy s).plane pl = s.plane pl := by cases pl <;> rfl
@[simp] theorem latch_descriptor_plane (w : BitVec 128) (pl : Plane) : (s.latch (.descriptor w)).plane pl = s.plane pl := by cases pl <;> rfl
@[simp] theorem enter_descriptor_plane (w : BitVec 128) (pl : Plane) : (s.enter (.descriptor w)).plane pl = s.plane pl := by cases pl <;> rfl
@[simp] theorem enter_panel_plane (w : BitVec 48) (pl : Plane) : (s.enter (.panel w)).plane pl = s.plane pl := by cases pl <;> rfl
@[simp] theorem busWrite_plane (fs : List Frame) (pl : Plane) : (busWrite fs s).plane pl = s.plane pl := by cases pl <;> rfl
@[simp] theorem wireEffect_plane (n : Nat) (m : Bit) (pl : Plane) : (s.wireEffect n m).plane pl = s.plane pl := by cases pl <;> rfl

end Sys2Proof.Machine
end

