-- ==== Sys2Proof/Laws/Memory.lean ====
section
/-! SUPPORT. The laws of the byte-addressed spaces: a read after a write, the canonical form and its preservation, the pixel view
of a plane. -/

namespace Sys2Proof.Machine

open Sys2Proof

/-! ## Cells -/

@[simp] theorem lookupCell_insertCell_same (a : Nat) (v : Byte) (cs : List Host.Cell) :
    lookupCell a (insertCell a v cs) = some v := by
  induction cs with
  | nil => simp [insertCell, lookupCell]
  | cons c cs ih =>
    obtain ⟨b, w⟩ := c
    simp only [insertCell]
    split
    · simp [lookupCell]
    · split
      · simp [lookupCell]
      · simp [lookupCell, *]

theorem lookupCell_insertCell_other {a b : Nat} (h : b ≠ a) (v : Byte) (cs : List Host.Cell) :
    lookupCell b (insertCell a v cs) = lookupCell b cs := by
  induction cs with
  | nil => simp [insertCell, lookupCell, h]
  | cons c cs ih =>
    obtain ⟨d, w⟩ := c
    simp only [insertCell]
    split
    · simp [lookupCell, h]
    · split
      · next _ h2 => subst h2; simp [lookupCell, h]
      · simp only [lookupCell, ih]

theorem lookupCell_eraseCell_other {a b : Nat} (h : b ≠ a) (cs : List Host.Cell) :
    lookupCell b (eraseCell a cs) = lookupCell b cs := by
  induction cs with
  | nil => rfl
  | cons c cs ih =>
    obtain ⟨d, w⟩ := c
    simp only [eraseCell]
    split
    · next h2 => subst h2; simp [lookupCell, h]
    · simp only [lookupCell, ih]

/-- Every cell of an insertion is the new one or an old one. -/
theorem mem_insertCell {a : Nat} {v : Byte} {cs : List Host.Cell} {c : Host.Cell}
    (h : c ∈ insertCell a v cs) : c = (a, v) ∨ c ∈ cs := by
  induction cs with
  | nil => simpa [insertCell] using h
  | cons d cs ih =>
    obtain ⟨b, w⟩ := d
    simp only [insertCell] at h
    split at h
    · simpa using h
    · split at h
      · rcases List.mem_cons.1 h with h | h
        · exact .inl h
        · exact .inr (List.mem_cons_of_mem _ h)
      · rcases List.mem_cons.1 h with h | h
        · exact .inr (h ▸ List.mem_cons_self)
        · exact (ih h).imp id (List.mem_cons_of_mem _)

/-- Every cell left by an erasure is an old one. -/
theorem mem_eraseCell {a : Nat} {cs : List Host.Cell} {c : Host.Cell} (h : c ∈ eraseCell a cs) : c ∈ cs := by
  induction cs with
  | nil => exact h
  | cons d cs ih =>
    obtain ⟨b, w⟩ := d
    simp only [eraseCell] at h
    split at h
    · exact List.mem_cons_of_mem _ h
    · rcases List.mem_cons.1 h with h | h
      · exact h ▸ List.mem_cons_self
      · exact List.mem_cons_of_mem _ (ih h)

/-- Addresses strictly rising. -/
abbrev Rising (cs : List Host.Cell) : Prop := cs.Pairwise (fun c d => c.1 < d.1)

theorem insertCell_rising {a : Nat} {v : Byte} {cs : List Host.Cell} (h : Rising cs) :
    Rising (insertCell a v cs) := by
  induction cs with
  | nil => simp [insertCell]
  | cons c cs ih =>
    obtain ⟨b, w⟩ := c
    obtain ⟨h1, h2⟩ := List.pairwise_cons.1 h
    simp only [insertCell]
    split
    · next hab =>
      refine List.pairwise_cons.2 ⟨fun d hd => ?_, h⟩
      rcases List.mem_cons.1 hd with rfl | hd
      · exact hab
      · exact lt_trans hab (h1 d hd)
    · split
      · next hab => subst hab; exact List.pairwise_cons.2 ⟨h1, h2⟩
      · next hnl hne =>
        refine List.pairwise_cons.2 ⟨fun d hd => ?_, ih h2⟩
        rcases mem_insertCell hd with rfl | hd
        · simp only; omega
        · exact h1 d hd

theorem eraseCell_rising {a : Nat} {cs : List Host.Cell} (h : Rising cs) : Rising (eraseCell a cs) := by
  induction cs with
  | nil => exact h
  | cons c cs ih =>
    obtain ⟨b, w⟩ := c
    obtain ⟨h1, h2⟩ := List.pairwise_cons.1 h
    simp only [eraseCell]
    split
    · exact h2
    · exact List.pairwise_cons.2 ⟨fun d hd => h1 d (mem_eraseCell hd), ih h2⟩

theorem lookupCell_none_of_lt {a : Nat} {cs : List Host.Cell} (h : ∀ c ∈ cs, a < c.1) : lookupCell a cs = none := by
  induction cs with
  | nil => rfl
  | cons c cs ih =>
    obtain ⟨b, w⟩ := c
    have hb := h (b, w) List.mem_cons_self
    simp only [lookupCell]
    rw [if_neg (by simp only at hb; omega)]
    exact ih fun d hd => h d (List.mem_cons_of_mem _ hd)

theorem lookupCell_eraseCell_same {a : Nat} {cs : List Host.Cell} (h : Rising cs) :
    lookupCell a (eraseCell a cs) = none := by
  induction cs with
  | nil => rfl
  | cons c cs ih =>
    obtain ⟨b, w⟩ := c
    obtain ⟨h1, h2⟩ := List.pairwise_cons.1 h
    simp only [eraseCell]
    split
    · next hab => subst hab; exact lookupCell_none_of_lt h1
    · next hab => simp only [lookupCell, if_neg hab]; exact ih h2

theorem lookupCell_some_mem {a : Nat} {v : Byte} {cs : List Host.Cell} (h : lookupCell a cs = some v) :
    (a, v) ∈ cs := by
  induction cs with
  | nil => simp [lookupCell] at h
  | cons c cs ih =>
    obtain ⟨b, w⟩ := c
    simp only [lookupCell] at h
    split at h
    · next hab => subst hab; simp_all
    · exact List.mem_cons_of_mem _ (ih h)

theorem lookupCell_of_mem {a : Nat} {v : Byte} {cs : List Host.Cell} (h : Rising cs) (hm : (a, v) ∈ cs) :
    lookupCell a cs = some v := by
  induction cs with
  | nil => simp at hm
  | cons c cs ih =>
    obtain ⟨b, w⟩ := c
    obtain ⟨h1, h2⟩ := List.pairwise_cons.1 h
    rcases List.mem_cons.1 hm with hm | hm
    · simp_all [lookupCell]
    · have := h1 _ hm
      simp only [lookupCell]
      rw [if_neg (by simp only at this; omega)]
      exact ih h2 hm

/-! ## Reading and writing -/

@[simp] theorem write_fill (m : Mem) (a : Nat) (v : Byte) : (m.write a v).fill = m.fill := by
  unfold Mem.write; split <;> rfl

/-- A read after a write to the same address gives the value written. -/
theorem read_write_same {size : Nat} {m : Mem} (h : m.wf size) (a : Nat) (v : Byte) : (m.write a v).read a = v := by
  by_cases hv : v = fillByte m.fill a
  · simp [Mem.write, Mem.read, ← hv, lookupCell_eraseCell_same h.1]
  · simp [Mem.write, Mem.read, hv]

/-- A write leaves every other address alone. -/
theorem read_write_other {m : Mem} {a b : Nat} (h : b ≠ a) (v : Byte) : (m.write a v).read b = m.read b := by
  by_cases hv : v = fillByte m.fill a
  · simp [Mem.write, Mem.read, ← hv, lookupCell_eraseCell_other h]
  · simp [Mem.write, Mem.read, hv, lookupCell_insertCell_other h]

/-- A write keeps the canonical form. -/
theorem write_wf {size : Nat} {m : Mem} (h : m.wf size) {a : Nat} (ha : a < size) (v : Byte) : (m.write a v).wf size := by
  refine ⟨?_, ?_⟩
  · unfold Mem.write
    split
    · exact eraseCell_rising h.1
    · exact insertCell_rising h.1
  · intro c hc
    rw [write_fill]
    unfold Mem.write at hc
    split at hc
    · exact h.2 c (mem_eraseCell hc)
    · next hv =>
      rcases mem_insertCell hc with rfl | hc
      · exact ⟨ha, hv⟩
      · exact h.2 c hc

/-- The cleared plane is in canonical form. -/
@[simp] theorem cleared_wf (size : Nat) : Mem.cleared.wf size := by simp [Mem.wf, Mem.cleared]

/-- The unspecified space is in canonical form. -/
@[simp] theorem unspecified_wf (size seed : Nat) : (Mem.unspecified seed).wf size := by simp [Mem.wf, Mem.unspecified]

/-- Every byte of the cleared plane is 0xFF (R214). -/
@[simp] theorem read_cleared (a : Nat) : Mem.cleared.read a = 0xFF := rfl

/-- Two rising lists with the same lookups are one list. -/
theorem cells_ext {cs ds : List Host.Cell} (hc : Rising cs) (hd : Rising ds)
    (h : ∀ a, lookupCell a cs = lookupCell a ds) : cs = ds := by
  induction cs generalizing ds with
  | nil =>
    cases ds with
    | nil => rfl
    | cons d ds =>
      have := h d.1
      simp [lookupCell] at this
  | cons c cs ih =>
    obtain ⟨b, w⟩ := c
    obtain ⟨h1, h2⟩ := List.pairwise_cons.1 hc
    cases ds with
    | nil => have := h b; simp [lookupCell] at this
    | cons d ds =>
      obtain ⟨b', w'⟩ := d
      obtain ⟨k1, k2⟩ := List.pairwise_cons.1 hd
      have hb : b = b' := by
        by_contra hne
        rcases Nat.lt_or_gt_of_ne hne with hlt | hlt
        · have := h b
          rw [lookupCell_none_of_lt (cs := (b', w') :: ds)] at this
          · simp [lookupCell] at this
          · intro e he
            rcases List.mem_cons.1 he with rfl | he
            · exact hlt
            · exact lt_trans hlt (k1 e he)
        · have := h b'
          rw [lookupCell_none_of_lt (cs := (b, w) :: cs)] at this
          · simp [lookupCell] at this
          · intro e he
            rcases List.mem_cons.1 he with rfl | he
            · exact hlt
            · exact lt_trans hlt (h1 e he)
      subst hb
      have hw : w = w' := by simpa [lookupCell] using h b
      subst hw
      congr 1
      refine ih h2 k2 fun a => ?_
      by_cases ha : a = b
      · subst ha; rw [lookupCell_none_of_lt h1, lookupCell_none_of_lt k1]
      · simpa [lookupCell, ha] using h a

/-- Equal memories are equal data: two spaces in canonical form with the same fill that read the same everywhere are one. -/
theorem mem_ext {size : Nat} {m n : Mem} (hm : m.wf size) (hn : n.wf size) (hf : m.fill = n.fill)
    (h : ∀ a, a < size → m.read a = n.read a) : m = n := by
  obtain ⟨fm, cm⟩ := m
  obtain ⟨fn, cn⟩ := n
  simp only at hf
  subst hf
  congr 1
  refine cells_ext hm.1 hn.1 fun a => ?_
  have key : ∀ {x y : List Host.Cell}, Mem.wf size ⟨fm, x⟩ → Mem.wf size ⟨fm, y⟩ →
      (∀ a, a < size → Mem.read ⟨fm, x⟩ a = Mem.read ⟨fm, y⟩ a) → ∀ v, lookupCell a x = some v → lookupCell a y = some v := by
    intro x y hx hy hr v hv
    have hmem := lookupCell_some_mem hv
    obtain ⟨hlt, hne⟩ := hx.2 _ hmem
    have := hr a hlt
    simp only [Mem.read, hv] at this
    cases hy' : lookupCell a y with
    | none => rw [hy'] at this; exact absurd this hne
    | some u => rw [hy'] at this; simp only at this; rw [this]
  cases hx : lookupCell a cm with
  | some v => exact (key hm hn h v hx).symm
  | none =>
    cases hy : lookupCell a cn with
    | none => rfl
    | some v =>
      have := key hn hm (fun a ha => (h a ha).symm) v hy
      rw [hx] at this; cases this

/-! ## Pixels -/

/-- The write transform's byte index stays inside the plane (R81, R94). -/
theorem wbyte_lt {x y : Nat} (hx : x < 200) (_hy : y < 200) : wbyte x y < 5000 := by
  simp only [wbyte, Config.height, Config.bytesPerRow]; omega

/-- The read transform's byte index stays inside the plane (R82, R94). -/
theorem rbyte_lt {x y : Nat} (hx : x < 200) (hy : y < 200) : rbyte x y < 5000 := by
  simp only [rbyte, Config.bytesPerRow]; omega

/-- The read path at `(x, y)` looks where the write path looks at `(x, 199 - y)` (R82). -/
theorem rbyte_eq_wbyte {x y : Nat} (hy : y < 200) : rbyte x y = wbyte x (199 - y) := by
  simp only [rbyte, wbyte, Config.height, Config.bytesPerRow]; omega

theorem readPixel_eq_pixel (m : Mem) {x y : Nat} (hy : y < 200) : m.readPixel x y = m.pixel x (199 - y) := by
  simp only [Mem.readPixel, Mem.pixel, rbyte_eq_wbyte hy]; rfl

/-- Two pixels of the panel with the same byte and bit are one (R81). -/
theorem pixel_address_inj {x y x' y' : Nat} (hx : x < 200) (hy : y < 200) (hx' : x' < 200) (hy' : y' < 200)
    (hb : wbyte x y = wbyte x' y') (hk : wbit x = wbit x') : x = x' ∧ y = y' := by
  simp only [wbyte, wbit, Config.height, Config.bytesPerRow] at hb hk
  omega

theorem getLsbD_clearBit (v : Byte) (b i : Nat) (hi : i < 8) :
    (clearBit v b).getLsbD i = (v.getLsbD i && decide (i ≠ b)) := by
  simp only [clearBit, BitVec.getLsbD_and, BitVec.getLsbD_not, BitVec.getLsbD_shiftLeft, hi]
  by_cases h : i < b
  · simp [h, Nat.ne_of_lt h]
  · by_cases h2 : i = b
    · subst h2; simp
    · have : i - b ≠ 0 := by omega
      simp [h, h2, this]

theorem getLsbD_setBit (v : Byte) (b i : Nat) (hi : i < 8) :
    (setBit v b).getLsbD i = (v.getLsbD i || decide (i = b)) := by
  simp only [setBit, BitVec.getLsbD_or, BitVec.getLsbD_shiftLeft, hi]
  by_cases h : i < b
  · simp [h, Nat.ne_of_lt h]
  · by_cases h2 : i = b
    · subst h2; simp
    · have : i - b ≠ 0 := by omega
      simp [h, h2, this]

theorem wbit_lt (x : Nat) : wbit x < 8 := by simp only [wbit]; omega

theorem bit_cases (v : Bit) : v = 0 ∨ v = 1 := by
  rcases BitVec.eq_zero_or_eq_one v with h | h
  · exact .inl h
  · exact .inr h

@[simp] theorem writePixel_fill (m : Mem) (x y : Nat) (v : Bit) : (m.writePixel x y v).fill = m.fill := write_fill ..

/-- A pixel write keeps the canonical form. -/
theorem writePixel_wf {m : Mem} (h : m.wf 5000) {x y : Nat} (hx : x < 200) (hy : y < 200) (v : Bit) :
    (m.writePixel x y v).wf 5000 := write_wf h (wbyte_lt hx hy) _

/-- A pixel write leaves every other byte alone (R210). -/
theorem read_writePixel_other {m : Mem} {x y a : Nat} (h : a ≠ wbyte x y) (v : Bit) :
    (m.writePixel x y v).read a = m.read a := read_write_other h _

/-- The byte a pixel write leaves (R210). -/
theorem read_writePixel_same {m : Mem} (h : m.wf 5000) (x y : Nat) (v : Bit) :
    (m.writePixel x y v).read (wbyte x y)
      = if v = 1 then clearBit (m.read (wbyte x y)) (wbit x) else setBit (m.read (wbyte x y)) (wbit x) :=
  read_write_same h _ _

/-- The pixel written reads as the value written (R216 (c)). -/
theorem pixel_writePixel_same {m : Mem} (h : m.wf 5000) (x y : Nat) (v : Bit) : (m.writePixel x y v).pixel x y = v := by
  rw [Mem.pixel, read_writePixel_same h]
  rcases bit_cases v with rfl | rfl
  · rw [if_neg (by decide), getLsbD_setBit _ _ _ (wbit_lt x)]; simp [pixelOfBit]
  · rw [if_pos rfl, getLsbD_clearBit _ _ _ (wbit_lt x)]; simp [pixelOfBit]

/-- Every other pixel of the panel stays (R210). -/
theorem pixel_writePixel_other {m : Mem} (h : m.wf 5000) {x y x' y' : Nat} (hx : x < 200) (hy : y < 200)
    (hx' : x' < 200) (hy' : y' < 200) (hne : ¬(x' = x ∧ y' = y)) (v : Bit) :
    (m.writePixel x y v).pixel x' y' = m.pixel x' y' := by
  by_cases hb : wbyte x' y' = wbyte x y
  · have hk : wbit x' ≠ wbit x := fun hk => hne (pixel_address_inj hx' hy' hx hy hb hk)
    rw [Mem.pixel, Mem.pixel, hb, read_writePixel_same h]
    rcases bit_cases v with rfl | rfl
    · rw [if_neg (by decide), getLsbD_setBit _ _ _ (wbit_lt x')]; simp [hk]
    · rw [if_pos rfl, getLsbD_clearBit _ _ _ (wbit_lt x')]; simp [hk]
  · rw [Mem.pixel, Mem.pixel, read_writePixel_other hb]

/-- Every bit of the plane is one pixel of the panel (R81). -/
theorem exists_pixel_of_bit {a b : Nat} (ha : a < 5000) (hb : b < 8) :
    ∃ x y, x < 200 ∧ y < 200 ∧ wbyte x y = a ∧ wbit x = b := by
  refine ⟨8 * (a % 25) + (7 - b), 199 - a / 25, by omega, by omega, ?_, ?_⟩
  · simp only [wbyte, Config.height, Config.bytesPerRow]; omega
  · simp only [wbit]; omega

theorem pixelOfBit_inj {b c : Bool} (h : pixelOfBit b = pixelOfBit c) : b = c := by
  cases b <;> cases c <;> first | rfl | (exfalso; revert h; decide)

/-- Two planes in canonical form with the same fill and the same pixels are one. -/
theorem plane_ext {m n : Mem} (hm : m.wf 5000) (hn : n.wf 5000) (hf : m.fill = n.fill)
    (h : ∀ x y, x < 200 → y < 200 → m.pixel x y = n.pixel x y) : m = n := by
  refine mem_ext hm hn hf fun a ha => ?_
  apply BitVec.eq_of_getLsbD_eq
  intro b hb
  obtain ⟨x, y, hx, hy, rfl, rfl⟩ := exists_pixel_of_bit ha hb
  exact pixelOfBit_inj (h x y hx hy)

/-! ## Painting -/

@[simp] theorem paint_nil (m : Mem) : m.paint [] = m := rfl

@[simp] theorem paint_cons (m : Mem) (d : Dot) (ds : List Dot) :
    m.paint (d :: ds) = (m.writePixel d.x d.y d.v).paint ds := rfl

theorem paint_append (m : Mem) (ds es : List Dot) : m.paint (ds ++ es) = (m.paint ds).paint es := by
  simp [Mem.paint, List.foldl_append]

@[simp] theorem paint_fill (m : Mem) (ds : List Dot) : (m.paint ds).fill = m.fill := by
  induction ds generalizing m with
  | nil => rfl
  | cons d ds ih => rw [paint_cons, ih, writePixel_fill]

/-- Every dot of a list lies on the panel. -/
abbrev OnPanel (ds : List Dot) : Prop := ∀ d ∈ ds, d.x < 200 ∧ d.y < 200

theorem paint_wf {m : Mem} (h : m.wf 5000) {ds : List Dot} (hd : OnPanel ds) : (m.paint ds).wf 5000 := by
  induction ds generalizing m with
  | nil => exact h
  | cons d ds ih =>
    obtain ⟨hx, hy⟩ := hd d List.mem_cons_self
    exact ih (writePixel_wf h hx hy _) fun e he => hd e (List.mem_cons_of_mem _ he)

/-- A byte no dot writes into stays. -/
theorem read_paint_untouched {m : Mem} {ds : List Dot} {a : Nat} (hn : ∀ d ∈ ds, a ≠ wbyte d.x d.y) :
    (m.paint ds).read a = m.read a := by
  induction ds generalizing m with
  | nil => rfl
  | cons d ds ih =>
    rw [paint_cons, ih fun e he => hn e (List.mem_cons_of_mem _ he)]
    exact read_writePixel_other (hn d List.mem_cons_self) _

/-- A pixel no dot writes stays. -/
theorem pixel_paint_untouched {m : Mem} (h : m.wf 5000) {ds : List Dot} (hd : OnPanel ds) {x y : Nat}
    (hx : x < 200) (hy : y < 200) (hn : ∀ d ∈ ds, ¬(d.x = x ∧ d.y = y)) : (m.paint ds).pixel x y = m.pixel x y := by
  induction ds generalizing m with
  | nil => rfl
  | cons d ds ih =>
    obtain ⟨hdx, hdy⟩ := hd d List.mem_cons_self
    rw [paint_cons, ih (writePixel_wf h hdx hdy _) (fun e he => hd e (List.mem_cons_of_mem _ he))
      (fun e he => hn e (List.mem_cons_of_mem _ he))]
    exact pixel_writePixel_other h hdx hdy hx hy
      (fun e => hn d List.mem_cons_self ⟨e.1.symm, e.2.symm⟩) _

/-- A pixel some dot writes, all dots on it with one value, has that value. -/
theorem pixel_paint_touched {m : Mem} (h : m.wf 5000) {ds : List Dot} (hd : OnPanel ds) {x y : Nat} {v : Bit}
    (hx : x < 200) (hy : y < 200) (hm : ∃ d ∈ ds, d.x = x ∧ d.y = y)
    (hv : ∀ d ∈ ds, d.x = x → d.y = y → d.v = v) : (m.paint ds).pixel x y = v := by
  induction ds generalizing m with
  | nil => simp at hm
  | cons d ds ih =>
    obtain ⟨hdx, hdy⟩ := hd d List.mem_cons_self
    have hd' : OnPanel ds := fun e he => hd e (List.mem_cons_of_mem _ he)
    rw [paint_cons]
    by_cases hl : ∃ e ∈ ds, e.x = x ∧ e.y = y
    · exact ih (writePixel_wf h hdx hdy _) hd' hl fun e he => hv e (List.mem_cons_of_mem _ he)
    · rw [pixel_paint_untouched (writePixel_wf h hdx hdy _) hd' hx hy
        (fun e he hh => hl ⟨e, he, hh⟩)]
      obtain ⟨e, he, hex, hey⟩ := hm
      rcases List.mem_cons.1 he with rfl | he
      · subst hex; subst hey
        rw [hv e List.mem_cons_self rfl rfl]
        exact pixel_writePixel_same h _ _ _
      · exact absurd ⟨e, he, hex, hey⟩ hl

end Sys2Proof.Machine
end

