-- ==== Sys2Proof/Laws/Transport.lean ====
section
/-! SUPPORT. What the transport can do, said once: the trace of a transaction and its transaction view, sequences of transactions that
complete or stop at the first short write, waits, chip-select framing. -/

namespace Sys2Proof.Machine

open Sys2Proof

/-! ## Draw feeds -/

@[simp] theorem Feed.nth_zero {α : Type} (free : Nat → α) (f : Feed α) : f.nth free 0 = f.peek free := by
  obtain ⟨g, u⟩ := f; cases g <;> rfl

@[simp] theorem Feed.nth_pop {α : Type} (free : Nat → α) (f : Feed α) (i : Nat) : f.pop.nth free i = f.nth free (i + 1) := by
  obtain ⟨g, u⟩ := f
  have h : u + 1 + i = u + (i + 1) := by omega
  cases g <;> simp [Feed.nth, Feed.pop, h]

theorem Feed.nth_popMany {α : Type} (free : Nat → α) (f : Feed α) (n i : Nat) :
    (f.popMany n).nth free i = f.nth free (n + i) := by
  simp only [Feed.nth, Feed.popMany, List.getD_eq_getElem?_getD, List.getElem?_drop, Nat.add_assoc]

@[simp] theorem Feed.popMany_zero {α : Type} (f : Feed α) : f.popMany 0 = f := rfl

@[simp] theorem Feed.popMany_pop {α : Type} (f : Feed α) (n : Nat) : f.pop.popMany n = f.popMany (n + 1) := by
  obtain ⟨g, u⟩ := f
  have h : u + 1 + n = u + (n + 1) := by omega
  cases g <;> simp [Feed.popMany, Feed.pop, h]

theorem Feed.popMany_popMany {α : Type} (f : Feed α) (m n : Nat) : (f.popMany m).popMany n = f.popMany (m + n) := by
  simp [Feed.popMany, List.drop_drop, Nat.add_assoc]

theorem Feed.popMany_one {α : Type} (f : Feed α) : f.popMany 1 = f.pop := by
  rw [← Feed.popMany_zero f.pop, Feed.popMany_pop]

/-! ## Micro-operations -/

@[simp] theorem andThen_done (s : State) (f : State → Micro) : (Micro.done s).andThen f = f s := rfl
@[simp] theorem andThen_raised (e : Status) (s : State) (f : State → Micro) :
    (Micro.raised e s).andThen f = .raised e s := rfl

theorem andThen_assoc (m : Micro) (f g : State → Micro) :
    (m.andThen f).andThen g = m.andThen fun s => (f s).andThen g := by cases m <;> rfl

@[simp] theorem sendAll_nil (s : State) : sendAll [] s = .done s := rfl
theorem sendAll_cons (t : Txn) (ts : List Txn) (s : State) :
    sendAll (t :: ts) s = (tWrBytes t s).andThen (sendAll ts) := rfl

/-- Sending two lists of transactions is sending their concatenation. -/
theorem sendAll_append (ts us : List Txn) (s : State) :
    sendAll (ts ++ us) s = (sendAll ts s).andThen (sendAll us) := by
  induction ts generalizing s with
  | nil => rfl
  | cons t ts ih =>
    rw [List.cons_append, sendAll_cons, sendAll_cons, andThen_assoc]
    congr 1
    funext u
    exact ih u

/-! ## One transaction -/

/-- The events the bus check of a transaction emits (R141). -/
def busCheckEvents (s : State) : List Event :=
  if s.bus = s.cfg.wantedBus then [] else [.busCfg (widthOf s.cfg.wiring) s.cfg.clkHz]

/-- The events that carry the mode before chip-select falls (R143, R144). -/
def modeEvents (w : Wiring) (m : Bit) : List Event :=
  match w with
  | .fourWire => [.pinSet .dc m]
  | .threeWire => []

/-- The events of one transaction of which `n` frames go out, after its bus check (R143, R144). -/
def coreEvents (w : Wiring) (t : Txn) (n : Nat) : List Event :=
  modeEvents w t.mode ++ ([.pinSet .cs 0] ++ ((t.bytes.take n).map fun b => Event.frame (frameOf w t.mode b)) ++ [.pinSet .cs 1])

/-- The state one transaction leaves, complete or not (R143, R144, R146). -/
theorem tWrBytes_eq (t : Txn) (s : State) :
    tWrBytes t s =
      if t.bytes.length ≤ s.countFeed.peek Config.freeCount then
        .done { s.wireEffect 1 t.mode with
          tr := s.tr ++ (busCheckEvents s ++ coreEvents s.cfg.wiring t t.bytes.length) }
      else
        .raised .transportError
          { s.wireEffect 1 t.mode with
            tr := s.tr ++ (busCheckEvents s ++ coreEvents s.cfg.wiring t (s.countFeed.peek Config.freeCount)) } := by
  obtain ⟨params, cfg, ini, ts, black, red, pin, seq, status, rdata, cmd, uw, tr, bus, hbuf, hm, hr, bf, cf, rf, buf, nf⟩ := s
  obtain ⟨w, b1, b2, b3, b4, b5, b6, b7, hz⟩ := cfg
  obtain ⟨cs, dc, rst⟩ := pin
  have hfeed : ∀ f : Feed Nat, f.popMany 1 = f.pop := Feed.popMany_one
  by_cases hlen : t.bytes.length ≤ cf.peek Config.freeCount
  · cases w <;>
      simp only [tWrBytes, tBusCheck, carryMode, busWrite, State.drivePin, State.emit, State.setTsMode,
        State.writeCount, Cfg.wantedBus, widthOf, setPinLevel, State.wireEffect, coreEvents, busCheckEvents, modeEvents]
    · by_cases hb : bus = { width := .bits8, hz := hz } <;> cases ts <;>
        simp [hb, hfeed, hlen, ← List.map_take, frameOf, Function.comp_def]
    · by_cases hb : bus = { width := .bits9, hz := hz } <;> cases ts <;>
        simp [hb, hfeed, hlen, ← List.map_take, frameOf, Function.comp_def]
  · have hmin : min (cf.peek Config.freeCount) t.bytes.length = cf.peek Config.freeCount := by omega
    have hne : cf.peek Config.freeCount ≠ t.bytes.length := by omega
    cases w <;>
      simp only [tWrBytes, tBusCheck, carryMode, busWrite, State.drivePin, State.emit, State.setTsMode,
        State.writeCount, Cfg.wantedBus, widthOf, setPinLevel, State.wireEffect, coreEvents, busCheckEvents, modeEvents]
    · by_cases hb : bus = { width := .bits8, hz := hz } <;> cases ts <;>
        simp [hb, hfeed, hlen, hmin, hne, ← List.map_take, frameOf, Function.comp_def]
    · by_cases hb : bus = { width := .bits9, hz := hz } <;> cases ts <;>
        simp [hb, hfeed, hlen, hmin, hne, ← List.map_take, frameOf, Function.comp_def]

/-! ## Sequences of transactions -/

/-- Effects of transactions add up: the last mode counts, the bus is right after the first. -/
theorem wireEffect_wireEffect (s : State) (n k : Nat) (m m' : Bit) (x : List Event) :
    State.wireEffect { s.wireEffect n m with tr := x } k m' = { s.wireEffect (n + k) m' with tr := x } := by
  obtain ⟨params, cfg, ini, ts, black, red, pin, seq, status, rdata, cmd, uw, tr, bus, hbuf, hm, hr, bf, cf, rf, buf, nf⟩ := s
  cases ts <;> cases h : cfg.wiring <;>
    simp [State.wireEffect, Cfg.wantedBus, Feed.popMany_popMany, h]

@[simp] theorem busCheckEvents_wireEffect (s : State) (n : Nat) (m : Bit) (x : List Event) :
    busCheckEvents { s.wireEffect n m with tr := x } = [] := by
  simp [busCheckEvents, State.wireEffect]

/-- The events of complete transactions, after the first's bus check. -/
def wholeEvents (w : Wiring) (ts : List Txn) : List Event := ts.flatMap fun t => coreEvents w t t.bytes.length

theorem completes_nil (s : State) : s.completes [] := by intro i h; simp at h

theorem completes_cons (s : State) (t : Txn) (ts : List Txn) :
    s.completes (t :: ts) ↔
      t.bytes.length ≤ s.countFeed.peek Config.freeCount ∧
        ∀ m x, State.completes { s.wireEffect 1 m with tr := x } ts := by
  constructor
  · intro h
    refine ⟨by have := h 0 (by simp); rwa [Feed.nth_zero] at this, fun m x i hi => ?_⟩
    have := h (i + 1) (by simpa using hi)
    simpa [State.wireEffect, Feed.popMany_one] using this
  · rintro ⟨h0, h1⟩ i hi
    cases i with
    | zero => simpa using h0
    | succ i =>
      have := h1 0 [] i (by simpa using hi)
      simpa [State.wireEffect, Feed.popMany_one] using this

/-- What follows a complete prefix completes from the state the prefix leaves, and conversely. -/
theorem completes_append (s : State) (ts us : List Txn) :
    s.completes (ts ++ us) ↔ s.completes ts ∧ ∀ m x, State.completes { s.wireEffect ts.length m with tr := x } us := by
  constructor
  · intro h
    refine ⟨fun i hi => ?_, fun m x i hi => ?_⟩
    · have := h i (by rw [List.length_append]; omega)
      rwa [List.getElem_append_left hi] at this
    · have := h (ts.length + i) (by rw [List.length_append]; omega)
      rw [List.getElem_append_right (by omega)] at this
      simpa [State.wireEffect, Feed.nth_popMany] using this
  · rintro ⟨h1, h2⟩ i hi
    rw [List.length_append] at hi
    by_cases hlt : i < ts.length
    · rw [List.getElem_append_left hlt]; exact h1 i hlt
    · rw [List.getElem_append_right (by omega)]
      have := h2 0 [] (i - ts.length) (by omega)
      simp only [State.wireEffect, Feed.nth_popMany] at this
      rwa [show ts.length + (i - ts.length) = i by omega] at this

theorem lastMode_cons (t u : Txn) (ts : List Txn) : lastMode (t :: u :: ts) = lastMode (u :: ts) := by
  simp [lastMode]

/-- Transactions that all complete: the state they leave (R143, R144). -/
theorem sendAll_of_completes {ts : List Txn} {s : State} (h : s.completes ts) (hne : ts ≠ []) :
    sendAll ts s = .done { s.wireEffect ts.length (lastMode ts) with
      tr := s.tr ++ (busCheckEvents s ++ wholeEvents s.cfg.wiring ts) } := by
  induction ts generalizing s with
  | nil => exact absurd rfl hne
  | cons t ts ih =>
    obtain ⟨h0, h1⟩ := (completes_cons s t ts).1 h
    rw [sendAll_cons, tWrBytes_eq, if_pos h0, andThen_done]
    cases ts with
    | nil => simp [lastMode, wholeEvents]
    | cons u us =>
      rw [ih (h1 _ _) (by simp), busCheckEvents_wireEffect, wireEffect_wireEffect, lastMode_cons]
      simp [wholeEvents, Nat.add_comm 1, List.append_assoc]

/-- Transactions of which one is cut short: what went before is whole, the cut one is closed, nothing follows (R146, R312). -/
theorem sendAll_of_short {pre : List Txn} {t : Txn} (post : List Txn) {s : State} (h : s.completes pre)
    (hn : s.countFeed.nth Config.freeCount pre.length < t.bytes.length) :
    sendAll (pre ++ t :: post) s = .raised .transportError { s.wireEffect (pre.length + 1) t.mode with
      tr := s.tr ++ (busCheckEvents s ++ wholeEvents s.cfg.wiring pre
        ++ coreEvents s.cfg.wiring t (s.countFeed.nth Config.freeCount pre.length)) } := by
  cases pre with
  | nil =>
    simp only [List.length_nil, Feed.nth_zero] at hn
    rw [List.nil_append, sendAll_cons, tWrBytes_eq, if_neg (by omega), andThen_raised]
    simp [wholeEvents]
  | cons u us =>
    rw [sendAll_append, sendAll_of_completes h (by simp), andThen_done, sendAll_cons, tWrBytes_eq,
      busCheckEvents_wireEffect, wireEffect_wireEffect]
    have hpeek : ∀ x, (State.countFeed { s.wireEffect (u :: us).length (lastMode (u :: us)) with tr := x }).peek
        Config.freeCount = s.countFeed.nth Config.freeCount (u :: us).length := by
      intro x
      rw [← Feed.nth_zero]
      simp only [State.wireEffect, Feed.nth_popMany, Nat.add_zero]
    rw [hpeek, if_neg (by omega), andThen_raised]
    simp [List.append_assoc]

/-- Either all complete, or there is a first that is cut short. -/
theorem completes_or_short (s : State) (ts : List Txn) :
    s.completes ts ∨ ∃ pre t post, ts = pre ++ t :: post ∧ s.completes pre ∧
      s.countFeed.nth Config.freeCount pre.length < t.bytes.length := by
  induction ts using List.reverseRecOn with
  | nil => exact .inl (completes_nil s)
  | append_singleton ts t ih =>
    rcases ih with h | ⟨pre, u, post, rfl, hc, hlt⟩
    · by_cases hlt : s.countFeed.nth Config.freeCount ts.length < t.bytes.length
      · exact .inr ⟨ts, t, [], rfl, h, hlt⟩
      · refine .inl ((completes_append s ts [t]).2 ⟨h, fun m x => ?_⟩)
        rw [completes_cons]
        refine ⟨?_, fun _ _ => completes_nil _⟩
        rw [← Feed.nth_zero]
        simp only [State.wireEffect, Feed.nth_popMany, Nat.add_zero]
        omega
    · exact .inr ⟨pre, u, post ++ [t], by simp, hc, hlt⟩

/-- The only status a sequence of transactions raises is TransportError (R304). -/
theorem sendAll_raised {ts : List Txn} {s t : State} {e : Status} (h : sendAll ts s = .raised e t) : e = .transportError := by
  rcases completes_or_short s ts with hc | ⟨pre, u, post, rfl, hc, hlt⟩
  · cases ts with
    | nil => simp at h
    | cons u us => rw [sendAll_of_completes hc (by simp)] at h; cases h
  · rw [sendAll_of_short post hc hlt] at h
    cases h; rfl

/-! ## The transaction view -/

/-- These events show as these observations, wherever they stand between transactions. -/
def Shows (es : List Event) (os : List Obs) : Prop :=
  ∀ dc, ∃ dc', ∀ rest, viewFrom dc none (es ++ rest) = os ++ viewFrom dc' none rest

theorem Shows.view {es : List Event} {os : List Obs} (h : Shows es os) : view es = os := by
  obtain ⟨dc', h⟩ := h 0
  have := h []
  simpa [Machine.view, viewFrom] using this

theorem shows_nil : Shows [] [] := fun dc => ⟨dc, fun _ => rfl⟩

theorem Shows.append {es fs : List Event} {os ps : List Obs} (h : Shows es os) (k : Shows fs ps) :
    Shows (es ++ fs) (os ++ ps) := by
  intro dc
  obtain ⟨d1, h1⟩ := h dc
  obtain ⟨d2, h2⟩ := k d1
  exact ⟨d2, fun rest => by rw [List.append_assoc, h1, h2, List.append_assoc]⟩

theorem shows_busyRead (l : Bit) : Shows [.busyRead l] [.busyRead l] := fun dc => ⟨dc, fun _ => rfl⟩
theorem shows_delay (d : Duration) : Shows [.delay d] [.delay d] := fun dc => ⟨dc, fun _ => rfl⟩
theorem shows_rst (l : Bit) : Shows [.pinSet .rst l] [.rst l] := fun dc => ⟨dc, fun _ => rfl⟩
theorem shows_csHigh : Shows [.pinSet .cs 1] [.csHigh] := fun dc => ⟨dc, fun _ => rfl⟩
theorem shows_busInit (b : Bit) (hz : Quad) (r : Nat) : Shows [.busInit b hz r] [.busInit b hz r] :=
  fun dc => ⟨dc, fun _ => rfl⟩
theorem shows_busDeinit (b : Bit) : Shows [.busDeinit b] [.busDeinit b] := fun dc => ⟨dc, fun _ => rfl⟩

theorem shows_busCheck (s : State) : Shows (busCheckEvents s) [] := by
  unfold busCheckEvents
  split
  · exact shows_nil
  · exact fun dc => ⟨dc, fun _ => rfl⟩

theorem viewFrom_frames (w : Wiring) (dc m : Bit) (hdc : w = .fourWire → dc = m) (bs : List Byte)
    (cur : List (Bit × Byte)) (rest : List Event) :
    viewFrom dc (some cur) (bs.map (fun b => Event.frame (frameOf w m b)) ++ rest)
      = viewFrom dc (some (cur ++ bs.map fun b => (m, b))) rest := by
  induction bs generalizing cur with
  | nil => simp
  | cons b bs ih =>
    have hf : frameView dc (frameOf w m b) = (m, b) := by
      cases w with
      | fourWire => simp [frameOf, frameView, hdc rfl]
      | threeWire =>
        have h8 : (m ++ b : BitVec 9).extractLsb' 8 1 = m := by
          apply BitVec.eq_of_getLsbD_eq; intro i hi
          obtain rfl : i = 0 := by omega
          rw [BitVec.getLsbD_extractLsb', BitVec.getLsbD_append]
          simp
        have h0 : (m ++ b : BitVec 9).extractLsb' 0 8 = b := by
          apply BitVec.eq_of_getLsbD_eq; intro i hi
          rw [BitVec.getLsbD_extractLsb', BitVec.getLsbD_append]
          simp [hi]
        simp only [frameOf, frameView, h8, h0]
    simp only [List.map_cons, List.cons_append, viewFrom, Option.map_some, hf]
    rw [ih]
    simp

/-- One transaction of which `n` frames go out shows as those bytes with its mode (R150). -/
theorem shows_core (w : Wiring) (t : Txn) (n : Nat) : Shows (coreEvents w t n) [t.shown n] := by
  intro dc
  cases w with
  | fourWire =>
    refine ⟨t.mode, fun rest => ?_⟩
    simp only [coreEvents, modeEvents, List.append_assoc, List.cons_append, List.nil_append, viewFrom, if_true]
    rw [viewFrom_frames .fourWire t.mode t.mode (fun _ => rfl)]
    simp [viewFrom, Txn.shown]
  | threeWire =>
    refine ⟨dc, fun rest => ?_⟩
    simp only [coreEvents, modeEvents, List.append_assoc, List.cons_append, List.nil_append, viewFrom, if_true]
    rw [viewFrom_frames .threeWire dc t.mode (fun h => by cases h)]
    simp [viewFrom, Txn.shown]

theorem shown_length (t : Txn) : t.shown t.bytes.length = t.whole := by simp [Txn.shown, Txn.whole]

/-- Complete transactions show whole (R150). -/
theorem shows_whole (w : Wiring) (ts : List Txn) : Shows (wholeEvents w ts) (ts.map Txn.whole) := by
  induction ts with
  | nil => exact shows_nil
  | cons t ts ih =>
    have := (shows_core w t t.bytes.length).append ih
    rw [shown_length] at this
    simpa [wholeEvents] using this

/-! ## Waiting for ready -/

theorem waitLoop_notBusy (k : Nat) {s : State} (h : s.seesBusy = false) :
    waitLoop (k + 1) s = (sampleBusy s).emit [.delay .settle] := by cases k <;> simp [waitLoop, h]

theorem waitLoop_last {s : State} (h : s.seesBusy = true) : waitLoop 1 s = sampleBusy s := by simp [waitLoop, h]

theorem waitLoop_again (k : Nat) {s : State} (h : s.seesBusy = true) :
    waitLoop (k + 2) s = waitLoop (k + 1) ((sampleBusy s).emit [.delay .poll]) := by rw [waitLoop]; simp [h]

/-- A wait that finds the panel ready at sample `j` (R200, R201). -/
theorem waitLoop_ready {k j : Nat} {s : State} (hj : j < k)
    (hb : ∀ i, i < j → s.busyAt i = s.params.busyActive) (hr : s.busyAt j ≠ s.params.busyActive) :
    waitLoop k s = { s with
      tr := s.tr ++ ((List.replicate j [Event.busyRead s.params.busyActive, .delay .poll]).flatten
        ++ [.busyRead (s.busyAt j), .delay .settle])
      busyFeed := s.busyFeed.popMany (j + 1) } := by
  induction j generalizing k s with
  | zero =>
    obtain ⟨k, rfl⟩ : ∃ k', k = k' + 1 := ⟨k - 1, by omega⟩
    have h0 : s.busyLevel ≠ s.params.busyActive := by simpa [State.busyAt, State.busyLevel] using hr
    rw [waitLoop_notBusy k (by simp [State.seesBusy, h0])]
    simp [sampleBusy, State.emit, State.busyAt, State.busyLevel, Feed.popMany_one]
  | succ j ih =>
    obtain ⟨k, rfl⟩ : ∃ k', k = k' + 2 := ⟨k - 2, by omega⟩
    have h0 : s.busyLevel = s.params.busyActive := by
      simpa [State.busyAt, State.busyLevel] using hb 0 (by omega)
    have hs : ∀ i, State.busyAt ((sampleBusy s).emit [.delay .poll]) i = s.busyAt (i + 1) := by
      intro i; simp [State.busyAt]
    rw [waitLoop_again _ (by simp [State.seesBusy, h0]), ih (by omega) (fun i hi => by rw [hs]; exact hb _ (by omega)) (by rw [hs]; exact hr), hs]
    simp [h0, List.replicate_succ, sampleBusy, State.emit]

/-- A wait in which every sample reads busy: it proceeds with no settle delay (R200, R202). -/
theorem waitLoop_timedOut {k : Nat} {s : State} (hb : ∀ i, i < k + 1 → s.busyAt i = s.params.busyActive) :
    waitLoop (k + 1) s = { s with
      tr := s.tr ++ ((List.replicate k [Event.busyRead s.params.busyActive, .delay .poll]).flatten
        ++ [.busyRead s.params.busyActive])
      busyFeed := s.busyFeed.popMany (k + 1) } := by
  induction k generalizing s with
  | zero =>
    have h0 : s.busyLevel = s.params.busyActive := by
      simpa [State.busyAt, State.busyLevel] using hb 0 (by omega)
    rw [waitLoop_last (by simp [State.seesBusy, h0])]
    simp [h0, sampleBusy, State.emit, Feed.popMany_one]
  | succ k ih =>
    have h0 : s.busyLevel = s.params.busyActive := by
      simpa [State.busyAt, State.busyLevel] using hb 0 (by omega)
    have hs : ∀ i, State.busyAt ((sampleBusy s).emit [.delay .poll]) i = s.busyAt (i + 1) := by
      intro i; simp [State.busyAt]
    rw [waitLoop_again _ (by simp [State.seesBusy, h0]), ih (fun i hi => by rw [hs]; exact hb _ (by omega))]
    simp [h0, List.replicate_succ, sampleBusy, State.emit]

/-- An event of a wait. -/
def isWaitEvent : Event → Bool
  | .busyRead _ | .delay _ => true
  | .pinSet _ _ | .frame _ | .busInit _ _ _ | .busCfg _ _ | .busDeinit _ => false

/-- Everything a wait can do: sample BUSY and sleep (R200). -/
theorem waitLoop_frame (k : Nat) (s : State) :
    ∃ es n, (∀ e ∈ es, isWaitEvent e = true) ∧
      waitLoop k s = { s with tr := s.tr ++ es, busyFeed := s.busyFeed.popMany n } := by
  induction k generalizing s with
  | zero => exact ⟨[], 0, by simp, by simp [waitLoop]⟩
  | succ k ih =>
    by_cases hb : s.seesBusy = true
    · cases k with
      | zero =>
        exact ⟨[.busyRead s.busyLevel], 1, by simp [isWaitEvent],
          by rw [waitLoop_last hb]; simp [sampleBusy, State.emit, Feed.popMany_one]⟩
      | succ k =>
        obtain ⟨es, n, he, h⟩ := ih ((sampleBusy s).emit [.delay .poll])
        refine ⟨.busyRead s.busyLevel :: .delay .poll :: es, n + 1, ?_, ?_⟩
        · intro e hm
          rcases List.mem_cons.1 hm with rfl | hm
          · rfl
          · rcases List.mem_cons.1 hm with rfl | hm
            · rfl
            · exact he e hm
        · rw [waitLoop_again _ hb, h]
          simp [sampleBusy, State.emit]
    · exact ⟨[.busyRead s.busyLevel, .delay .settle], 1, by simp [isWaitEvent],
        by rw [waitLoop_notBusy k (by simpa using hb)]; simp [Feed.popMany_one, sampleBusy, State.emit]⟩

/-- Everything WAIT_READY can do (R200). -/
theorem waitReady_frame (s : State) :
    ∃ es n, (∀ e ∈ es, isWaitEvent e = true) ∧
      waitReady s = { s with tr := s.tr ++ es, busyFeed := s.busyFeed.popMany n } := waitLoop_frame _ s

/-- Every wait event shows as itself. -/
def waitObs : Event → Obs
  | .busyRead l => .busyRead l
  | .delay d => .delay d
  | .pinSet _ _ | .frame _ | .busInit _ _ _ | .busCfg _ _ | .busDeinit _ => .csHigh

theorem shows_wait {es : List Event} (h : ∀ e ∈ es, isWaitEvent e = true) : Shows es (es.map waitObs) := by
  induction es with
  | nil => exact shows_nil
  | cons e es ih =>
    have he := h e List.mem_cons_self
    have hr := ih fun f hf => h f (List.mem_cons_of_mem _ hf)
    cases e with
    | busyRead l => exact (shows_busyRead l).append hr
    | delay d => exact (shows_delay d).append hr
    | pinSet _ _ => cases he
    | frame _ => cases he
    | busInit _ _ _ => cases he
    | busCfg _ _ => cases he
    | busDeinit _ => cases he

/-! ## Chip-select framing and what fits a wiring -/

theorem csScan_append (c : CsLevel) (es fs : List Event) :
    csScan c (es ++ fs) = (csScan c es).bind fun d => csScan d fs := by
  induction es generalizing c with
  | nil => rfl
  | cons e es ih =>
    simp only [List.cons_append, csScan]
    cases csNext c e with
    | none => rfl
    | some d => exact ih d

theorem csScan_frames (w : Wiring) (m : Bit) (bs : List Byte) :
    csScan .low (bs.map fun b => Event.frame (frameOf w m b)) = some .low := by
  induction bs with
  | nil => rfl
  | cons b bs ih => exact ih

theorem csScan_busCheck (s : State) (c : CsLevel) : csScan c (busCheckEvents s) = some c := by
  unfold busCheckEvents
  split
  · rfl
  · cases c <;> rfl

/-- A transaction leaves chip-select high as it found it (R107, R151 (a)). -/
theorem csScan_core (w : Wiring) (t : Txn) (n : Nat) : csScan .high (coreEvents w t n) = some .high := by
  have h : csScan .high ([Event.pinSet .cs 0] ++ ((t.bytes.take n).map fun b => Event.frame (frameOf w t.mode b))
      ++ [.pinSet .cs 1]) = some .high := by
    rw [csScan_append, csScan_append, show csScan .high [Event.pinSet .cs 0] = some .low from rfl, Option.bind_some,
      csScan_frames, Option.bind_some]
    rfl
  cases w with
  | fourWire => exact h
  | threeWire => exact h

theorem csScan_whole (w : Wiring) (ts : List Txn) : csScan .high (wholeEvents w ts) = some .high := by
  induction ts with
  | nil => rfl
  | cons t ts ih =>
    have : wholeEvents w (t :: ts) = coreEvents w t t.bytes.length ++ wholeEvents w ts := by simp [wholeEvents]
    rw [this, csScan_append, csScan_core, Option.bind_some, ih]

theorem csScan_wait {es : List Event} (h : ∀ e ∈ es, isWaitEvent e = true) (c : CsLevel) : csScan c es = some c := by
  induction es with
  | nil => rfl
  | cons e es ih =>
    have he := h e List.mem_cons_self
    have hr := ih fun f hf => h f (List.mem_cons_of_mem _ hf)
    cases e <;> first | (cases he; done) | (cases c <;> exact hr)

theorem fits_busCheck (s : State) : ∀ e ∈ busCheckEvents s, eventFits s.cfg.wiring e = true := by
  intro e he
  unfold busCheckEvents at he
  split at he
  · simp at he
  · obtain rfl := List.mem_singleton.1 he
    simp [eventFits]

theorem fits_core (w : Wiring) (t : Txn) (n : Nat) : ∀ e ∈ coreEvents w t n, eventFits w e = true := by
  intro e he
  simp only [coreEvents, List.mem_append, List.mem_map, List.mem_singleton] at he
  rcases he with he | (rfl | ⟨b, _, rfl⟩) | rfl
  · cases w with
    | fourWire => obtain rfl := List.mem_singleton.1 he; rfl
    | threeWire => simp [modeEvents] at he
  · rfl
  · cases w <;> rfl
  · rfl

theorem fits_whole (w : Wiring) (ts : List Txn) : ∀ e ∈ wholeEvents w ts, eventFits w e = true := by
  intro e he
  obtain ⟨t, _, ht⟩ := List.mem_flatMap.1 he
  exact fits_core w t _ e ht

theorem fits_wait {es : List Event} (h : ∀ e ∈ es, isWaitEvent e = true) (w : Wiring) :
    ∀ e ∈ es, eventFits w e = true := by
  intro e he
  have := h e he
  cases e <;> first | rfl | cases this

end Sys2Proof.Machine
end

