-- ==== Sys2Proof/Laws/Protocol.lean ====
section
/-! SUPPORT. What the protocol's sequences can do, said once: anything built of waits and transactions (`Ran`), and the exact result of
transactions, waits, pushes and activations that complete (`Sent`). -/

namespace Sys2Proof.Machine

open Sys2Proof

/-! ## Anything built of waits and transactions -/

/-- Command frames stand alone in their transaction and carry one of these opcodes (R111). -/
def CommandsAre (p : Params) (ks : List PanelOp) (os : List Obs) : Prop :=
  ∀ fs, Obs.txn fs ∈ os → ∀ f ∈ fs, f.1 = 0 → fs = [f] ∧ ∃ k ∈ ks, f.2 = p.opcode k

theorem CommandsAre.append {p : Params} {ks : List PanelOp} {os ps : List Obs} (h : CommandsAre p ks os)
    (k : CommandsAre p ks ps) : CommandsAre p ks (os ++ ps) := by
  intro fs hm
  rcases List.mem_append.1 hm with hm | hm
  · exact h fs hm
  · exact k fs hm

theorem CommandsAre.mono {p : Params} {ks ls : List PanelOp} {os : List Obs} (h : CommandsAre p ks os)
    (hk : ∀ k ∈ ks, k ∈ ls) : CommandsAre p ls os := by
  intro fs hm f hf h0
  obtain ⟨h1, k, hk', h2⟩ := h fs hm f hf h0
  exact ⟨h1, k, hk k hk', h2⟩

theorem commandsAre_nil (p : Params) (ks : List PanelOp) : CommandsAre p ks [] := by intro fs hm; simp at hm

/-- The bus that is held, at the configured index and clock (R34). -/
def State.holds (s : State) : Prop := ∃ u, s.ts = some u ∧ u.bush = s.cfg.bus ∧ u.hz = s.cfg.clkHz

/-- Everything a sequence of waits and transactions can do to the state. -/
structure Ran (ks : List PanelOp) (s t : State) : Prop where
  frame : t = { s with tr := t.tr, bus := t.bus, ts := t.ts, pin := t.pin, seq := t.seq, busyFeed := t.busyFeed,
                       countFeed := t.countFeed }
  trace : ∃ es os, t.tr = s.tr ++ es ∧ Shows es os ∧ CommandsAre s.params ks os ∧ csScan .high es = some .high ∧
    (∀ e ∈ es, eventFits s.cfg.wiring e = true) ∧ ∀ b hz r, Event.busInit b hz r ∉ es ∧ Event.busDeinit b ∉ es
  csHigh : s.pin.cs = 1 → t.pin.cs = 1
  rst : t.pin.rst = s.pin.rst
  held : s.holds → t.holds
  isSome : t.ts.isSome = s.ts.isSome

theorem Ran.refl (ks : List PanelOp) (s : State) : Ran ks s s where
  frame := rfl
  trace := ⟨[], [], by simp, shows_nil, commandsAre_nil _ _, rfl, by simp, by simp⟩
  csHigh := id
  rst := rfl
  held := id
  isSome := rfl

theorem Ran.mono {ks ls : List PanelOp} {s t : State} (h : Ran ks s t) (hk : ∀ k ∈ ks, k ∈ ls) : Ran ls s t where
  frame := h.frame
  trace := by
    obtain ⟨es, os, h1, h2, h3, h4⟩ := h.trace
    exact ⟨es, os, h1, h2, h3.mono hk, h4⟩
  csHigh := h.csHigh
  rst := h.rst
  held := h.held
  isSome := h.isSome

theorem Ran.cfg {ks : List PanelOp} {s t : State} (h : Ran ks s t) : t.cfg = s.cfg := by rw [h.frame]
theorem Ran.params {ks : List PanelOp} {s t : State} (h : Ran ks s t) : t.params = s.params := by rw [h.frame]
theorem Ran.black {ks : List PanelOp} {s t : State} (h : Ran ks s t) : t.black = s.black := by rw [h.frame]
theorem Ran.red {ks : List PanelOp} {s t : State} (h : Ran ks s t) : t.red = s.red := by rw [h.frame]
theorem Ran.initialised {ks : List PanelOp} {s t : State} (h : Ran ks s t) : t.initialised = s.initialised := by rw [h.frame]
theorem Ran.status {ks : List PanelOp} {s t : State} (h : Ran ks s t) : t.status = s.status := by rw [h.frame]
theorem Ran.rdata {ks : List PanelOp} {s t : State} (h : Ran ks s t) : t.rdata = s.rdata := by rw [h.frame]
theorem Ran.hbuf {ks : List PanelOp} {s t : State} (h : Ran ks s t) : t.hbuf = s.hbuf := by rw [h.frame]

theorem Ran.trans {ks : List PanelOp} {s t u : State} (h : Ran ks s t) (k : Ran ks t u) : Ran ks s u where
  frame := by rw [k.frame, h.frame]
  trace := by
    obtain ⟨es, os, h1, h2, h3, h4, h5, h6⟩ := h.trace
    obtain ⟨fs, ps, k1, k2, k3, k4, k5, k6⟩ := k.trace
    rw [h.params] at k3
    rw [h.cfg] at k5
    refine ⟨es ++ fs, os ++ ps, by rw [k1, h1, List.append_assoc], h2.append k2, h3.append k3, ?_, ?_, ?_⟩
    · rw [csScan_append, h4, Option.bind_some, k4]
    · intro e he
      rcases List.mem_append.1 he with he | he
      · exact h5 e he
      · exact k5 e he
    · intro b hz r
      simp only [List.mem_append, not_or]
      exact ⟨⟨(h6 b hz r).1, (k6 b hz r).1⟩, (h6 b hz r).2, (k6 b hz r).2⟩
  csHigh := k.csHigh ∘ h.csHigh
  rst := by rw [k.rst, h.rst]
  held := k.held ∘ h.held
  isSome := by rw [k.isSome, h.isSome]

theorem ran_setSeq (ks : List PanelOp) (s : State) (q : Seq) : Ran ks s (s.setSeq q) where
  frame := rfl
  trace := ⟨[], [], by simp, shows_nil, commandsAre_nil _ _, rfl, by simp, by simp⟩
  csHigh := id
  rst := rfl
  held := id
  isSome := rfl

/-- What a micro-operation of waits and transactions answers: the state is `Ran`, and the only status is TransportError. -/
def MicroRan (ks : List PanelOp) (s : State) (m : Micro) : Prop :=
  Ran ks s m.state ∧ ∀ e t, m = .raised e t → e = .transportError ∧ t.pin.cs = 1

theorem MicroRan.andThen {ks : List PanelOp} {s : State} {m : Micro} {f : State → Micro} (h : MicroRan ks s m)
    (hf : ∀ t, m = .done t → Ran ks s t → MicroRan ks t (f t)) : MicroRan ks s (m.andThen f) := by
  cases m with
  | done t =>
    have := hf t rfl h.1
    exact ⟨h.1.trans this.1, this.2⟩
  | raised e t => exact h

theorem MicroRan.done {ks : List PanelOp} {s t : State} (h : Ran ks s t) : MicroRan ks s (.done t) :=
  ⟨h, fun _ _ h => by cases h⟩

/-- A transaction all of whose command frames carry one of these opcodes. -/
def TxnOf (p : Params) (ks : List PanelOp) (t : Txn) : Prop := t.mode = 0 → ∃ k ∈ ks, t.bytes = [p.opcode k]

theorem shown_commands {p : Params} {ks : List PanelOp} {t : Txn} (h : TxnOf p ks t) (n : Nat) :
    CommandsAre p ks [t.shown n] := by
  intro fs hm f hf h0
  obtain rfl : fs = (t.bytes.take n).map fun b => (t.mode, b) := by simpa [Txn.shown] using hm
  obtain ⟨b, hb, rfl⟩ := List.mem_map.1 hf
  obtain ⟨k, hk, he⟩ := h h0
  rw [he] at hb ⊢
  cases n with
  | zero => simp at hb
  | succ n =>
    obtain rfl : b = p.opcode k := by simpa using hb
    exact ⟨by simp, k, hk, rfl⟩

theorem ran_tWrBytes {ks : List PanelOp} {t : Txn} {s : State} (h : TxnOf s.params ks t) :
    MicroRan ks s (tWrBytes t s) := by
  have key : ∀ n, Ran ks s { s.wireEffect 1 t.mode with
      tr := s.tr ++ (busCheckEvents s ++ coreEvents s.cfg.wiring t n) } := by
    intro n
    refine ⟨rfl, ⟨_, [] ++ [t.shown n], rfl, (shows_busCheck s).append (shows_core _ t n),
      (commandsAre_nil _ _).append (shown_commands h n), ?_, ?_, ?_⟩, fun _ => rfl, rfl, ?_, ?_⟩
    · rw [csScan_append, csScan_busCheck, Option.bind_some, csScan_core]
    · intro e he
      rcases List.mem_append.1 he with he | he
      · exact fits_busCheck s e he
      · exact fits_core _ t n e he
    · intro b hz r
      have hb : ∀ e, e ∈ busCheckEvents s → e = .busCfg (widthOf s.cfg.wiring) s.cfg.clkHz := by
        intro e he
        unfold busCheckEvents at he
        split at he
        · simp at he
        · simpa using he
      have hc : ∀ e, e ∈ coreEvents s.cfg.wiring t n → (∃ p l, e = .pinSet p l) ∨ ∃ f, e = .frame f := by
        intro e he
        simp only [coreEvents, List.mem_append, List.mem_map, List.mem_singleton] at he
        rcases he with he | (rfl | ⟨b, _, rfl⟩) | rfl
        · cases hw : s.cfg.wiring with
          | fourWire => rw [hw] at he; obtain rfl := List.mem_singleton.1 he; exact .inl ⟨_, _, rfl⟩
          | threeWire => rw [hw] at he; simp [modeEvents] at he
        · exact .inl ⟨_, _, rfl⟩
        · exact .inr ⟨_, rfl⟩
        · exact .inl ⟨_, _, rfl⟩
      constructor
      · intro he
        rcases List.mem_append.1 he with he | he
        · cases hb _ he
        · rcases hc _ he with ⟨p, l, h⟩ | ⟨f, h⟩ <;> cases h
      · intro he
        rcases List.mem_append.1 he with he | he
        · cases hb _ he
        · rcases hc _ he with ⟨p, l, h⟩ | ⟨f, h⟩ <;> cases h
    · rintro ⟨u, hu, hb, hz⟩
      refine ⟨{ u with mode := if s.cfg.wiring = .threeWire then t.mode else u.mode,
                       hz := if s.bus = s.cfg.wantedBus then u.hz else s.cfg.clkHz },
        by simp only [State.wireEffect, hu, Option.map_some], hb, ?_⟩
      change (if s.bus = s.cfg.wantedBus then u.hz else s.cfg.clkHz) = s.cfg.clkHz
      split
      · exact hz
      · rfl
    · simp [State.wireEffect]
  rw [tWrBytes_eq]
  split
  · exact .done (key _)
  · exact ⟨key _, fun e t' h => by cases h; exact ⟨rfl, rfl⟩⟩

/-- Everything a sequence of transactions can do. -/
theorem ran_sendAll {ks : List PanelOp} {ts : List Txn} {s : State} (h : ∀ t ∈ ts, TxnOf s.params ks t) :
    MicroRan ks s (sendAll ts s) := by
  induction ts generalizing s with
  | nil => exact .done (.refl ks s)
  | cons t ts ih =>
    rw [sendAll_cons]
    refine (ran_tWrBytes (h t List.mem_cons_self)).andThen fun u _ hu => ih fun t' ht' => ?_
    rw [hu.params]
    exact h t' (List.mem_cons_of_mem _ ht')

/-- Everything a wait can do. -/
theorem ran_waitReady (ks : List PanelOp) (s : State) : Ran ks s (waitReady s) := by
  obtain ⟨es, n, he, h⟩ := waitReady_frame s
  have hno : ∀ os : List Event, (∀ e ∈ os, isWaitEvent e = true) → CommandsAre s.params ks (os.map waitObs) := by
    intro os ho fs hm
    obtain ⟨e, hem, hee⟩ := List.mem_map.1 hm
    have := ho e hem
    cases e <;> first | (cases this; done) | cases hee
  refine ⟨by rw [h], ⟨es, es.map waitObs, by rw [h], shows_wait he, hno es he, csScan_wait he _, fits_wait he _, ?_⟩,
    by rw [h]; exact id, by rw [h], by rw [h]; exact id, by rw [h]⟩
  intro b hz r
  exact ⟨fun hm => by simpa [isWaitEvent] using he _ hm, fun hm => by simpa [isWaitEvent] using he _ hm⟩

/-- An added delay. -/
theorem ran_delay (ks : List PanelOp) (s : State) (d : Duration) : Ran ks s (s.emit [.delay d]) where
  frame := rfl
  trace := ⟨_, _, rfl, shows_delay d, by intro fs hm; simp at hm, rfl, by simp [eventFits], by simp⟩
  csHigh := id
  rst := rfl
  held := id
  isSome := rfl

/-- The transactions of a command with one-byte parameters, and of a command with a buffer (R108). -/
theorem txnOf_pc {p : Params} {ks : List PanelOp} {k : PanelOp} (hk : k ∈ ks) (data : List Byte) :
    ∀ t ∈ pc p k data, TxnOf p ks t := by
  intro t ht h0
  simp only [pc, List.mem_cons, List.mem_map] at ht
  rcases ht with rfl | ⟨b, _, rfl⟩
  · exact ⟨k, hk, rfl⟩
  · simp [cData] at h0

theorem txnOf_pcb {p : Params} {ks : List PanelOp} {k : PanelOp} (hk : k ∈ ks) (buf : List Byte) :
    ∀ t ∈ pcb p k buf, TxnOf p ks t := by
  intro t ht h0
  simp only [pcb, List.mem_cons, List.not_mem_nil, or_false] at ht
  rcases ht with rfl | rfl
  · exact ⟨k, hk, rfl⟩
  · simp [cDataBuf] at h0

theorem txnOf_append {p : Params} {ks : List PanelOp} {ts us : List Txn} (h : ∀ t ∈ ts, TxnOf p ks t)
    (k : ∀ t ∈ us, TxnOf p ks t) : ∀ t ∈ ts ++ us, TxnOf p ks t := by
  intro t ht
  rcases List.mem_append.1 ht with ht | ht
  · exact h t ht
  · exact k t ht

/-- The RAM-write command of a plane's colour. -/
def ramOp : Plane → PanelOp
  | .black => .wrbw
  | .red => .wrred

theorem txnOf_pushTxns {p : Params} {ks : List PanelOp} (pl : Plane) (buf : List Byte)
    (hk : ∀ k ∈ [PanelOp.xrange, .yrange, .xcnt, .ycnt, ramOp pl], k ∈ ks) :
    ∀ t ∈ pushTxns p pl buf, TxnOf p ks t := by
  have h := fun k h => hk k h
  refine txnOf_append (txnOf_append (txnOf_append (txnOf_pc (h _ (by simp)) _) (txnOf_pc (h _ (by simp)) _))
    (txnOf_append (txnOf_pc (h _ (by simp)) _) (txnOf_pc (h _ (by simp)) _))) ?_
  cases pl
  · exact txnOf_pcb (h _ (by simp [ramOp])) _
  · exact txnOf_pcb (h _ (by simp [ramOp])) _

/-- Everything a push can do (R232). -/
theorem ran_push {ks : List PanelOp} (pl : Plane) (s : State)
    (hk : ∀ k ∈ [PanelOp.xrange, .yrange, .xcnt, .ycnt, ramOp pl], k ∈ ks) : MicroRan ks s (push pl s) := by
  have h := ran_sendAll (ks := ks) (s := s.setSeq .transmitting) (ts := pushTxns s.params pl (s.plane pl).planeBytes)
    (txnOf_pushTxns pl _ hk)
  exact ⟨(ran_setSeq ks s _).trans h.1, h.2⟩

/-- Everything the fast-full flash can do (R233). -/
theorem ran_flash {ks : List PanelOp} (s : State)
    (hk : ∀ k ∈ [PanelOp.xrange, .yrange, .xcnt, .ycnt, .wrbw], k ∈ ks) : MicroRan ks s (flash s) := by
  have h := ran_sendAll (ks := ks) (s := s.setSeq .transmitting) (ts := pushTxns s.params .black flashBytes)
    (txnOf_pushTxns .black _ hk)
  exact ⟨(ran_setSeq ks s _).trans h.1, h.2⟩

/-- Everything an activation can do (R234). -/
theorem ran_activate {ks : List PanelOp} (w : Waveform) (s : State) (hk : ∀ k ∈ [PanelOp.uc1, .uc2, .act], k ∈ ks) :
    MicroRan ks s (activate w s) := by
  have h := ran_sendAll (ks := ks) (s := s.setSeq .transmitting) (ts := txnsUc1 s.params ++ txnsUc2 s.params w)
    (txnOf_append (txnOf_pc (hk _ (by simp)) _) (txnOf_pc (hk _ (by simp)) _))
  refine MicroRan.andThen (s := s) (ks := ks) ⟨(ran_setSeq ks s _).trans h.1, h.2⟩ fun t _ ht => ?_
  have k := ran_sendAll (ks := ks) (s := t.setSeq .activating) (ts := txnsAct t.params) (txnOf_pc (hk _ (by simp)) _)
  exact ⟨(ran_setSeq ks t _).trans k.1, k.2⟩

theorem ran_waitInSeq (ks : List PanelOp) (s : State) : Ran ks s (waitInSeq s) :=
  (ran_setSeq ks s _).trans (ran_waitReady ks _)

theorem ran_sampleBusy (ks : List PanelOp) (s : State) : Ran ks s (sampleBusy s) where
  frame := rfl
  trace := ⟨_, _, rfl, shows_busyRead _, by intro fs hm; simp at hm, rfl, by simp [eventFits], by simp⟩
  csHigh := id
  rst := rfl
  held := id
  isSome := rfl

/-- Everything the bodies of UPDATE and WRUPD can do (R240, R244); UPDATE's FastFull does not reach its body. -/
theorem ran_updateBody (t : UpdateType) (ht : t ≠ .fastFull) (s : State) :
    MicroRan [.uc1, .uc2, .act] s (updateBody t s) := by
  cases t with
  | fastPartial => exact ran_activate _ _ (by simp)
  | cleanFull => exact ran_activate _ _ (by simp)
  | fastFull => exact absurd rfl ht
  | cleanFullAggressive =>
    refine (ran_activate _ _ (by simp)).andThen fun u _ _ => ?_
    have h := ran_activate (ks := [.uc1, .uc2, .act]) .cleanWave (waitInSeq u) (by simp)
    exact ⟨(ran_waitInSeq _ u).trans h.1, h.2⟩

theorem ran_wrupdBody (t : UpdateType) (s : State) :
    MicroRan [.xrange, .yrange, .xcnt, .ycnt, .wrbw, .uc1, .uc2, .act] s (wrupdBody t s) := by
  cases t with
  | fastPartial => exact (ran_push _ _ (by simp [ramOp])).andThen fun u _ _ => ran_activate _ _ (by simp)
  | cleanFull => exact (ran_push _ _ (by simp [ramOp])).andThen fun u _ _ => ran_activate _ _ (by simp)
  | cleanFullAggressive =>
    refine (ran_push _ _ (by simp [ramOp])).andThen fun u _ _ => (ran_activate _ _ (by simp)).andThen fun v _ _ => ?_
    have h := ran_activate (ks := [.xrange, .yrange, .xcnt, .ycnt, .wrbw, .uc1, .uc2, .act]) .cleanWave (waitInSeq v)
      (by simp)
    exact ⟨(ran_waitInSeq _ v).trans h.1, h.2⟩
  | fastFull =>
    refine (ran_flash _ (by simp)).andThen fun u _ _ => (ran_activate _ _ (by simp)).andThen fun v _ _ => ?_
    have h : MicroRan [.xrange, .yrange, .xcnt, .ycnt, .wrbw, .uc1, .uc2, .act] (waitInSeq v)
        ((push .black (waitInSeq v)).andThen (activate .partialWave)) :=
      (ran_push _ _ (by simp [ramOp])).andThen fun w _ _ => ran_activate _ _ (by simp)
    exact ⟨(ran_waitInSeq _ v).trans h.1, h.2⟩

theorem ran_thenIdle {ks : List PanelOp} {s : State} {m : Micro} (h : MicroRan ks s m) : MicroRan ks s (thenIdle m) :=
  h.andThen fun t _ _ => .done (ran_setSeq ks t _)

end Sys2Proof.Machine
end

