-- ==== Sys2Proof/Laws/Operations.lean ====
section
/-! SUPPORT. What each operation can end in, said once (`exec_*_cases`): later proofs cite these and do not unfold a meaning. -/

namespace Sys2Proof.Machine

open Sys2Proof

/-- How an operation that only waits and sends can end. -/
inductive Ended (ks : List PanelOp) (s t : State) : Prop where
  /-- A check turned it away: nothing but the status (R312). -/
  | rejected (e : Status) (he : e = .notInitialized ∨ e = .invalidArgument) (h : t = s.deliver e)
  /-- It ran to its end. -/
  | ok (u : State) (h : Ran ks s u) (hs : u.seq = .idle ∨ u.seq = s.seq) (ht : t = u.complete)
  /-- A bus write was cut short. -/
  | failed (u : State) (h : Ran ks s u) (hc : u.pin.cs = 1) (ht : t = u.deliver .transportError)

theorem ended_of_micro {ks : List PanelOp} {s : State} {m : Micro} (h : MicroRan ks s m)
    (hs : ∀ t, m = .done t → t.seq = .idle ∨ t.seq = s.seq) : Ended ks s m.endState := by
  cases m with
  | done t => exact .ok t h.1 (hs t rfl) rfl
  | raised e t =>
    obtain ⟨rfl, hc⟩ := h.2 e t rfl
    exact .failed t h.1 hc rfl

theorem thenIdle_done {m : Micro} {t : State} (h : thenIdle m = .done t) : t.seq = .idle := by
  cases m with
  | done u => cases h; rfl
  | raised e u => cases h

theorem exec_wrbuf_cases (p : Plane) (s : State) :
    ∃ t, exec (.wrbuf p) s = .next t ∧ Ended (Instr.wrbuf p).commands s t := by
  by_cases hi : s.initialised = true
  · refine ⟨_, by simp only [exec, execWrbuf, State.whenInitialised, if_pos hi]; rfl, ended_of_micro ?_ ?_⟩
    · apply ran_thenIdle
      cases p <;> exact ran_push _ _ (by simp [Instr.commands, ramOp])
    · exact fun t ht => .inl (thenIdle_done ht)
  · exact ⟨_, by simp only [exec, execWrbuf, State.whenInitialised, if_neg hi], .rejected _ (.inl rfl) rfl⟩

theorem updateTypeOf_fastFull {y : Half} (h : updateTypeOf y = some .fastFull) : y = 2 := by
  unfold updateTypeOf at h
  by_cases h0 : y = 0
  · simp [h0] at h
  by_cases h1 : y = 1
  · simp [h1] at h
  by_cases h2 : y = 2
  · exact h2
  by_cases h3 : y = 3
  · simp [h3] at h
  rw [if_neg h0, if_neg h1, if_neg h2, if_neg h3] at h
  cases h

theorem exec_update_cases (y : Half) (s : State) :
    ∃ t, exec (.update y) s = .next t ∧
      (Ended (Instr.update y).commands s t ∨ y = 2 ∧ t = s.deliver .notSupported) := by
  by_cases hi : s.initialised = true
  · simp only [exec, execUpdate, State.whenInitialised, if_pos hi]
    have key : ∀ u, u ≠ .fastFull → Ended (Instr.update y).commands s (thenIdle (updateBody u (waitInSeq s))).endState := by
      intro u hu
      refine ended_of_micro (ran_thenIdle ?_) fun t ht => .inl (thenIdle_done ht)
      have := ran_updateBody u hu (waitInSeq s)
      exact ⟨(ran_waitInSeq _ s).trans this.1, this.2⟩
    split
    · exact ⟨_, rfl, .inl (.rejected _ (.inr rfl) rfl)⟩
    · rename_i hu
      exact ⟨_, rfl, .inr ⟨updateTypeOf_fastFull hu, rfl⟩⟩
    · rename_i u hne hu
      exact ⟨_, rfl, .inl (key _ (fun h => hne (by rw [h])))⟩
  · exact ⟨_, by simp only [exec, execUpdate, State.whenInitialised, if_neg hi], .inl (.rejected _ (.inl rfl) rfl)⟩

theorem exec_wrupd_cases (y : Half) (s : State) :
    ∃ t, exec (.wrupd y) s = .next t ∧
      (Ended (Instr.wrupd y).commands s t ∨
        s.seesBusy = true ∧ t = (sampleBusy (s.setSeq .waitingReady)).deliver .busy) := by
  by_cases hi : s.initialised = true
  · simp only [exec, execWrupd, State.whenInitialised, if_pos hi]
    split
    · exact ⟨_, rfl, .inl (.rejected _ (.inr rfl) rfl)⟩
    · rename_i u hu
      split
      · rename_i hb
        exact ⟨_, rfl, .inr ⟨hb, rfl⟩⟩
      · refine ⟨_, rfl, .inl (ended_of_micro (ran_thenIdle ?_) fun t ht => .inl (thenIdle_done ht))⟩
        have h := ran_wrupdBody u (sampleBusy (s.setSeq .waitingReady))
        exact ⟨((ran_setSeq _ s _).trans (ran_sampleBusy _ _)).trans h.1, h.2⟩
  · exact ⟨_, by simp only [exec, execWrupd, State.whenInitialised, if_neg hi], .inl (.rejected _ (.inl rfl) rfl)⟩

theorem sendAll_state_seq (ts : List Txn) (s : State) : (sendAll ts s).state.seq = s.seq := by
  rcases completes_or_short s ts with hc | ⟨pre, u, post, rfl, hc, hlt⟩
  · cases ts with
    | nil => rfl
    | cons u us => rw [sendAll_of_completes hc (by simp)]; rfl
  · rw [sendAll_of_short post hc hlt]; rfl

theorem sendAll_seq {ts : List Txn} {s t : State} (h : sendAll ts s = .done t) : t.seq = s.seq := by
  have := sendAll_state_seq ts s
  rwa [h] at this

theorem exec_softstart_cases (st ti mo : Half) (s : State) :
    ∃ t, exec (.softstart st ti mo) s = .next t ∧ Ended (Instr.softstart st ti mo).commands s t := by
  by_cases hi : s.initialised = true
  · simp only [exec, execSoftstart, State.whenInitialised, if_pos hi]
    split
    · exact ⟨_, rfl, .rejected _ (.inr rfl) rfl⟩
    · refine ⟨_, rfl, ended_of_micro (ran_sendAll (txnOf_pc (by simp [Instr.commands]) _)) fun t ht => .inr (sendAll_seq ht)⟩
  · exact ⟨_, by simp only [exec, execSoftstart, State.whenInitialised, if_neg hi], .rejected _ (.inl rfl) rfl⟩

/-! ## Panel commands (R111) -/

/-- A place is the operation under way, past its lifecycle checks, with a bus held, whose next line is the command. -/
theorem place_eq_some {s : State} {i : Instr} {u : Underway} :
    s.place i = some u ↔ s.underway = some u ∧ s.turnsAway u.op = none ∧ s.ts.isSome = true ∧
      ∃ ts, u.op.tasks s.params = .ok ts ∧ ts[u.done]? = some (.issue i) := by
  rw [State.place, Option.filter_eq_some_iff, State.nextIs]
  refine and_congr_right fun _ => ?_
  cases h : u.op.tasks s.params with
  | error e => simp
  | ok ts => simp [and_assoc]

theorem place_of_atRest {s : State} (i : Instr) (h : s.underway = none) : s.place i = none := by
  simp [State.place, h]

/-- A panel command's command frames are its own (R109). -/
theorem txnOf_panel (s : State) (i : Instr) : ∀ t ∈ panelTxns s i, TxnOf s.params i.commands t := by
  cases i <;> first
    | exact txnOf_pc (by simp [Instr.commands]) _
    | exact txnOf_pcb (by simp [Instr.commands]) _
    | (intro t ht; cases ht; done)
    | skip
  intro t ht
  simp only [panelTxns, txnsSleep] at ht
  split at ht
  · simp at ht
  · exact txnOf_pc (by simp [Instr.commands]) _ t ht

/-- How a panel command can end. -/
inductive PanelEnded (i : Instr) (s t : State) : Prop where
  /-- Out of its place: nothing but the status. -/
  | outOfPlace (hp : s.place i = none) (ht : t = { s with status := .invalidArgument })
  /-- The operation stands at its next line. -/
  | sent (u : Underway) (hp : s.place i = some u) (v : State) (h : Ran i.commands s v) (hs : v.seq = s.seq)
      (ht : t = { v with underway := some { u with done := u.done + 1 } })
  /-- A bus write was cut short, which ends the operation. -/
  | failed (u : Underway) (hp : s.place i = some u) (hd : u.op ≠ .deinit) (v : State) (h : Ran i.commands s v)
      (hc : v.pin.cs = 1) (ht : t = { v.deliver .transportError with underway := none })

theorem runPanel_cases (i : Instr) (s : State) : PanelEnded i s (runPanel i s) := by
  have hr := ran_sendAll (txnOf_panel s i)
  have hs := sendAll_state_seq (panelTxns s i) s
  unfold runPanel
  split
  · rename_i hp; exact .outOfPlace hp rfl
  · rename_i u hp
    split
    · rename_i v hv
      rw [hv] at hr hs
      exact .sent u hp v hr.1 hs rfl
    · rename_i e v hv
      rw [hv] at hr hs
      obtain ⟨rfl, hc⟩ := hr.2 _ _ rfl
      split
      · exact .sent u hp v hr.1 hs rfl
      · rename_i hd; exact .failed u hp hd v hr.1 hc rfl

/-- Every panel command is `runPanel` of itself. -/
theorem exec_panel {i : Instr} (hi : i.isHostOp = false) (s : State) : exec i s = .next (runPanel i s) := by
  cases i <;> first | rfl | cases hi

theorem exec_panel_cases (i : Instr) (s : State) (hi : i.isHostOp = false) :
    ∃ t, exec i s = .next t ∧ PanelEnded i s t :=
  ⟨_, exec_panel hi s, runPanel_cases i s⟩

/-- The state INIT's T_OPEN leaves where the achieved rate is not 0, and the reset pulse after it (R152, R170). -/
def opened (s : State) : State :=
  { s.emit [.busInit s.cfg.bus s.cfg.clkHz s.achievedRate] with
    rateFeed := s.rateFeed.pop
    ts := some { mode := Config.freeBit s.nextFree, bush := s.cfg.bus, hz := s.cfg.clkHz }
    bus := s.cfg.wantedBus
    nextFree := s.nextFree + 1 }.drivePin .cs 1

theorem opened_eq (s : State) : opened s = { s with
    tr := s.tr ++ [.busInit s.cfg.bus s.cfg.clkHz s.achievedRate, .pinSet .cs 1]
    rateFeed := s.rateFeed.pop
    ts := some { mode := Config.freeBit s.nextFree, bush := s.cfg.bus, hz := s.cfg.clkHz }
    bus := s.cfg.wantedBus
    pin := { s.pin with cs := 1 }
    nextFree := s.nextFree + 1 } := by
  simp [opened, State.drivePin, State.emit, setPinLevel]

/-- DEINIT's last steps, in one piece (R284). -/
theorem finishDeinit_eq (s : State) : finishDeinit s = { s with
    tr := s.tr ++ [.busDeinit s.heldBus], ts := none,
    pin := { cs := Config.freeBit s.nextFree, dc := Config.freeBit (s.nextFree + 1), rst := Config.freeBit (s.nextFree + 2) }
    initialised := false, seq := .idle
    black := Mem.unspecified (s.nextFree + 3), red := Mem.unspecified (s.nextFree + 3 + 1), nextFree := s.nextFree + 3 + 2 } := by
  simp [finishDeinit, tClose, State.emit]

/-- How INIT can end. -/
inductive InitEnded (s t : State) : Prop where
  | already (hi : s.initialised = true) (h : t = s.deliver .alreadyInitialized)
  | badClock (hi : s.initialised = false) (hc : s.cfg.clkHz = 0) (h : t = s.deliver .invalidArgument)
  | noRate (hi : s.initialised = false) (hc : s.cfg.clkHz ≠ 0) (hr : s.achievedRate = 0)
      (h : t = State.deliver { s.emit [.busInit s.cfg.bus s.cfg.clkHz 0] with rateFeed := s.rateFeed.pop, ts := none }
        .transportError)
  | ok (hi : s.initialised = false) (hc : s.cfg.clkHz ≠ 0) (hr : s.achievedRate ≠ 0) (u : State)
      (h : Ran Instr.init.commands (rstPulse (opened s)) u) (ht : t = (finishInit u).complete)
  | failed (hi : s.initialised = false) (hc : s.cfg.clkHz ≠ 0) (hr : s.achievedRate ≠ 0) (u : State)
      (h : Ran Instr.init.commands (rstPulse (opened s)) u) (hcs : u.pin.cs = 1) (ht : t = u.deliver .transportError)

theorem tOpen_ok {s : State} (h : s.achievedRate ≠ 0) : tOpen s = .done (opened s) := by
  simp only [tOpen, if_neg h]; rfl

theorem txnOf_initSeq (p : Params) : ∀ t ∈ initSeqTxns p, TxnOf p Instr.init.commands t := by
  refine txnOf_append (txnOf_append (txnOf_append (txnOf_append ?_ ?_) (txnOf_append ?_ ?_)) ?_) ?_ <;>
    exact txnOf_pc (by simp [Instr.commands]) _

/-- The hardware pulse, in one piece (R170). -/
theorem rstPulse_eq (s : State) :
    rstPulse s = { s with
      pin := { s.pin with rst := 1 }
      tr := s.tr ++ [.pinSet .rst 1, .delay .rst, .pinSet .rst 0, .delay .rst, .pinSet .rst 1, .delay .rst] } := by
  simp only [rstPulse, State.drivePin, State.emit, setPinLevel, List.append_assoc, List.cons_append, List.nil_append]

theorem ran_cInitSeq (s : State) : MicroRan Instr.init.commands s (cInitSeq s) := ran_sendAll (txnOf_initSeq s.params)

theorem ran_cReset (s : State) : MicroRan Instr.init.commands (rstPulse s) (cReset s) := by
  have h : Ran Instr.init.commands (rstPulse s) (waitReady (rstPulse s)) := ran_waitReady _ _
  have hp : (waitReady (rstPulse s)).params = s.params := by rw [h.params, rstPulse_eq]
  have k : MicroRan Instr.init.commands (waitReady (rstPulse s)) (sendAll (txnsSwreset s.params) (waitReady (rstPulse s))) :=
    ran_sendAll fun t ht => by rw [hp]; exact txnOf_pc (k := .swreset) (by decide) [] t ht
  have m : MicroRan Instr.init.commands (rstPulse s) (sendAll (txnsSwreset s.params) (waitReady (rstPulse s))) :=
    ⟨h.trans k.1, k.2⟩
  exact m.andThen fun t _ ht => .done ((ran_delay _ _ _).trans (ran_waitReady _ _))

theorem ran_initTail (s : State) :
    MicroRan Instr.init.commands (rstPulse s) ((cReset s).andThen fun s => cInitSeq s) :=
  (ran_cReset s).andThen fun t _ _ => ran_cInitSeq t

theorem exec_init_cases (s : State) : ∃ t, exec .init s = .next t ∧ InitEnded s t := by
  simp only [exec, execInit]
  by_cases hi : s.initialised = true
  · rw [if_pos hi]; exact ⟨_, rfl, .already hi rfl⟩
  · have hi' : s.initialised = false := by simpa using hi
    rw [if_neg hi]
    by_cases hc : s.cfg.clkHz = 0
    · rw [if_pos hc]; exact ⟨_, rfl, .badClock hi' hc rfl⟩
    · rw [if_neg hc]
      refine ⟨_, rfl, ?_⟩
      by_cases hr : s.achievedRate = 0
      · refine .noRate hi' hc hr ?_
        simp only [initBody, tOpen, Micro.endState, hr]
        rfl
      · have h := ran_initTail (opened s)
        have hb : initBody s = ((cReset (opened s)).andThen fun s => cInitSeq s).andThen fun s => .done (finishInit s) := by
          simp only [initBody, tOpen_ok hr, andThen_done, andThen_assoc]
        rw [hb]
        revert h
        cases (cReset (opened s)).andThen fun s => cInitSeq s with
        | done u => exact fun h => .ok hi' hc hr u h.1 rfl
        | raised e u =>
          intro h
          obtain ⟨rfl, hcs⟩ := h.2 _ _ rfl
          exact .failed hi' hc hr u h.1 hcs rfl

/-- How DEINIT can end (R284). -/
theorem exec_deinit_cases (s : State) :
    (s.initialised = false ∧ exec .deinit s = .next s.complete) ∨
    ∃ u, s.initialised = true ∧ exec .deinit s = .next (finishDeinit u).complete ∧ Ran [.sleep] s u := by
  by_cases hi : s.initialised = true
  · refine .inr ⟨_, hi, by simp only [exec, execDeinit, if_pos hi]; rfl, (ran_sendAll ?_).1⟩
    intro t ht
    unfold txnsSleep at ht
    split at ht
    · simp at ht
    · exact txnOf_pc (by simp) _ t ht
  · exact .inl ⟨by simpa using hi, by simp only [exec, execDeinit, if_neg hi]⟩

/-- How a framebuffer or drawing operation can end: turned away, its plane replaced by another, or RDPT's result. -/
inductive DrawEnded (i : Instr) (p : Plane) (s t : State) : Prop where
  | rejected (e : Status) (he : e = .notInitialized ∨ e = .invalidArgument) (h : t = s.deliver e)
  | drawn (hi : s.initialised = true) (hq : ∀ q, i.writesPlane q = decide (p = q)) (m : Mem) (hf : m.fill = (s.plane p).fill ∨ m.fill = .ones)
      (hw : (s.plane p).wf 5000 → m.wf 5000) (h : t = (s.setPlane p m).complete)
  | read (hi : s.initialised = true) (x y : Half) (hr : i = .rdpt p x y)
      (h : t = State.complete { s with rdata := (s.plane p).readPixel x.toNat y.toNat })

theorem inPanel_iff (x y : Half) : inPanel x y = true ↔ x.toNat < 200 ∧ y.toNat < 200 := by
  simp [inPanel]

theorem goodRect_iff (l t r b : Half) :
    goodRect l t r b = true ↔ l.toNat ≤ r.toNat ∧ t.toNat ≤ b.toNat ∧ r.toNat < 200 ∧ b.toNat < 200 := by
  simp [goodRect, and_assoc]

theorem mem_rectOffsets {w h : Nat} {o : Nat × Nat} : o ∈ rectOffsets w h ↔ o.1 < w ∧ o.2 < h := by
  simp only [rectOffsets, List.mem_flatMap, List.mem_range, List.mem_map]
  constructor
  · rintro ⟨j, hj, i, hi, rfl⟩; exact ⟨hi, hj⟩
  · rintro ⟨h1, h2⟩; exact ⟨o.2, h2, o.1, h1, rfl⟩

theorem fillDots_onPanel {l t r b : Nat} (v : Bit) (hl : l ≤ r) (ht : t ≤ b) (hr : r < 200) (hb : b < 200) :
    OnPanel (fillDots l t r b v) := by
  intro d hd
  obtain ⟨o, ho, rfl⟩ := List.mem_map.1 hd
  have := mem_rectOffsets.1 ho
  constructor <;> simp only <;> omega

theorem picDots_onPanel (hb : Mem) {ptr l t r b : Nat} (hl : l ≤ r) (ht : t ≤ b) (hr : r < 200) (hbb : b < 200) :
    OnPanel (picDots hb ptr l t r b) := by
  intro d hd
  obtain ⟨o, ho, rfl⟩ := List.mem_map.1 hd
  have := mem_rectOffsets.1 ho
  constructor <;> simp only <;> omega

theorem glyphDots_onPanel (q : Params) (c : Nat) {cx cy fs : Nat} (v : Bit) (hx : cx + fs ≤ 200) (hy : cy + fs ≤ 200) :
    OnPanel (glyphDots q c cx cy fs v) := by
  intro d hd
  obtain ⟨o, ho, hd⟩ := List.mem_filterMap.1 hd
  have := mem_rectOffsets.1 ho
  split at hd
  · cases hd; constructor <;> simp only <;> omega
  · split at hd
    · cases hd; constructor <;> simp only <;> omega
    · cases hd

theorem textDots_onPanel (q : Params) (hb : Mem) (fs : Nat) (v : Bit) (n a cx cy : Nat) (ds : List Dot)
    (h : textDots q hb fs v n a cx cy = some ds) : OnPanel ds := by
  induction n generalizing a cx cy ds with
  | zero => cases h; intro d hd; cases hd
  | succ n ih =>
    rw [textDots] at h
    by_cases ha : a < q.hbufSize
    · rw [if_pos ha] at h
      dsimp only at h
      by_cases hc : Config.charMax < (hb.read a).toNat
      · rw [if_pos hc] at h; exact ih _ _ _ _ h
      · rw [if_neg hc] at h
        by_cases hy : Config.height < (if Config.width < cx + fs then cy + fs else cy) + fs
        · rw [if_pos hy] at h; cases h; intro d hd; cases hd
        · rw [if_neg hy] at h
          obtain ⟨es, he, rfl⟩ := Option.map_eq_some_iff.1 h
          intro d hd
          rcases List.mem_append.1 hd with hd | hd
          · refine glyphDots_onPanel q _ v ?_ (by simpa using hy) d hd
            simp only [Config.height, Config.width] at *
            split at hy <;> rename_i hx
            · rw [if_pos hx]; omega
            · rw [if_neg hx]; omega
          · exact ih _ _ _ _ he d hd
    · rw [if_neg ha] at h; cases h

/-- How the six operations over a plane can end. -/
theorem exec_draw_cases (i : Instr) (s t : State) (p : Plane) (hp : i.planeOperand = some p) (hw : i ≠ .wrbuf p)
    (h : exec i s = .next t) : DrawEnded i p s t := by
  have rej : ∀ {body}, s.initialised ≠ true → s.whenInitialised body = .next t → DrawEnded i p s t := by
    intro body hi h
    rw [State.whenInitialised, if_neg hi] at h
    cases h
    exact .rejected _ (.inl rfl) rfl
  by_cases hi : s.initialised = true
  · have go : ∀ {body : Host.Outcome State Fault Refusal}, s.whenInitialised body = body := by
      intro body; rw [State.whenInitialised, if_pos hi]
    cases i with
    | clear q =>
      cases hp
      rw [exec, execClear, go] at h; cases h
      exact .drawn hi (fun _ => rfl) _ (.inr rfl) (fun _ => by simp [Mem.cleared, Mem.wf]) rfl
    | wrbuf q => cases hp; exact absurd rfl hw
    | wrpt q x y v =>
      cases hp
      rw [exec, execWrpt, go] at h
      split at h
      · rename_i hin
        obtain ⟨hx, hy⟩ := (inPanel_iff x y).1 hin
        cases h
        exact .drawn hi (fun _ => rfl) _ (.inl (write_fill _ _ _)) (fun hm => writePixel_wf hm hx hy v) rfl
      · cases h; exact .rejected _ (.inr rfl) rfl
    | rdpt q x y =>
      cases hp
      rw [exec, execRdpt, go] at h
      split at h
      · cases h; exact .read hi _ _ rfl rfl
      · cases h; exact .rejected _ (.inr rfl) rfl
    | fillrect q l u r b v =>
      cases hp
      rw [exec, execFillrect, go] at h
      split at h
      · rename_i hg
        obtain ⟨h1, h2, h3, h4⟩ := (goodRect_iff l u r b).1 hg
        cases h
        exact .drawn hi (fun _ => rfl) _ (.inl (paint_fill _ _)) (fun hm => paint_wf hm (fillDots_onPanel v h1 h2 h3 h4)) rfl
      · cases h; exact .rejected _ (.inr rfl) rfl
    | drawpic q l u r b ptr =>
      cases hp
      rw [exec, execDrawpic, go] at h
      split at h
      · rename_i hg
        obtain ⟨h1, h2, h3, h4⟩ := (goodRect_iff l u r b).1 hg.2
        split at h
        · cases h
          exact .drawn hi (fun _ => rfl) _ (.inl (paint_fill _ _)) (fun hm => paint_wf hm (picDots_onPanel _ h1 h2 h3 h4)) rfl
        · cases h
      · cases h; exact .rejected _ (.inr rfl) rfl
    | drawstr q x y ptr len v fs =>
      cases hp
      rw [exec, execDrawstr, go] at h
      split at h
      · split at h
        · rename_i ds hds
          cases h
          exact .drawn hi (fun _ => rfl) _ (.inl (paint_fill _ _)) (fun hm => paint_wf hm (textDots_onPanel _ _ _ _ _ _ _ _ _ hds)) rfl
        · cases h
      · cases h; exact .rejected _ (.inr rfl) rfl
    | _ => cases hp
  · cases i <;> first | (cases hp; done) | (cases hp; exact rej hi h)

/-- How the two presets can end (R286, R287). -/
theorem exec_cfgdef_cases (i : Instr) (s t : State) (hi : i = .cfgdef3 ∨ i = .cfgdef4) (h : exec i s = .next t) :
    (s.initialised = true ∧ t = s.deliver .alreadyInitialized) ∨
    (s.initialised = false ∧ ∃ c, t = State.complete { s with cfg := c }) := by
  rcases hi with rfl | rfl
  · simp only [exec, execCfgdef3] at h
    split at h <;> rename_i hi <;> cases h
    · exact .inl ⟨hi, rfl⟩
    · exact .inr ⟨by simpa using hi, _, rfl⟩
  · simp only [exec, execCfgdef4] at h
    split at h <;> rename_i hi <;> cases h
    · exact .inl ⟨hi, rfl⟩
    · exact .inr ⟨by simpa using hi, _, rfl⟩

/-- Everything an instruction can end in, by kind. -/
theorem exec_cases (i : Instr) (s t : State) (h : exec i s = .next t) :
    (i = .init ∧ InitEnded s t) ∨
    (i = .deinit ∧ (s.initialised = false ∧ t = s.complete ∨
      ∃ u, s.initialised = true ∧ t = (finishDeinit u).complete ∧ Ran [.sleep] s u)) ∨
    ((i = .cfgdef3 ∨ i = .cfgdef4) ∧ ((s.initialised = true ∧ t = s.deliver .alreadyInitialized) ∨
      (s.initialised = false ∧ ∃ c, t = State.complete { s with cfg := c }))) ∨
    (i.isHostOp = true ∧ i.commands = [] ∧ ∃ p, i.planeOperand = some p ∧ DrawEnded i p s t) ∨
    (((∃ p, i = .wrbuf p) ∨ (∃ y, i = .update y) ∨ (∃ y, i = .wrupd y) ∨ ∃ a b c, i = .softstart a b c) ∧
      (Ended i.commands s t ∨ (i = .update 2 ∧ t = s.deliver .notSupported) ∨
        (∃ y, i = .wrupd y) ∧ s.seesBusy = true ∧ t = (sampleBusy (s.setSeq .waitingReady)).deliver .busy)) ∨
    (i.isHostOp = false ∧ PanelEnded i s t) := by
  by_cases hh : i.isHostOp = false
  · obtain ⟨u, hu, he⟩ := exec_panel_cases i s hh
    rw [hu] at h; cases h
    exact .inr (.inr (.inr (.inr (.inr ⟨hh, he⟩))))
  have draw : ∀ p, i.planeOperand = some p → i ≠ .wrbuf p → i.commands = [] →
      (i.isHostOp = true ∧ i.commands = [] ∧ ∃ p, i.planeOperand = some p ∧ DrawEnded i p s t) := fun p hp hw hc =>
    ⟨by simpa using hh, hc, p, hp, exec_draw_cases i s t p hp hw h⟩
  cases i with
  | init =>
    obtain ⟨u, hu, he⟩ := exec_init_cases s
    rw [hu] at h; cases h
    exact .inl ⟨rfl, he⟩
  | deinit =>
    refine .inr (.inl ⟨rfl, ?_⟩)
    rcases exec_deinit_cases s with ⟨hi, hu⟩ | ⟨u, hi, hu, hr⟩
    · rw [hu] at h; cases h; exact .inl ⟨hi, rfl⟩
    · rw [hu] at h; cases h; exact .inr ⟨u, hi, rfl, hr⟩
  | cfgdef3 => exact .inr (.inr (.inl ⟨.inl rfl, exec_cfgdef_cases _ s t (.inl rfl) h⟩))
  | cfgdef4 => exact .inr (.inr (.inl ⟨.inr rfl, exec_cfgdef_cases _ s t (.inr rfl) h⟩))
  | clear p => exact .inr (.inr (.inr (.inl (draw p rfl (by simp) rfl))))
  | wrpt p _ _ _ => exact .inr (.inr (.inr (.inl (draw p rfl (by simp) rfl))))
  | rdpt p _ _ => exact .inr (.inr (.inr (.inl (draw p rfl (by simp) rfl))))
  | fillrect p _ _ _ _ _ => exact .inr (.inr (.inr (.inl (draw p rfl (by simp) rfl))))
  | drawpic p _ _ _ _ _ => exact .inr (.inr (.inr (.inl (draw p rfl (by simp) rfl))))
  | drawstr p _ _ _ _ _ _ => exact .inr (.inr (.inr (.inl (draw p rfl (by simp) rfl))))
  | wrbuf p =>
    obtain ⟨u, hu, he⟩ := exec_wrbuf_cases p s
    rw [hu] at h; cases h
    exact .inr (.inr (.inr (.inr (.inl ⟨.inl ⟨p, rfl⟩, .inl he⟩))))
  | softstart a b c =>
    obtain ⟨u, hu, he⟩ := exec_softstart_cases a b c s
    rw [hu] at h; cases h
    exact .inr (.inr (.inr (.inr (.inl ⟨.inr (.inr (.inr ⟨a, b, c, rfl⟩)), .inl he⟩))))
  | update y =>
    obtain ⟨u, hu, he⟩ := exec_update_cases y s
    rw [hu] at h; cases h
    refine .inr (.inr (.inr (.inr (.inl ⟨.inr (.inl ⟨y, rfl⟩), ?_⟩))))
    rcases he with he | ⟨rfl, he⟩
    · exact .inl he
    · exact .inr (.inl ⟨rfl, he⟩)
  | wrupd y =>
    obtain ⟨u, hu, he⟩ := exec_wrupd_cases y s
    rw [hu] at h; cases h
    refine .inr (.inr (.inr (.inr (.inl ⟨.inr (.inr (.inl ⟨y, rfl⟩)), ?_⟩))))
    rcases he with he | he
    · exact .inl he
    · exact .inr (.inr ⟨⟨y, rfl⟩, he⟩)
  | _ => exact absurd rfl hh

end Sys2Proof.Machine
end

