-- ==== Sys2Proof/Laws/PerInstr.lean ====
section
/-! SUPPORT. Statements over all instructions, made per instruction: the family `WordShape`, one lemma for each constructor. -/

namespace Sys2Proof.Laws.WordShape

open Sys2Proof

/-- What a word latched for an instruction looks like (R101, R103, R109; log 2): a descriptor carries the operation's `OP` and zero
reserved bits; a panel word carries the command's opcode parameter, mode 0 and zero reserved bits. -/
def Statement (i : Instr) : Prop :=
  ∀ p : Params,
    (∀ w, encode p i = .descriptor w →
      i.opCode = some (fieldsOfWord w).op ∧ (fieldsOfWord w).reservedLow = 0 ∧ (fieldsOfWord w).reservedHigh = 0) ∧
    (∀ w, encode p i = .panel w →
      (∃ k, i.commands = [k] ∧ (panelFieldsOfWord w).opcode = p.opcode k) ∧ (panelFieldsOfWord w).mode = 0 ∧
        (panelFieldsOfWord w).reserved = 0)

theorem of_hostWord {i : Instr} {f : Params → Fields} (h : ∀ p, encode p i = hostWord (f p))
    (ho : ∀ p, i.opCode = some (f p).op) (hl : ∀ p, (f p).reservedLow = 0) (hh : ∀ p, (f p).reservedHigh = 0) :
    Statement i := by
  intro p
  refine ⟨fun w hw => ?_, fun w hw => ?_⟩
  · rw [h p] at hw
    cases hw
    rw [fieldsOfWord_wordOfFields]
    exact ⟨ho p, hl p, hh p⟩
  · rw [h p] at hw
    cases hw

theorem of_panelWord {i : Instr} (k : PanelOp) {a b : Half} (h : ∀ p, encode p i = panelWord p k a b)
    (hk : i.commands = [k]) : Statement i := by
  intro p
  refine ⟨fun w hw => ?_, fun w hw => ?_⟩
  · rw [h p] at hw
    cases hw
  · rw [h p] at hw
    cases hw
    rw [panelFieldsOfWord_wordOfPanelFields]
    exact ⟨⟨k, hk, rfl⟩, rfl, rfl⟩

theorem init : Statement .init := of_hostWord (fun _ => rfl) (fun _ => rfl) (fun _ => rfl) (fun _ => rfl)
theorem deinit : Statement .deinit := of_hostWord (fun _ => rfl) (fun _ => rfl) (fun _ => rfl) (fun _ => rfl)
theorem cfgdef3 : Statement .cfgdef3 := of_hostWord (fun _ => rfl) (fun _ => rfl) (fun _ => rfl) (fun _ => rfl)
theorem cfgdef4 : Statement .cfgdef4 := of_hostWord (fun _ => rfl) (fun _ => rfl) (fun _ => rfl) (fun _ => rfl)
theorem clear (p : Plane) : Statement (.clear p) := of_hostWord (fun _ => rfl) (fun _ => rfl) (fun _ => rfl) (fun _ => rfl)
theorem wrbuf (p : Plane) : Statement (.wrbuf p) := of_hostWord (fun _ => rfl) (fun _ => rfl) (fun _ => rfl) (fun _ => rfl)
theorem wrpt (p : Plane) (x y : Half) (v : Bit) : Statement (.wrpt p x y v) := of_hostWord (fun _ => rfl) (fun _ => rfl) (fun _ => rfl) (fun _ => rfl)
theorem rdpt (p : Plane) (x y : Half) : Statement (.rdpt p x y) := of_hostWord (fun _ => rfl) (fun _ => rfl) (fun _ => rfl) (fun _ => rfl)
theorem fillrect (p : Plane) (l t r b : Half) (v : Bit) : Statement (.fillrect p l t r b v) := of_hostWord (fun _ => rfl) (fun _ => rfl) (fun _ => rfl) (fun _ => rfl)
theorem drawpic (p : Plane) (l t r b ptr : Half) : Statement (.drawpic p l t r b ptr) := of_hostWord (fun _ => rfl) (fun _ => rfl) (fun _ => rfl) (fun _ => rfl)
theorem drawstr (p : Plane) (x y ptr len : Half) (v : Bit) (fs : Half) : Statement (.drawstr p x y ptr len v fs) := of_hostWord (fun _ => rfl) (fun _ => rfl) (fun _ => rfl) (fun _ => rfl)
theorem softstart (st ti mo : Half) : Statement (.softstart st ti mo) := of_hostWord (fun _ => rfl) (fun _ => rfl) (fun _ => rfl) (fun _ => rfl)
theorem update (t : Half) : Statement (.update t) := of_hostWord (fun _ => rfl) (fun _ => rfl) (fun _ => rfl) (fun _ => rfl)
theorem wrupd (t : Half) : Statement (.wrupd t) := of_hostWord (fun _ => rfl) (fun _ => rfl) (fun _ => rfl) (fun _ => rfl)
theorem pSwreset : Statement .pSwreset := of_panelWord .swreset (fun _ => rfl) rfl
theorem pDrvout : Statement .pDrvout := of_panelWord .drvout (fun _ => rfl) rfl
theorem pEntry : Statement .pEntry := of_panelWord .entry (fun _ => rfl) rfl
theorem pXrange (xs xe : Half) : Statement (.pXrange xs xe) := of_panelWord .xrange (fun _ => rfl) rfl
theorem pYrange (ys ye : Half) : Statement (.pYrange ys ye) := of_panelWord .yrange (fun _ => rfl) rfl
theorem pBorder : Statement .pBorder := of_panelWord .border (fun _ => rfl) rfl
theorem pTemp : Statement .pTemp := of_panelWord .temp (fun _ => rfl) rfl
theorem pXcnt (x : Half) : Statement (.pXcnt x) := of_panelWord .xcnt (fun _ => rfl) rfl
theorem pYcnt (y : Half) : Statement (.pYcnt y) := of_panelWord .ycnt (fun _ => rfl) rfl
theorem pWrbw (q : Payload) : Statement (.pWrbw q) := by
  cases q <;> exact of_panelWord .wrbw (fun _ => rfl) rfl
theorem pWrred : Statement .pWrred := of_panelWord .wrred (fun _ => rfl) rfl
theorem pUc1 : Statement .pUc1 := of_panelWord .uc1 (fun _ => rfl) rfl
theorem pUc2 (w : Waveform) : Statement (.pUc2 w) := by
  cases w <;> exact of_panelWord .uc2 (fun _ => rfl) rfl
theorem pAct : Statement .pAct := of_panelWord .act (fun _ => rfl) rfl
theorem pSoftst (s0 s1 s2 s3 : Byte) : Statement (.pSoftst s0 s1 s2 s3) := of_panelWord .softst (fun _ => rfl) rfl
theorem pSleep : Statement .pSleep := of_panelWord .sleep (fun _ => rfl) rfl

end Sys2Proof.Laws.WordShape
end

