-- ==== Sys2Proof/Laws/Sequences.lean ====
section
/-! SUPPORT. What sequences of waits and complete transactions do, said once and exactly (`Did`): the effect on the state, the draws
taken, and what the trace shows. -/

namespace Sys2Proof.Machine

open Sys2Proof

theorem completes_iff_writesAll (s : State) (ts : List Txn) :
    s.completes ts ↔ s.writesAll (ts.map fun t => t.bytes.length) := by
  simp [State.completes, State.writesAll]

/-! ## Exact waits -/

theorem waitShown_shift (f g : Nat → Bit) (a : Bit) (k i j : Nat) (h : ∀ n, g (i + n) = f (j + n)) :
    waitShown g a k i = waitShown f a k j ∧ waitSamples g a k i = waitSamples f a k j := by
  induction k generalizing i j with
  | zero => exact ⟨rfl, rfl⟩
  | succ k ih =>
    have h0 : g i = f j := h 0
    have hs := ih (i + 1) (j + 1) fun n => by
      have := h (n + 1)
      rwa [show i + (n + 1) = i + 1 + n by omega, show j + (n + 1) = j + 1 + n by omega] at this
    simp only [waitShown, waitSamples, h0, hs.1, hs.2, and_self]

theorem waitLoop_shows (k : Nat) (s : State) :
    ∃ es, Shows es (waitShown s.busyAt s.params.busyActive k 0) ∧
      waitLoop k s = { s with
        tr := s.tr ++ es
        busyFeed := s.busyFeed.popMany (waitSamples s.busyAt s.params.busyActive k 0) } := by
  induction k generalizing s with
  | zero => exact ⟨[], shows_nil, by simp [waitLoop, waitSamples]⟩
  | succ k ih =>
    have h0 : s.busyAt 0 = s.busyLevel := by simp [State.busyAt, State.busyLevel]
    by_cases hb : s.seesBusy = true
    · have hl : s.busyLevel = s.params.busyActive := by simpa [State.seesBusy] using hb
      cases k with
      | zero =>
        refine ⟨[.busyRead s.busyLevel], ?_, ?_⟩
        · simp only [waitShown, h0, hl, ne_eq, not_true, if_false, if_true]
          exact shows_busyRead _
        · rw [waitLoop_last hb]
          simp [waitSamples, h0, hl, sampleBusy, State.emit, Feed.popMany_one]
      | succ k =>
        obtain ⟨es, he, h⟩ := ih ((sampleBusy s).emit [.delay .poll])
        have hs := waitShown_shift s.busyAt (State.busyAt ((sampleBusy s).emit [.delay .poll])) s.params.busyActive (k + 1) 0 1
          (fun n => by simp [State.busyAt, Nat.add_comm 1])
        refine ⟨[.busyRead s.busyLevel] ++ ([.delay .poll] ++ es), ?_, ?_⟩
        · rw [waitShown]
          simp only [h0, hl, ne_eq, not_true, if_false, Nat.add_one_ne_zero]
          rw [← hl]
          refine (shows_busyRead _).append ((shows_delay .poll).append ?_)
          have := he
          rw [show ((sampleBusy s).emit [.delay .poll]).params = s.params from rfl, hs.1] at this
          rwa [hl]
        · have hn : waitSamples s.busyAt s.params.busyActive (k + 1 + 1) 0
              = waitSamples s.busyAt s.params.busyActive (k + 1) 1 + 1 := by
            rw [waitSamples]
            simp [h0, hl]
          rw [waitLoop_again _ hb, h, hn, show ((sampleBusy s).emit [.delay .poll]).params = s.params from rfl, hs.2]
          simp [sampleBusy, State.emit]
    · have hb' : s.seesBusy = false := by simpa using hb
      have hl : s.busyLevel ≠ s.params.busyActive := by simpa [State.seesBusy] using hb
      refine ⟨[.busyRead s.busyLevel] ++ [.delay .settle], ?_, ?_⟩
      · rw [waitShown]
        simp only [h0, hl, ne_eq, not_false_eq_true, if_true]
        exact (shows_busyRead _).append (shows_delay _)
      · rw [waitLoop_notBusy k hb', waitSamples]
        simp [h0, hl, sampleBusy, State.emit, Feed.popMany_one]

/-! ## What a sequence did -/

/-- From `s` to `t`: `n` complete transactions, the last of mode `m` (none at all: `n = 0`, `m = none`), `j` BUSY samples; the trace
grew by events that show as `os`. SEQ is not said. -/
structure Did (s t : State) (n : Nat) (m : Option Bit) (j : Nat) (os : List Obs) : Prop where
  eq : t = { (match m with
      | none => s
      | some m => s.wireEffect n m) with tr := t.tr, seq := t.seq, busyFeed := s.busyFeed.popMany j }
  nothing : m = Option.none → n = 0
  shown : ∃ es, t.tr = s.tr ++ es ∧ Shows es os

theorem Did.cfg {s t : State} {n m j os} (h : Did s t n m j os) : t.cfg = s.cfg := by
  rw [h.eq]; cases m <;> rfl
theorem Did.params {s t : State} {n m j os} (h : Did s t n m j os) : t.params = s.params := by
  rw [h.eq]; cases m <;> rfl
theorem Did.black {s t : State} {n m j os} (h : Did s t n m j os) : t.black = s.black := by
  rw [h.eq]; cases m <;> rfl
theorem Did.red {s t : State} {n m j os} (h : Did s t n m j os) : t.red = s.red := by
  rw [h.eq]; cases m <;> rfl
theorem Did.plane {s t : State} {n m j os} (h : Did s t n m j os) (p : Plane) : t.plane p = s.plane p := by
  cases p
  · exact h.black
  · exact h.red
theorem Did.busyFeed {s t : State} {n m j os} (h : Did s t n m j os) : t.busyFeed = s.busyFeed.popMany j := by
  rw [h.eq]
theorem Did.countFeed {s t : State} {n m j os} (h : Did s t n m j os) : t.countFeed = s.countFeed.popMany n := by
  rw [h.eq]
  cases m with
  | none => rw [h.nothing rfl]; rfl
  | some m => rfl

theorem Did.busyAt {s t : State} {n m j os} (h : Did s t n m j os) (i : Nat) : t.busyAt i = s.busyAt (j + i) := by
  simp [State.busyAt, h.busyFeed, Feed.nth_popMany]

/-- The writes left after those a sequence took. -/
theorem Did.writes {s t : State} {n m j os} (h : Did s t n m j os) {l l' : List Nat} (hl : l.length = n)
    (hw : s.writesAll (l ++ l')) : t.writesAll l' := by
  intro i hi
  have := hw (l.length + i) (by rw [List.length_append]; omega)
  rw [List.getElem_append_right (by omega)] at this
  simpa [h.countFeed, Feed.nth_popMany, hl] using this

theorem writesAll_prefix {s : State} {l l' : List Nat} (hw : s.writesAll (l ++ l')) : s.writesAll l := by
  intro i hi
  have := hw i (by rw [List.length_append]; omega)
  rwa [List.getElem_append_left hi] at this

theorem Did.waitObs {s t : State} {n m j os} (h : Did s t n m j os) :
    t.waitObs 0 = s.waitObs j ∧ j + t.afterWait 0 = s.afterWait j := by
  have := waitShown_shift s.busyAt t.busyAt s.params.busyActive s.params.nPoll 0 j (fun i => by rw [h.busyAt]; simp)
  simp only [State.waitObs, State.afterWait, h.params, this.1, this.2, Nat.zero_add, true_and]

theorem Did.refl (s : State) : Did s s 0 none 0 [] := ⟨rfl, fun _ => rfl, [], by simp, shows_nil⟩

theorem Did.setSeq {s t : State} {n m j os} (h : Did s t n m j os) (q : Seq) : Did s (t.setSeq q) n m j os := by
  refine ⟨?_, h.nothing, h.shown⟩
  have := h.eq
  cases m with
  | none => conv_lhs => rw [this]
            rfl
  | some m => conv_lhs => rw [this]
              rfl

theorem Did.trans {s t u : State} {n m j os n' m' j' os'} (h : Did s t n m j os) (k : Did t u n' m' j' os') :
    Did s u (n + n') (m'.or m) (j + j') (os ++ os') := by
  refine ⟨?_, ?_, ?_⟩
  · have h1 := h.eq
    have k1 := k.eq
    cases m with
    | none =>
      obtain rfl := h.nothing rfl
      cases m' with
      | none =>
        conv_lhs => rw [k1, h1]
        simp [Feed.popMany_popMany]
      | some m' =>
        conv_lhs => rw [k1, h1]
        simp only [State.wireEffect, Feed.popMany_popMany, Nat.zero_add, Option.or_none]
    | some m =>
      cases m' with
      | none =>
        obtain rfl := k.nothing rfl
        conv_lhs => rw [k1, h1]
        simp [Feed.popMany_popMany]
      | some m' =>
        conv_lhs => rw [k1, h1]
        obtain ⟨params, cfg, ini, ts, black, red, pin, seq, status, rdata, cmd, uw, tr, bus, hbuf, hm, hr, bf, cf, rf, buf, nf⟩ := s
        cases ts <;> cases h : cfg.wiring <;>
          simp [State.wireEffect, Cfg.wantedBus, Feed.popMany_popMany, h]
  · intro hm
    cases m' with
    | none => cases m with
      | none => rw [h.nothing rfl, k.nothing rfl]
      | some m => cases hm
    | some m' => cases hm
  · obtain ⟨es, h1, h2⟩ := h.shown
    obtain ⟨fs, k1, k2⟩ := k.shown
    exact ⟨es ++ fs, by rw [k1, h1, List.append_assoc], h2.append k2⟩

theorem did_setSeq (s : State) (q : Seq) : Did s (s.setSeq q) 0 none 0 [] := (Did.refl s).setSeq q

/-- Exactly what a wait does (R200). -/
theorem did_waitReady (s : State) : Did s (waitReady s) 0 none (s.afterWait 0) (s.waitObs 0) := by
  obtain ⟨es, h1, h2⟩ := waitLoop_shows s.params.nPoll s
  have : s.afterWait 0 = waitSamples s.busyAt s.params.busyActive s.params.nPoll 0 := by simp [State.afterWait]
  rw [this]
  exact ⟨by rw [waitReady, h2], fun _ => rfl, es, by rw [waitReady, h2], h1⟩

theorem did_waitInSeq (s : State) : Did s (waitInSeq s) 0 none (s.afterWait 0) (s.waitObs 0) := by
  have h := (did_setSeq s .waitingReady).trans (did_waitReady (s.setSeq .waitingReady))
  have e := (did_setSeq s .waitingReady).waitObs
  rw [e.2, e.1] at h
  exact h

theorem did_sampleBusy (s : State) : Did s (sampleBusy s) 0 none 1 [.busyRead (s.busyAt 0)] := by
  refine ⟨?_, fun _ => rfl, [.busyRead s.busyLevel], rfl, ?_⟩
  · simp [sampleBusy, State.emit, Feed.popMany_one]
  · simp only [State.busyAt, Feed.nth_zero]; exact shows_busyRead _

theorem did_delay (s : State) (d : Duration) : Did s (s.emit [.delay d]) 0 none 0 [.delay d] :=
  ⟨rfl, fun _ => rfl, _, rfl, shows_delay d⟩

/-- Exactly what transactions that all complete do (R143, R144, R150). -/
theorem did_sendAll {s : State} {ts : List Txn} {l : List Nat} (hw : s.writesAll l)
    (hl : (ts.map fun t => t.bytes.length) = l) (hne : ts ≠ []) :
    ∃ t, sendAll ts s = .done t ∧ Did s t ts.length (some (lastMode ts)) 0 (ts.map Txn.whole) ∧ t.seq = s.seq := by
  have hc : s.completes ts := (completes_iff_writesAll s ts).2 (by rw [hl]; exact hw)
  exact ⟨_, sendAll_of_completes hc hne, ⟨rfl, (fun h => by cases h), _, rfl, (shows_busCheck s).append (shows_whole _ ts)⟩, rfl⟩

theorem pushTxns_lengths (p : Params) (pl : Plane) (buf : List Byte) :
    ((pushTxns p pl buf).map fun t => t.bytes.length) = List.replicate 14 1 ++ [buf.length] := by
  cases pl <;> rfl

theorem pushTxns_obs (p : Params) (pl : Plane) (buf : List Byte) :
    (pushTxns p pl buf).map Txn.whole = pushObs p pl buf := by
  cases pl <;> rfl

theorem planeBytes_length (m : Mem) : m.planeBytes.length = 5000 := by simp [Mem.planeBytes]
theorem flashBytes_length : flashBytes.length = 5000 := List.length_replicate

/-- A window, cursor and RAM write of 5000 bytes that complete (R232, R233). -/
theorem did_pushTxns (pl : Plane) {buf : List Byte} (hb : buf.length = 5000) {s : State}
    (hw : s.writesAll (List.replicate 14 1 ++ [5000])) :
    ∃ t, sendAll (pushTxns s.params pl buf) (s.setSeq .transmitting) = .done t ∧
      Did s t 15 (some 1) 0 (pushObs s.params pl buf) := by
  have h0 := did_setSeq s .transmitting
  obtain ⟨t, h1, h2, -⟩ := did_sendAll (s := s.setSeq .transmitting)
    (ts := pushTxns s.params pl buf) (l := List.replicate 14 1 ++ [5000])
    (h0.writes (l := []) rfl hw) (by rw [pushTxns_lengths, hb]) (by cases pl <;> simp [pushTxns, fullWindow, cSetWindow, txnsXrange, pc])
  have hlen : (pushTxns s.params pl buf).length = 15 := by cases pl <;> rfl
  have hmode : lastMode (pushTxns s.params pl buf) = 1 := by cases pl <;> rfl
  rw [hlen, hmode, pushTxns_obs] at h2
  exact ⟨t, h1, h0.trans h2⟩

/-- A push that completes (R232). -/
theorem did_push (pl : Plane) {s : State} (hw : s.writesAll (List.replicate 14 1 ++ [5000])) :
    ∃ t, push pl s = .done t ∧ Did s t 15 (some 1) 0 (pushObs s.params pl (s.plane pl).planeBytes) :=
  did_pushTxns pl (planeBytes_length _) hw

/-- A flash that completes (R233). -/
theorem did_flash {s : State} (hw : s.writesAll (List.replicate 14 1 ++ [5000])) :
    ∃ t, flash s = .done t ∧ Did s t 15 (some 1) 0 (pushObs s.params .black flashBytes) :=
  did_pushTxns .black flashBytes_length hw

/-- An activation that completes (R234). -/
theorem did_activate (w : Waveform) {s : State} (hw : s.writesAll (List.replicate 6 1)) :
    ∃ t, activate w s = .done t ∧ Did s t 6 (some 0) 0 (actObs s.params (waveformByte w)) := by
  have hw' : s.writesAll (List.replicate 5 1 ++ [1]) := hw
  have h0 := did_setSeq s .transmitting
  obtain ⟨t, h1, h2, -⟩ := did_sendAll (s := s.setSeq .transmitting)
    (ts := txnsUc1 s.params ++ txnsUc2 s.params w) (l := List.replicate 5 1)
    (h0.writes (l := []) rfl (writesAll_prefix hw')) rfl (by simp [txnsUc1, pc])
  have h3 := h0.trans h2
  have h4 := h3.setSeq .activating
  obtain ⟨u, k1, k2, -⟩ := did_sendAll (s := t.setSeq .activating) (ts := txnsAct s.params) (l := [1])
    (h4.writes (l := List.replicate 5 1) rfl hw') rfl (by simp [txnsAct, pc])
  refine ⟨u, ?_, h4.trans k2⟩
  rw [activate, h1, andThen_done, h3.params]
  exact k1

/-! ## Time as lower bounds -/

@[simp] theorem sleptAtLeast_nil (p : Params) : sleptAtLeast p [] = 0 := rfl
@[simp] theorem sleptAtLeast_append (p : Params) (a b : List Event) :
    sleptAtLeast p (a ++ b) = sleptAtLeast p a + sleptAtLeast p b := by simp [sleptAtLeast]
@[simp] theorem sleptAtLeast_delay (p : Params) (d : Duration) (es : List Event) :
    sleptAtLeast p (.delay d :: es) = d.micros p + sleptAtLeast p es := rfl
@[simp] theorem sleptAtLeast_busyRead (p : Params) (l : Bit) (es : List Event) :
    sleptAtLeast p (.busyRead l :: es) = sleptAtLeast p es := Nat.zero_add _

end Sys2Proof.Machine
end

