-- ==== Sys2Proof/Laws/Text.lean ====
section
/-! SUPPORT. What DRAWSTR's layout and glyphs do, said once: where the glyphs stand, what each does to every pixel. -/

namespace Sys2Proof.Machine

open Sys2Proof

/-- The characters of a text from an address on: the first, then those of the text from the next address on. -/
theorem chars_succ (hb : Mem) (n a : Nat) : ((List.range (n + 1)).map fun k => (hb.read (a + k)).toNat)
    = (hb.read a).toNat :: (List.range n).map fun k => (hb.read (a + 1 + k)).toNat := by
  rw [List.range_succ_eq_map, List.map_cons, List.map_map]
  congr 1
  exact List.map_congr_left fun k _ => by simp only [Function.comp]; congr 2; omega

/-- One character more: what is asked of the text behind it, by where the layout leaves the cursor. -/
theorem textDots_succ (q : Params) (hb : Mem) (fs : Nat) (v : Bit) (n a cx cy : Nat) (h : a < q.hbufSize) :
    textDots q hb fs v (n + 1) a cx cy =
      if 127 < (hb.read a).toNat then textDots q hb fs v n (a + 1) cx cy
      else if cx + fs ≤ 200 then
        if cy + fs ≤ 200 then (textDots q hb fs v n (a + 1) (cx + fs) cy).map fun ds => glyphDots q (hb.read a).toNat cx cy fs v ++ ds
        else some []
      else if fs ≤ 200 ∧ cy + fs + fs ≤ 200 then
        (textDots q hb fs v n (a + 1) fs (cy + fs)).map fun ds => glyphDots q (hb.read a).toNat 0 (cy + fs) fs v ++ ds
      else some [] := by
  rw [textDots, if_pos h]
  by_cases h1 : 127 < (hb.read a).toNat
  · rw [if_pos (show Config.charMax < _ from h1), if_pos h1]
  · rw [if_neg (show ¬ Config.charMax < _ from h1), if_neg h1]
    by_cases h2 : cx + fs ≤ 200
    · have h2' : ¬ Config.width < cx + fs := by simp only [Config.width]; omega
      simp only [if_neg h2', if_pos h2]
      by_cases h3 : cy + fs ≤ 200
      · rw [if_neg (show ¬ Config.height < cy + fs by simp only [Config.height]; omega), if_pos h3]
      · rw [if_pos (show Config.height < cy + fs by simp only [Config.height]; omega), if_neg h3]
    · have h2' : Config.width < cx + fs := by simp only [Config.width]; omega
      simp only [if_pos h2', if_neg h2]
      by_cases h3 : fs ≤ 200 ∧ cy + fs + fs ≤ 200
      · rw [if_neg (show ¬ Config.height < cy + fs + fs by simp only [Config.height]; omega), if_pos h3, Nat.zero_add]
      · rw [if_pos (show Config.height < cy + fs + fs by simp only [Config.height]; omega), if_neg h3]

/-- Where the text stops silently before it reads beyond HBUF_SIZE, its pixel writes are those of the glyphs the layout places
(R268, R76). -/
theorem text_places (q : Params) (hb : Mem) (fs : Nat) (v : Bit) (n a cx cy : Nat)
    (h : ∀ k, k < n → q.hbufSize ≤ a + k → textStops fs (((List.range n).map fun k => (hb.read (a + k)).toNat).take k) cx cy = true) :
    textDots q hb fs v n a cx cy = some ((glyphPlaces fs ((List.range n).map fun k => (hb.read (a + k)).toNat) cx cy).flatMap
      fun g => glyphDots q g.1 g.2.1 g.2.2 fs v) := by
  induction n generalizing a cx cy with
  | zero => rfl
  | succ n ih =>
    have ha : a < q.hbufSize := by
      by_contra hc
      have := h 0 (by omega) (by omega)
      simp [textStops] at this
    rw [chars_succ] at h ⊢
    have h' : ∀ k, k < n → q.hbufSize ≤ a + 1 + k →
        textStops fs ((hb.read a).toNat :: ((List.range n).map fun k => (hb.read (a + 1 + k)).toNat).take k) cx cy = true :=
      fun k hk hl => h (k + 1) (by omega) (by omega)
    simp only [textStops] at h'
    rw [textDots_succ _ _ _ _ _ _ _ _ ha, glyphPlaces]
    split <;> rename_i h1
    · simp only [if_pos h1] at h'
      exact ih _ _ _ h'
    · simp only [if_neg h1] at h'
      split <;> rename_i h2
      · simp only [if_pos h2] at h'
        split <;> rename_i h3
        · simp only [if_pos h3] at h'
          rw [ih _ _ _ h']; rfl
        · rfl
      · simp only [if_neg h2] at h'
        split <;> rename_i h3
        · simp only [if_pos h3] at h'
          rw [ih _ _ _ h']; rfl
        · rfl

/-- Where a character at or beyond HBUF_SIZE is reached before the silent stop, the text has no pixel writes (U3). -/
theorem text_overrun (q : Params) (hb : Mem) (fs : Nat) (v : Bit) (n a cx cy : Nat)
    (h : ∃ k, k < n ∧ q.hbufSize ≤ a + k ∧ textStops fs (((List.range n).map fun k => (hb.read (a + k)).toNat).take k) cx cy = false) :
    textDots q hb fs v n a cx cy = none := by
  induction n generalizing a cx cy with
  | zero => obtain ⟨k, hk, -⟩ := h; omega
  | succ n ih =>
    by_cases ha : a < q.hbufSize
    · obtain ⟨k, hk, hl, hs⟩ := h
      obtain ⟨k, rfl⟩ : ∃ j, k = j + 1 := ⟨k - 1, by omega⟩
      rw [chars_succ, List.take_succ_cons, textStops] at hs
      rw [textDots_succ _ _ _ _ _ _ _ _ ha]
      split at hs <;> rename_i h1
      · rw [if_pos h1]; exact ih _ _ _ ⟨k, by omega, by omega, hs⟩
      · rw [if_neg h1]
        split at hs <;> rename_i h2
        · rw [if_pos h2]
          split at hs <;> rename_i h3
          · rw [if_pos h3, ih _ _ _ ⟨k, by omega, by omega, hs⟩]; rfl
          · cases hs
        · rw [if_neg h2]
          split at hs <;> rename_i h3
          · rw [if_pos h3, ih _ _ _ ⟨k, by omega, by omega, hs⟩]; rfl
          · cases hs
    · rw [textDots, if_neg ha]

/-- Every glyph of a layout lies on the panel, right of the cursor or below its line. -/
theorem places_bounds (fs : Nat) (cs : List Nat) (cx cy : Nat) :
    ∀ g ∈ glyphPlaces fs cs cx cy, g.2.1 + fs ≤ 200 ∧ g.2.2 + fs ≤ 200 ∧ ((g.2.2 = cy ∧ cx ≤ g.2.1) ∨ cy + fs ≤ g.2.2) := by
  induction cs generalizing cx cy with
  | nil => intro g hg; cases hg
  | cons c cs ih =>
    intro g hg
    rw [glyphPlaces] at hg
    split at hg
    · exact ih _ _ g hg
    · split at hg
      · split at hg
        · rcases List.mem_cons.1 hg with rfl | hg
          · exact ⟨by assumption, by assumption, .inl ⟨rfl, le_refl _⟩⟩
          · have := ih _ _ g hg; omega
        · cases hg
      · split at hg
        · rcases List.mem_cons.1 hg with rfl | hg
          · simp only; omega
          · have := ih _ _ g hg; omega
        · cases hg

/-- What a glyph shows at a pixel of its cell (R268). -/
def glyphPixel (p : Params) (fs : Nat) (v old : Bit) (px py : Nat) (g : Nat × Nat × Nat) : Bit :=
  if fontPixel p g.1 ((py - g.2.2) * 8 / fs) ((px - g.2.1) * 8 / fs) then v
  else match p.strBg with
    | .opaqueBg => 1 - v
    | .transparentBg => old

/-- A pixel lies in a glyph's cell. -/
theorem inCell_iff (fs px py : Nat) (g : Nat × Nat × Nat) : inCell fs px py g = true ↔ g.2.1 ≤ px ∧ px < g.2.1 + fs ∧ g.2.2 ≤ py ∧ py < g.2.2 + fs := by
  simp [inCell]

/-- Every pixel write of a glyph: its place, and its value by the source pixel. -/
theorem dot_form {q : Params} {c cx cy fs v d} (h : d ∈ glyphDots q c cx cy fs v) :
    ∃ o : Nat × Nat, o.1 < fs ∧ o.2 < fs ∧ d.x = cx + o.1 ∧ d.y = cy + o.2 ∧
      (if fontPixel q c (o.2 * 8 / fs) (o.1 * 8 / fs) then d.v = v else q.strBg = .opaqueBg ∧ d.v = 1 - v) := by
  obtain ⟨o, ho, hd⟩ := List.mem_filterMap.1 h
  have := mem_rectOffsets.1 ho
  refine ⟨o, this.1, this.2, ?_⟩
  split at hd
  · rename_i hf; cases hd; exact ⟨rfl, rfl, by rw [if_pos hf]⟩
  · rename_i hf
    split at hd
    · rename_i hb; cases hd; exact ⟨rfl, rfl, by rw [if_neg hf]; exact ⟨hb, rfl⟩⟩
    · cases hd

/-- A glyph leaves every pixel outside its cell. -/
theorem glyph_out {m : Mem} (hm : m.wf 5000) {q : Params} {fs : Nat} {v : Bit} {g : Nat × Nat × Nat} (hx : g.2.1 + fs ≤ 200) (hy : g.2.2 + fs ≤ 200)
    {px py : Nat} (hpx : px < 200) (hpy : py < 200) (h : inCell fs px py g = false) :
    (m.paint (glyphDots q g.1 g.2.1 g.2.2 fs v)).pixel px py = m.pixel px py := by
  refine pixel_paint_untouched hm (glyphDots_onPanel q g.1 v hx hy) hpx hpy ?_
  intro d hd
  obtain ⟨o, h1, h2, h3, h4, -⟩ := dot_form hd
  have h' : ¬ (g.2.1 ≤ px ∧ px < g.2.1 + fs ∧ g.2.2 ≤ py ∧ py < g.2.2 + fs) := by
    rw [← inCell_iff, h]; simp
  omega

/-- A glyph sets the pixels of its cell. -/
theorem glyph_in {m : Mem} (hm : m.wf 5000) {q : Params} {fs : Nat} {v : Bit} {g : Nat × Nat × Nat} (hx : g.2.1 + fs ≤ 200) (hy : g.2.2 + fs ≤ 200)
    {px py : Nat} (hpx : px < 200) (hpy : py < 200) (h : inCell fs px py g = true) :
    (m.paint (glyphDots q g.1 g.2.1 g.2.2 fs v)).pixel px py = glyphPixel q fs v (m.pixel px py) px py g := by
  have h' := (inCell_iff _ _ _ _).1 h
  have on := glyphDots_onPanel q g.1 v hx hy
  have ho : (px - g.2.1, py - g.2.2) ∈ rectOffsets fs fs := mem_rectOffsets.2 ⟨by simp only; omega, by simp only; omega⟩
  have eqo : ∀ {d : Dot} {o : Nat × Nat}, d.x = px → d.y = py → d.x = g.2.1 + o.1 → d.y = g.2.2 + o.2 → o.1 = px - g.2.1 ∧ o.2 = py - g.2.2 := by
    intro d o; omega
  unfold glyphPixel
  by_cases hf : fontPixel q g.1 ((py - g.2.2) * 8 / fs) ((px - g.2.1) * 8 / fs) = true
  · rw [if_pos hf]
    refine pixel_paint_touched hm on hpx hpy ⟨{ x := px, y := py, v := v }, List.mem_filterMap.2 ⟨_, ho, ?_⟩, rfl, rfl⟩ ?_
    · simp only [Config.glyphSrc]; rw [if_pos hf]
      rw [show g.2.1 + (px - g.2.1) = px by omega, show g.2.2 + (py - g.2.2) = py by omega]
    · intro d hd hdx hdy
      obtain ⟨o, h1, h2, h3, h4, h5⟩ := dot_form hd
      obtain ⟨e1, e2⟩ := eqo hdx hdy h3 h4
      rw [e1, e2, if_pos hf] at h5; exact h5
  · rw [if_neg hf]
    cases hb : q.strBg with
    | opaqueBg =>
      refine pixel_paint_touched hm on hpx hpy ⟨{ x := px, y := py, v := 1 - v }, List.mem_filterMap.2 ⟨_, ho, ?_⟩, rfl, rfl⟩ ?_
      · simp only [Config.glyphSrc]; rw [if_neg hf, hb]
        simp only
        rw [show g.2.1 + (px - g.2.1) = px by omega, show g.2.2 + (py - g.2.2) = py by omega]
      · intro d hd hdx hdy
        obtain ⟨o, h1, h2, h3, h4, h5⟩ := dot_form hd
        obtain ⟨e1, e2⟩ := eqo hdx hdy h3 h4
        rw [e1, e2, if_neg hf] at h5; exact h5.2
    | transparentBg =>
      refine pixel_paint_untouched hm on hpx hpy ?_
      intro d hd
      obtain ⟨o, h1, h2, h3, h4, h5⟩ := dot_form hd
      by_contra hcon
      have : d.x = px ∧ d.y = py := by omega
      obtain ⟨e1, e2⟩ := eqo this.1 this.2 h3 h4
      rw [e1, e2, if_neg hf, hb] at h5
      cases h5.1

/-- What every pixel shows after the text (R268). -/
theorem paint_places {m : Mem} (hm : m.wf 5000) (q : Params) {fs : Nat} (hfs : 0 < fs) (v : Bit) (cs : List Nat) (cx cy : Nat)
    {px py : Nat} (hpx : px < 200) (hpy : py < 200) :
    (m.paint ((glyphPlaces fs cs cx cy).flatMap fun g => glyphDots q g.1 g.2.1 g.2.2 fs v)).pixel px py
      = textPixel q fs (glyphPlaces fs cs cx cy) v (m.pixel px py) px py := by
  have key : ∀ (c x y : Nat) (rest : List (Nat × Nat × Nat)), x + fs ≤ 200 → y + fs ≤ 200 →
      (∀ g ∈ rest, g.2.1 + fs ≤ 200 ∧ g.2.2 + fs ≤ 200 ∧ ((g.2.2 = y ∧ x + fs ≤ g.2.1) ∨ y + fs ≤ g.2.2)) →
      (∀ m : Mem, m.wf 5000 → (m.paint (rest.flatMap fun g => glyphDots q g.1 g.2.1 g.2.2 fs v)).pixel px py = textPixel q fs rest v (m.pixel px py) px py) →
      ∀ m : Mem, m.wf 5000 → (m.paint (((c, x, y) :: rest).flatMap fun g => glyphDots q g.1 g.2.1 g.2.2 fs v)).pixel px py
        = textPixel q fs ((c, x, y) :: rest) v (m.pixel px py) px py := by
    intro c x y rest hx hy hr ih m hm
    rw [List.flatMap_cons, paint_append, ih _ (paint_wf hm (glyphDots_onPanel q c v hx hy))]
    by_cases h : inCell fs px py (c, x, y) = true
    · have hnone : rest.find? (inCell fs px py) = none := by
        rw [List.find?_eq_none]
        intro g hg hin
        have := hr g hg
        have h1 := (inCell_iff _ _ _ _).1 hin
        have h2 := (inCell_iff _ _ _ _).1 h
        simp only at h2
        omega
      rw [textPixel, hnone, textPixel, List.find?_cons_of_pos h]
      exact glyph_in (g := (c, x, y)) hm hx hy hpx hpy h
    · rw [glyph_out (g := (c, x, y)) hm hx hy hpx hpy (by simpa using h)]
      rw [textPixel, textPixel, List.find?_cons_of_neg (by simpa using h)]
  induction cs generalizing m cx cy with
  | nil => rfl
  | cons c cs ih =>
    rw [glyphPlaces]
    split
    · exact ih hm _ _
    · split
      · split
        · refine key _ _ _ _ (by assumption) (by assumption) ?_ (fun m hm => ih hm _ _) m hm
          exact places_bounds fs cs _ _
        · rfl
      · split
        · rename_i h
          refine key _ _ _ _ (by omega) h.2 ?_ (fun m hm => ih hm _ _) m hm
          intro g hg
          have := places_bounds fs cs _ _ g hg
          omega
        · rfl

end Sys2Proof.Machine
end

