-- ==== Sys2Proof/Laws/Underway.lean ====
section
/-! SUPPORT. The lines of an operation, said once: lists of lines compose, and panel commands that follow each other send their
transactions one after the other. -/

namespace Sys2Proof.Machine

open Sys2Proof

@[simp] theorem runTasks_nil (s : State) : runTasks [] s = .done s := rfl

theorem runTasks_cons (t : Task) (ts : List Task) (s : State) :
    runTasks (t :: ts) s = (runTask t s).andThen (runTasks ts) := rfl

theorem runTasks_append (a b : List Task) (s : State) : runTasks (a ++ b) s = (runTasks a s).andThen (runTasks b) := by
  induction a generalizing s with
  | nil => rfl
  | cons t ts ih =>
    rw [List.cons_append, runTasks_cons, runTasks_cons]
    cases runTask t s with
    | done u => exact ih u
    | raised e u => rfl

/-- What a command sends depends on the parameters and the planes only. -/
theorem panelTxns_congr {s t : State} (hp : t.params = s.params) (hb : t.black = s.black) (hr : t.red = s.red) (i : Instr) :
    panelTxns t i = panelTxns s i := by
  cases i with
  | pWrbw q => cases q <;> simp only [panelTxns, payloadBytes, hp, hb]
  | _ => simp only [panelTxns, hp, hr]

/-- Commands one after the other (R108, R146). -/
theorem runTasks_issues (is : List Instr) (s : State) :
    runTasks (is.map Task.issue) s = sendAll (is.flatMap (panelTxns s)) s := by
  induction is generalizing s with
  | nil => rfl
  | cons i is ih =>
    rw [List.map_cons, runTasks_cons, List.flatMap_cons, sendAll_append]
    have hr := (ran_sendAll (txnOf_panel s i)).1
    change (sendAll (panelTxns s i) s).andThen _ = _
    revert hr
    cases sendAll (panelTxns s i) s with
    | raised e u => exact fun _ => rfl
    | done u =>
      intro hr
      change runTasks (is.map Task.issue) u = sendAll (is.flatMap (panelTxns s)) u
      have h : panelTxns u = panelTxns s := funext (panelTxns_congr hr.params hr.black hr.red)
      rw [ih, h]

end Sys2Proof.Machine
end

