-- ==== Sys2Proof/Tests/Slice0.lean ====
section
/-! SUPPORT. Named tests, each a small theorem. Expected values come from spec/: the vectors of 95_test_vectors.md (VH, VT, VC, VW, VF,
VS, VD, VL, VX) or a rule; each test names its source. Then, for every statement with hypotheses, a witness that something meets
them. -/

namespace Sys2Proof.Tests

open Sys2Proof Sys2Proof.Machine

/-! ## A small machine -/

/-- The spec's defaults with N_POLL = 3 (VW1 to VW4), a font whose every glyph is its pixel [0][0] (VD14), one soft-start value
and one `invalid` (VS15, VS16). -/
def params : Params :=
  { Config.defaults with
    nPoll := 3
    font := Vector.replicate 128 1
    softStart :=
      [{ strength := 3, time := 2, minOff := 1, result := some { s0 := 0x8B, s1 := 0x9C, s2 := 0x96, s3 := 0x0F } },
       { strength := 9, time := 9, minOff := 9, result := none }] }

/-- Power on, CFG set to this wiring (VL1), every write complete, BUSY never busy. -/
def powered (w : Wiring) : State :=
  { State.reset with
    params := params
    cfg := { State.reset.cfg with wiring := w }
    bus := { width := widthOf w, hz := 4000000 }
    hbuf := { fill := .ones, cells := [] }
    busyFeed := { given := List.replicate 4 0, used := 0 }
    countFeed := { given := List.replicate 44 5000, used := 0 }
    rateFeed := { given := [4000000], used := 0 } }

/-- "Fresh": right after a successful INIT (95_test_vectors.md, conventions). -/
def fresh (w : Wiring) : State :=
  { powered w with
    initialised := true
    ts := some { mode := 1, bush := 0, hz := 4000000 }
    pin := { cs := 1, dc := 1, rst := 1 }
    black := Mem.cleared
    red := Mem.cleared }

/-- Where an instruction leads. -/
def after (i : Instr) (s : State) : State :=
  match exec i s with
  | .next t => t
  | .fault _ => s
  | .refused _ => s

/-- An instruction answers a next state that passes this check. -/
def passes (i : Instr) (s : State) (check : State → Bool) : Bool :=
  match exec i s with
  | .next t => check t
  | .fault _ => false
  | .refused _ => false

def withBusy (s : State) (ls : List Bit) : State := { s with busyFeed := { given := ls, used := 0 } }
def withCounts (s : State) (ns : List Nat) : State := { s with countFeed := { given := ns, used := 0 } }

/-! ## WellFormed: an ill-formed term for each check -/

/-- R264: w = 200, stride = 25: 5000 bytes from 60537 on end at 65537, past HBUF_SIZE = 65536. -/
theorem test_wf_drawpic_past_hbuf : Instr.wellFormed params (.drawpic .black 0 0 199 199 60537) = false := by decide
theorem test_wf_drawpic_to_the_end : Instr.wellFormed params (.drawpic .black 0 0 199 199 60536) = true := by decide
theorem test_wf_drawstr_past_hbuf : Instr.wellFormed params (.drawstr .black 0 0 65534 3 1 8) = false := by decide
theorem test_wf_null_needs_no_buffer : Instr.wellFormed params (.drawstr .black 0 0 0xFFFF 9 1 8) = true := by decide
theorem test_wf_params : params.wellFormed = true := by decide
theorem test_wf_equal_opcodes : Params.wellFormed { params with opcSoftStart := 0x10 } = false := by decide
theorem test_wf_no_polls : Params.wellFormed { params with nPoll := 0 } = false := by decide

/-! ## Decoding: words of VH1 to VH21, VH30 to VH38 -/

theorem test_decode_init : decodeDescriptor 0x81 = .ok .init := by decide
theorem test_decode_deinit : decodeDescriptor 0x82 = .ok .deinit := by decide
theorem test_decode_cfgdef3 : decodeDescriptor 0x83 = .ok .cfgdef3 := by decide
theorem test_decode_cfgdef4 : decodeDescriptor 0x84 = .ok .cfgdef4 := by decide
theorem test_decode_clear : decodeDescriptor 0x190 = .ok (.clear .red) := by decide
theorem test_decode_wrbuf : decodeDescriptor 0x191 = .ok (.wrbuf .red) := by decide
theorem test_decode_wrpt : decodeDescriptor 0x00000039000D0292 = .ok (.wrpt .black 13 57 1) := by decide
theorem test_decode_rdpt : decodeDescriptor 0x0000006300640193 = .ok (.rdpt .red 100 99) := by decide
theorem test_decode_fillrect :
    decodeDescriptor 0x00500064001400140294 = .ok (.fillrect .black 20 20 100 80 1) := by decide
theorem test_decode_drawpic :
    decodeDescriptor 0x0000FFFF000000000009000000000095 = .ok (.drawpic .black 0 0 9 0 0xFFFF) := by decide
theorem test_decode_drawstr :
    decodeDescriptor 0x00000000000100000008000000C40296 = .ok (.drawstr .black 196 0 0 1 1 8) := by decide
theorem test_decode_softstart : decodeDescriptor 0x00010002000300A0 = .ok (.softstart 3 2 1) := by decide
theorem test_decode_update : decodeDescriptor 0x000200A1 = .ok (.update 2) := by decide
theorem test_decode_wrupd : decodeDescriptor 0xFFFF00A2 = .ok (.wrupd 65535) := by decide
/-- VH35: unused fields are ignored. -/
theorem test_decode_ignores_unused : decodeDescriptor 0x12340290 = .ok (.clear .black) := by decide
/-- VH30 to VH33. -/
theorem test_decode_zero : decodeDescriptor 0 = .error .unknownOp := by decide
theorem test_decode_unassigned : decodeDescriptor 0x97 = .error .unknownOp := by decide
theorem test_decode_bit10 : decodeDescriptor 0x490 = .error .reservedBits := by decide
theorem test_decode_bit112 : decodeDescriptor 0x00010000000000000000000000000090 = .error .reservedBits := by decide
/-- VH9's sixteen bytes. -/
theorem test_decode_bytes :
    decodeBytes [0x92, 0x02, 0x0D, 0x00, 0x39, 0, 0, 0, 0, 0, 0, 0, 0, 0, 0, 0] = .ok (.wrpt .black 13 57 1) := by decide
theorem test_decode_fifteen_bytes : decodeBytes (List.replicate 15 0x81) = .error .wrongLength := by decide

/-- R109: the command frame of each panel command, nine bits: mode 0 and its opcode; operands as log 2 lays them out. -/
theorem test_decode_swreset : decodePanel params 0b000010010 = .ok .pSwreset := by decide
theorem test_decode_drvout : decodePanel params 0b000000001 = .ok .pDrvout := by decide
theorem test_decode_entry : decodePanel params 0b000010001 = .ok .pEntry := by decide
theorem test_decode_xrange : decodePanel params 0x00C700000044 = .ok (.pXrange 0 199) := by decide
theorem test_decode_yrange : decodePanel params 0x000000C70045 = .ok (.pYrange 199 0) := by decide
theorem test_decode_border : decodePanel params 0b000111100 = .ok .pBorder := by decide
theorem test_decode_temp : decodePanel params 0b000011000 = .ok .pTemp := by decide
theorem test_decode_xcnt : decodePanel params 0x00C7004E = .ok (.pXcnt 199) := by decide
theorem test_decode_ycnt : decodePanel params 0x00C7004F = .ok (.pYcnt 199) := by decide
theorem test_decode_wrbw : decodePanel params 0x00010024 = .ok (.pWrbw .flashBytes) := by decide
theorem test_decode_wrred : decodePanel params 0b000100110 = .ok .pWrred := by decide
theorem test_decode_uc1 : decodePanel params 0b000100001 = .ok .pUc1 := by decide
theorem test_decode_uc2 : decodePanel params 0x00010022 = .ok (.pUc2 .cleanWave) := by decide
theorem test_decode_act : decodePanel params 0b000100000 = .ok .pAct := by decide
theorem test_decode_softst : decodePanel params 0x0F969C8B000C = .ok (.pSoftst 0x8B 0x9C 0x96 0x0F) := by decide
theorem test_decode_sleep : decodePanel params 0b000010000 = .ok .pSleep := by decide
/-- A data frame is no command (R105); a byte that is none of the sixteen opcodes; an operand where none belongs (log 2). -/
theorem test_decode_data_frame : decodePanel params 0b100100000 = .error .dataFrame := by decide
theorem test_decode_no_opcode : decodePanel params 0x13 = .error .unknownPanelOpcode := by decide
theorem test_decode_act_operand : decodePanel params 0x00010020 = .error .panelOperand := by decide

/-- The opcode table's words, as wide as the table gives them. -/
theorem test_table_words : decodeTableWord 128 0xA2 = some (.wrupd 0) ∧ decodeTableWord 8 0x20 = some .pAct ∧
    decodeTableWord 8 0x10 = some .pSleep ∧ decodeTableWord 128 0x97 = none := by decide

/-! ## Transport, pin level (VT1 to VT9) -/

def sent (t : Txn) (s : State) : List Event := (tWrBytes t s).state.tr

theorem test_VT2 :
    sent (cData 0xC7) (fresh .fourWire) = [.pinSet .dc 1, .pinSet .cs 0, .frame (.f8 0xC7), .pinSet .cs 1] := by decide
theorem test_VT5 :
    sent (cDataBuf [0xC7, 0x00]) (fresh .threeWire) =
      [.pinSet .cs 0, .frame (.f9 0x1C7), .frame (.f9 0x100), .pinSet .cs 1] := by decide
theorem test_VT6 :
    tWrBytes (cDataBuf [0x00, 0x80]) (withCounts (fresh .fourWire) [1]) = .raised .transportError
      { fresh .fourWire with
        tr := [.pinSet .dc 1, .pinSet .cs 0, .frame (.f8 0x00), .pinSet .cs 1]
        countFeed := { given := [], used := 1 } } := by rfl
theorem test_VT8 :
    sent (cData 0x05) { fresh .threeWire with bus := { width := .bits8, hz := 4000000 } } =
      [.busCfg .bits9 4000000, .pinSet .cs 0, .frame (.f9 0x105), .pinSet .cs 1] := by decide
theorem test_VT9 :
    sent (cData 0x05) { fresh .fourWire with bus := { width := .bits8, hz := 1000000 } } =
      [.busCfg .bits8 4000000, .pinSet .dc 1, .pinSet .cs 0, .frame (.f8 0x05), .pinSet .cs 1] := by decide

/-! ## Waiting (VW2, VW4) -/

theorem test_VW2 :
    (waitReady (withBusy (fresh .fourWire) [1, 0])).tr = [.busyRead 1, .delay .poll, .busyRead 0, .delay .settle] := by
  decide
theorem test_VW4 :
    (waitReady (withBusy (fresh .fourWire) [1, 1, 1])).tr =
      [.busyRead 1, .delay .poll, .busyRead 1, .delay .poll, .busyRead 1] := by decide

/-! ## Framebuffer (VF1 to VF18) -/

theorem test_wrpt_VF1 :
    passes (.wrpt .black 13 57 1) (fresh .fourWire)
      (fun t => t.black == { fill := .ones, cells := [(3551, 0xFB)] } && t.status == .ok) = true := by decide
theorem test_wrpt_VF7 :
    passes (.wrpt .black 199 0 1) (fresh .fourWire)
      (fun t => t.black == { fill := .ones, cells := [(4999, 0xFE)] }) = true := by decide
/-- VF2, VF3: the row is mirrored. -/
theorem test_rdpt_VF2 :
    passes (.rdpt .black 13 57) (after (.wrpt .black 13 57 1) (fresh .fourWire)) (fun t => t.rdata == 0) = true := by decide
theorem test_rdpt_VF3 :
    passes (.rdpt .black 13 142) (after (.wrpt .black 13 57 1) (fresh .fourWire)) (fun t => t.rdata == 1) = true := by decide
/-- VF16. -/
theorem test_clear_VF16 :
    passes (.clear .black) (after (.wrpt .black 13 57 1) (fresh .fourWire))
      (fun t => t.black.read 3551 == 0xFF && t.black.cells.isEmpty) = true := by decide

/-! ## Drawing (VD4 to VD14) -/

theorem test_fillrect_VD4 :
    passes (.fillrect .red 0 0 7 0 1) (fresh .fourWire)
      (fun t => t.red == { fill := .ones, cells := [(4975, 0x00)] } && t.black == Mem.cleared) = true := by decide
theorem test_fillrect_VD5 :
    passes (.fillrect .black 4 0 11 0 1) (fresh .fourWire)
      (fun t => t.black == { fill := .ones, cells := [(4975, 0xF0), (4976, 0x0F)] }) = true := by decide
theorem test_drawpic_VD6 :
    passes (.drawpic .black 0 0 9 0 0) { fresh .fourWire with hbuf := { fill := .ones, cells := [(0, 0xA5), (1, 0xC0)] } }
      (fun t => t.black == { fill := .ones, cells := [(4975, 0x5A), (4976, 0x3F)] }) = true := by decide
/-- VD9: the null pointer. -/
theorem test_drawpic_VD9 :
    passes (.drawpic .black 0 0 9 0 0xFFFF) (fresh .fourWire)
      (fun t => t.status == .invalidArgument && t.black == Mem.cleared) = true := by decide
set_option maxRecDepth 8000 in
/-- VD10 with the small font: the text wraps, the glyph's pixel [0][0] lands at (0, 8): row 191, byte 4775, bit 7. -/
theorem test_drawstr_VD10 :
    passes (.drawstr .black 196 0 0 1 1 8) { fresh .fourWire with hbuf := { fill := .ones, cells := [(0, 0x41)] } }
      (fun t => t.black == { fill := .ones, cells := [(4775, 0x7F)] }) = true := by decide
/-- VD12: no room below, nothing drawn. -/
theorem test_drawstr_VD12 :
    passes (.drawstr .black 0 196 0 1 1 8) { fresh .fourWire with hbuf := { fill := .ones, cells := [(0, 0x41)] } }
      (fun t => t.black == Mem.cleared && t.status == .ok) = true := by decide

/-! ## Lifecycle (VL1 to VL12) -/

set_option maxRecDepth 8000 in
/-- VL2, pin level for the first events and the last; 89 events. -/
theorem test_init_VL2 :
    passes .init (powered .fourWire)
      (fun t => t.initialised && t.status == .ok && t.black == Mem.cleared && t.pin == { cs := 1, dc := 1, rst := 1 } &&
        t.tr.length == 89 && t.tr.take 3 == [.busInit 0 4000000 4000000, .pinSet .cs 1, .pinSet .rst 1] &&
        t.tr.drop 85 == [.pinSet .dc 1, .pinSet .cs 0, .frame (.f8 0x80), .pinSet .cs 1]) = true := by decide
set_option maxRecDepth 8000 in
/-- P4: 3-wire INIT, 70 events, TS.MODE = 1. -/
theorem test_init_P4 :
    passes .init (powered .threeWire)
      (fun t => t.tr.length == 70 && (t.ts.map Transport.mode) == some 1 &&
        t.tr.drop 67 == [.pinSet .cs 0, .frame (.f9 0x180), .pinSet .cs 1]) = true := by decide
/-- VL5. -/
theorem test_deinit_VL5 :
    passes .deinit (fresh .fourWire)
      (fun t => !t.initialised && t.status == .ok && t.ts == none && t.tr == [.busDeinit 0]) = true := by decide
/-- VL1 and VL4. -/
theorem test_cfgdef4_VL1 :
    passes .cfgdef4 (powered .threeWire) (fun t => t.cfg.wiring == .fourWire && t.cfg.clkHz == 4000000) = true := by decide
theorem test_cfgdef3_VL4 :
    passes .cfgdef3 (fresh .fourWire) (fun t => t.cfg.wiring == .fourWire && t.status == .alreadyInitialized) = true := by
  decide

/-! ## Sequencer (VS4, VS13, VS15, VS18, VX4) -/

theorem test_update_VS4 :
    passes (.update 1) (fresh .fourWire)
      (fun t => view t.tr == [.busyRead 0, .delay .settle, .txn [(0, 0x21)], .txn [(1, 0x00)], .txn [(1, 0x80)],
        .txn [(0, 0x22)], .txn [(1, 0xF6)], .txn [(0, 0x20)]] && t.status == .ok && t.seq == .idle) = true := by decide
/-- VS18: the fourth write fails with n = 0. -/
theorem test_update_VS18 :
    passes (.update 3) (withCounts (fresh .fourWire) [1, 1, 1, 0])
      (fun t => view t.tr == [.busyRead 0, .delay .settle, .txn [(0, 0x21)], .txn [(1, 0x00)], .txn [(1, 0x80)], .txn []]
        && t.status == .transportError && t.seq == .idle) = true := by decide
/-- VS13, VX4: Busy; but arguments before Busy. -/
theorem test_wrupd_VS13 :
    passes (.wrupd 2) (withBusy (fresh .fourWire) [1]) (fun t => t.tr == [.busyRead 1] && t.status == .busy) = true := by
  decide
theorem test_wrupd_VX4 :
    passes (.wrupd 9) (withBusy (fresh .fourWire) [1]) (fun t => t.tr == [] && t.status == .invalidArgument) = true := by
  decide
/-- A push begins with the window's X range (R232, R165); the command's write fails with n = 0. -/
theorem test_wrbuf_starts :
    passes (.wrbuf .red) (withCounts (fresh .fourWire) [1, 1, 0])
      (fun t => view t.tr == [.txn [(0, 0x44)], .txn [(1, 0x00)], .txn []] && t.status == .transportError) = true := by decide
theorem test_softstart_VS15 :
    passes (.softstart 3 2 1) (fresh .fourWire)
      (fun t => view t.tr == [.txn [(0, 0x0C)], .txn [(1, 0x8B)], .txn [(1, 0x9C)], .txn [(1, 0x96)], .txn [(1, 0x0F)]]
        && t.status == .ok) = true := by decide

/-! ## Panel commands in their places (R111, R181 to R196), and their bytes for any operand (VC5, VC6) -/

/-- Inside a host operation, this many lines of its pseudocode done. -/
def inside (op : Sending) (done : Nat) (s : State) : State :=
  { s with underway := some { op, done }, initialised := decide (op ≠ .init) }

/-- What a panel command adds to the trace at this place, and the line the operation then stands at. -/
def shownAt (op : Sending) (done : Nat) (i : Instr) (s : State) : List Obs × Option Underway :=
  let t := after i (inside op done s)
  (view t.tr, t.underway)

/-- The bytes of a panel command. -/
def bytesOf (i : Instr) : List (List Byte) := (panelTxns (fresh .threeWire) i).map Txn.bytes

theorem test_pSwreset :
    shownAt .init 8 .pSwreset (fresh .threeWire) = ([.txn [(0, 0x12)]], some { op := .init, done := 9 }) := by decide
theorem test_pDrvout :
    shownAt .init 11 .pDrvout (fresh .threeWire) =
      ([.txn [(0, 0x01)], .txn [(1, 0xC7)], .txn [(1, 0x00)], .txn [(1, 0x00)]], some { op := .init, done := 12 }) := by
  decide
theorem test_pEntry :
    shownAt .init 12 .pEntry (fresh .threeWire) =
      ([.txn [(0, 0x11)], .txn [(1, 0x03)]], some { op := .init, done := 13 }) := by decide
theorem test_pXrange :
    shownAt .init 13 (.pXrange 0 199) (fresh .threeWire) =
      ([.txn [(0, 0x44)], .txn [(1, 0x00)], .txn [(1, 0x18)]], some { op := .init, done := 14 }) := by decide
theorem test_pXrange_VC5 : bytesOf (.pXrange 8 15) = [[0x44], [0x01], [0x01]] := by decide
theorem test_pYrange :
    shownAt (.wrbuf .red) 2 (.pYrange 0 199) (fresh .fourWire) =
      ([.txn [(0, 0x45)], .txn [(1, 0x00)], .txn [(1, 0x00)], .txn [(1, 0xC7)], .txn [(1, 0x00)]],
        some { op := .wrbuf .red, done := 3 }) := by decide
theorem test_pYrange_VC5 : bytesOf (.pYrange 256 511) = [[0x45], [0x00], [0x01], [0xFF], [0x01]] := by decide
theorem test_pBorder :
    shownAt .init 15 .pBorder (fresh .threeWire) =
      ([.txn [(0, 0x3C)], .txn [(1, 0x05)]], some { op := .init, done := 16 }) := by decide
theorem test_pTemp :
    shownAt .init 16 .pTemp (fresh .threeWire) =
      ([.txn [(0, 0x18)], .txn [(1, 0x80)]], some { op := .init, done := 17 }) := by decide
theorem test_pXcnt :
    shownAt (.wrbuf .black) 3 (.pXcnt 0) (fresh .threeWire) =
      ([.txn [(0, 0x4E)], .txn [(1, 0x00)]], some { op := .wrbuf .black, done := 4 }) := by decide
theorem test_pXcnt_VC6 : bytesOf (.pXcnt 199) = [[0x4E], [0x18]] := by decide
theorem test_pYcnt :
    shownAt (.wrupd 0) 6 (.pYcnt 0) (fresh .threeWire) =
      ([.txn [(0, 0x4F)], .txn [(1, 0x00)], .txn [(1, 0x00)]], some { op := .wrupd 0, done := 7 }) := by decide
theorem test_pYcnt_VC6 : bytesOf (.pYcnt 199) = [[0x4F], [0xC7], [0x00]] := by decide
theorem test_pUc1 :
    shownAt (.update 1) 3 .pUc1 (fresh .threeWire) =
      ([.txn [(0, 0x21)], .txn [(1, 0x00)], .txn [(1, 0x80)]], some { op := .update 1, done := 4 }) := by decide
theorem test_pUc2 :
    shownAt (.update 1) 4 (.pUc2 .cleanWave) (fresh .threeWire) =
      ([.txn [(0, 0x22)], .txn [(1, 0xF6)]], some { op := .update 1, done := 5 }) := by decide
theorem test_pAct :
    shownAt (.update 1) 6 .pAct (fresh .threeWire) = ([.txn [(0, 0x20)]], some { op := .update 1, done := 7 }) := by decide
/-- VS15's four bytes. -/
theorem test_pSoftst :
    shownAt (.softstart 3 2 1) 0 (.pSoftst 0x8B 0x9C 0x96 0x0F) (fresh .threeWire) =
      ([.txn [(0, 0x0C)], .txn [(1, 0x8B)], .txn [(1, 0x9C)], .txn [(1, 0x96)], .txn [(1, 0x0F)]],
        some { op := .softstart 3 2 1, done := 1 }) := by decide
theorem test_pSleep :
    shownAt .deinit 0 .pSleep { fresh .fourWire with params := { params with deinitSleep := some 1 } } =
      ([.txn [(0, 0x10)], .txn [(1, 1)]], some { op := .deinit, done := 1 }) := by decide
/-- R190, R191: the command goes out before the 5000 bytes (here it is cut short, which ends the operation). -/
theorem test_pWrbw_starts :
    passes (.pWrbw .planeBytes) (inside (.wrbuf .black) 5 (withCounts (fresh .fourWire) [0]))
      (fun t => t.tr == [.pinSet .dc 0, .pinSet .cs 0, .pinSet .cs 1] && t.status == .transportError &&
        t.underway == none) = true := by decide
theorem test_pWrred_starts :
    passes .pWrred (inside (.wrbuf .red) 5 (withCounts (fresh .fourWire) [0]))
      (fun t => t.tr == [.pinSet .dc 0, .pinSet .cs 0, .pinSet .cs 1] && t.status == .transportError &&
        t.underway == none) = true := by decide

/-- R111: no operation under way; one line too early; R36, R237: WRBUF red under way with INIT = 0; the wrong operation. -/
theorem test_out_of_place :
    (fresh .fourWire).place .pAct = none ∧ (inside (.update 1) 5 (fresh .fourWire)).place .pAct = none ∧
    State.place { inside (.wrbuf .red) 5 (fresh .fourWire) with initialised := false } .pWrred = none ∧
    (inside (.wrupd 0) 7 (fresh .fourWire)).place .pWrred = none ∧
    exec .pWrred (fresh .fourWire) = .next { fresh .fourWire with status := .invalidArgument } := by
  refine ⟨by decide, by decide, by decide, by decide, rfl⟩

/-- An operation under way runs to its end: WRUPD CleanFull behind its activation's P.UC2 (R234, R15). -/
theorem test_resume :
    ∃ t, step (inside (.wrupd 1) 11 (fresh .threeWire)) = .next t ∧ view t.tr = [.txn [(0, 0x20)]] ∧ t.underway = none ∧
      t.status = .ok ∧ t.seq = .idle := ⟨_, rfl, by decide, rfl, rfl, rfl⟩

/-- withFetchWord puts a panel command in its place: P.ACT, opcode 0x20, in UPDATE. -/
theorem test_latch_panel :
    ((fresh .fourWire).withFetchWord 8 0x20).place .pAct = some { op := .update 0, done := 6 } ∧
    ((fresh .fourWire).withFetchWord 8 0x20).seq = .activating := by decide

/-! ## Witnesses: something meets the hypotheses of every statement that has any -/

/-- The states used below: fresh, not initialised, a word latched, a host's move to come. -/
def f4 : State := fresh .fourWire
def f3 : State := fresh .threeWire
def off : State := powered .fourWire
def latched (w : CmdWord) : State := { f4 with cmd := some w }
def moving (m : HostMove) (s : State) : State := { s with hostMoves := [m] }
/-- UPDATE CleanFull up to its master activation; DEINIT up to its sleep command. -/
def acting (s : State) : State := { inside (.update 1) 6 s with seq := .activating }
def sleeping : State := inside .deinit 0 { f4 with params := { params with deinitSleep := some 1 } }

/-- VL10; VL9; VL11 (here the last write fails). -/
def offNoClock : State := { off with cfg := { off.cfg with clkHz := 0 } }
def offNoRate : State := { off with rateFeed := { given := [0], used := 0 } }
def offShort : State := withCounts off (List.replicate 18 1 ++ [0])

theorem f4_inv : f4.Inv where
  blackWf := by decide
  redWf := by decide
  hbufWf := by decide
  seqIdle := rfl
  atRest := rfl
  csHigh := fun _ => rfl
  held := fun _ => ⟨_, rfl, rfl, rfl⟩
  clock := by decide
  released := fun _ => rfl
  fills := fun _ => ⟨rfl, rfl⟩

theorem witness_DecodeOfEncode : params.opcodesDistinct = true := by decide

theorem witness_DescriptorDecodesIffMaskGivesOp :
    (0xA2 : Byte) ∈ opCodes ∧ decodeDescriptor 0xFFFF00A2 = .ok (.wrupd 65535) := by decide

theorem witness_OperandsComeFromTheirFields :
    (0x81 : BitVec 128) &&& decodeMask = 0x81 ∧ (0x82 : BitVec 128) &&& decodeMask = 0x82 ∧
    (0x83 : BitVec 128) &&& decodeMask = 0x83 ∧ (0x84 : BitVec 128) &&& decodeMask = 0x84 ∧
    (0x190 : BitVec 128) &&& decodeMask = 0x90 ∧ (0x191 : BitVec 128) &&& decodeMask = 0x91 ∧
    (0x00000039000D0292 : BitVec 128) &&& decodeMask = 0x92 ∧ (0x0000006300640193 : BitVec 128) &&& decodeMask = 0x93 ∧
    (0x00500064001400140294 : BitVec 128) &&& decodeMask = 0x94 ∧
    (0x0000FFFF000000000009000000000095 : BitVec 128) &&& decodeMask = 0x95 ∧
    (0x00000000000100000008000000C40296 : BitVec 128) &&& decodeMask = 0x96 ∧
    (0x00010002000300A0 : BitVec 128) &&& decodeMask = 0xA0 ∧ (0x000200A1 : BitVec 128) &&& decodeMask = 0xA1 ∧
    (0x000200A2 : BitVec 128) &&& decodeMask = 0xA2 := by decide

/-- VH31, VH32. -/
theorem witness_IllegalDescriptorRaisesInvalidArgument :
    ((latched (.descriptor 0x97)).cmd = some (.descriptor 0x97) ∧ (latched (.descriptor 0x97)).seq = .idle ∧
      (latched (.descriptor 0x97)).underway = none ∧ ∀ op ∈ opCodes, (0x97 : BitVec 128) &&& decodeMask ≠ op.setWidth 128) ∧
    ∀ op ∈ opCodes, (0x490 : BitVec 128) &&& decodeMask ≠ op.setWidth 128 := by decide

theorem witness_StepRunsTheDecodedInstruction :
    ((latched (.descriptor 0x190)).cmd = some (.descriptor 0x190) ∧ (latched (.descriptor 0x190)).seq = .idle ∧
      (latched (.descriptor 0x190)).underway = none ∧ decodeDescriptor 0x190 = .ok (.clear .red)) ∧
    ((latched (.panel 0x20)).cmd = some (.panel 0x20) ∧ decodePanel (latched (.panel 0x20)).params 0x20 = .ok .pAct) ∧
    (acting f4).cmd = none ∧ (acting f4).underway = some { op := .update 1, done := 6 } := by decide

theorem witness_ConcurrentOperationIsRefused :
    ({ latched (.descriptor 0x81) with seq := .activating }.cmd = some (.descriptor 0x81) ∧
      { latched (.descriptor 0x81) with seq := .activating }.seq ≠ .idle) ∧
    (inside .deinit 0 (latched (.descriptor 0x81))).underway ≠ none := by decide

theorem witness_EveryStepKeepsTheInvariant :
    (latched (.descriptor 0x00000039000D0292)).Inv ∧
    ∃ t, step (latched (.descriptor 0x00000039000D0292)) = .next t ∧ t.black ≠ f4.black := by
  refine ⟨⟨f4_inv.1, f4_inv.2, f4_inv.3, rfl, f4_inv.5, f4_inv.6, f4_inv.7, f4_inv.8, f4_inv.9, f4_inv.10⟩, _, rfl, by decide⟩

theorem witness_WellFormedInstructionsAlwaysAnswer :
    Instr.wellFormed f4.params (.drawpic .black 0 0 199 199 60536) = true ∧ f4.seq = .idle ∧
    Instr.wellFormed f4.params .pAct = true := by decide

theorem witness_TraceIsAppendOnly :
    exec .pAct (acting f4) = .next (after .pAct (acting f4)) ∧ (after .pAct (acting f4)).tr ≠ [] ∧
    step (moving (.readReg .status) f4) = .next { f4 with hostMoves := [], hostRead := 0 } ∧
    (moving (.readReg .status) f4).hostMoves.head? ≠ some .powerCycle := by
  refine ⟨rfl, by decide, rfl, by decide⟩

theorem witness_NotInitializedIsRaisedBeforeInit :
    (Instr.needsInit (.update 7) = true ∧ off.initialised = false ∧ off.seq = .idle) ∧
    exec .cfgdef3 off = .next (after .cfgdef3 off) ∧
    (exec .init offNoClock = .next (after .init offNoClock) ∧ offNoClock.initialised = false ∧
      (after .init offNoClock).status ≠ .ok) ∧
    exec .deinit f4 = .next (after .deinit f4) := by
  refine ⟨by decide, rfl, ⟨rfl, rfl, by decide⟩, rfl⟩

theorem witness_AlreadyInitializedLeavesTheInstance : f4.initialised = true ∧ f4.seq = .idle := by decide

/-- VL2. -/
theorem witness_InitBringsThePanelUp :
    off.initialised = false ∧ off.cfg.clkHz ≠ 0 ∧ off.rateFeed.nth Config.freeRate 0 ≠ 0 ∧
    off.writesAll (List.replicate 19 1) := by
  refine ⟨by decide, by decide, by decide, ?_⟩
  unfold State.writesAll
  decide

theorem witness_FailedInitLeavesTheBlockUninitialised :
    (offNoClock.initialised = false ∧ offNoClock.seq = .idle ∧ offNoClock.cfg.clkHz = 0) ∧
    (offNoRate.initialised = false ∧ offNoRate.seq = .idle ∧ offNoRate.cfg.clkHz ≠ 0 ∧
      offNoRate.rateFeed.nth Config.freeRate 0 = 0) ∧
    (offShort.initialised = false ∧ offShort.cfg.clkHz ≠ 0 ∧ offShort.rateFeed.nth Config.freeRate 0 ≠ 0 ∧
      ¬ offShort.writesAll (List.replicate 19 1)) := by
  refine ⟨by decide, by decide, by decide, by decide, by decide, ?_⟩
  unfold State.writesAll
  decide

set_option maxRecDepth 8000 in
theorem witness_InitActivatesNothing :
    exec .init off = .next (after .init off) ∧ off.shows (after .init off) (view (after .init off).tr) :=
  ⟨rfl, (after .init off).tr, by decide, rfl⟩

theorem witness_DeinitReleasesTheBus :
    off.initialised = false ∧ (f4.initialised = true ∧ f4.params.deinitSleep = none) ∧
    (∃ s : State, s.initialised = true ∧ s.params.deinitSleep = some 1 ∧ s.writesAll [1, 1]) := by
  refine ⟨by decide, by decide, { f4 with params := { params with deinitSleep := some 1 } }, rfl, rfl, ?_⟩
  unfold State.writesAll
  decide

theorem witness_CfgdefLoadsItsPreset : off.initialised = false ∧ f4.initialised = true ∧ f4.seq = .idle := by decide

set_option maxRecDepth 8000 in
theorem witness_ModeChangesByInitAndDeinitOnly :
    (exec .init off = .next (after .init off) ∧ (after .init off).initialised ≠ off.initialised ∧
      (after .init off).status = .ok) ∧
    exec .deinit f4 = .next (after .deinit f4) ∧ (after .deinit f4).initialised ≠ f4.initialised := by
  refine ⟨⟨rfl, by decide, by decide⟩, rfl, by decide⟩

theorem witness_CfgIsFrozenWhileInitialised :
    (f4.initialised = true ∧ exec .pAct f4 = .next (after .pAct f4)) ∧
    (moving (.writeReg .cfgClkHz 0) f4).initialised = true ∧ (moving (.writeReg .cfgClkHz 0) f4).cmd = none ∧
    (moving (.writeReg .cfgClkHz 0) f4).underway = none ∧
    (moving (.writeReg .cfgClkHz 0) f4).hostMoves = [.writeReg .cfgClkHz 0] := ⟨⟨rfl, rfl⟩, rfl, rfl, rfl, rfl⟩

theorem witness_WriteTransformIsABijection : (199 : Nat) < 200 ∧ (4999 : Nat) < 5000 ∧ (7 : Nat) < 8 ∧ Mem.cleared.wf 5000 := by
  decide

/-- The corners of the panel, and the first coordinates past it (E4). -/
theorem witness_WrptWritesOneBit :
    (f4.initialised = true ∧ (f4.plane .red).wf 5000 ∧ (199 : Half).toNat < 200 ∧ (0 : Half).toNat < 200) ∧
    (f4.seq = .idle ∧ 200 ≤ (200 : Half).toNat) ∧ off.seq = .idle ∧ off.initialised = false := by decide

theorem witness_RdptReadsTheUninvertedRow :
    (f4.initialised = true ∧ (199 : Half).toNat < 200) ∧ (f4.seq = .idle ∧ 200 ≤ (200 : Half).toNat) ∧
    off.seq = .idle ∧ off.initialised = false := by decide

theorem witness_ClearFillsThePlane : f4.initialised = true ∧ off.seq = .idle ∧ off.initialised = false := by decide

theorem witness_PixelWriteAndReadLaws :
    f4.Inv ∧ f4.initialised = true ∧ (13 : Half).toNat < 200 ∧ (57 : Half).toNat < 200 ∧
    ((.black, 13, 142) : Plane × Half × Half) ≠ (.black, 13, 57) := ⟨f4_inv, by decide⟩

theorem witness_ClearedPlaneReadsOffUntilWritten :
    f4.initialised = true ∧ exec (.clear .red) f4 = .next (after (.clear .red) f4) ∧
    (∀ i ∈ [Instr.wrpt .black 0 0 1, .pAct], i.writesPlane .red = false) ∧
    (execAll [.wrpt .black 0 0 1, .pAct] (after (.clear .red) f4)).isSome = true ∧ (199 : Half).toNat < 200 := by
  refine ⟨rfl, rfl, by decide, by decide, by decide⟩

theorem witness_PlanesAndRdataHaveTheirWriters :
    Instr.writesPlane .red .pAct = false ∧ exec .pAct (acting f4) = .next (after .pAct (acting f4)) ∧
    (off.initialised = false ∧ exec .init off = .next (after .init off)) ∧
    (∃ s t, exec (.rdpt .black 13 142) s = .next t ∧ t.rdata ≠ s.rdata) :=
  ⟨rfl, rfl, ⟨rfl, rfl⟩, after (.wrpt .black 13 57 1) f4, _, rfl, by decide⟩

theorem witness_PlaneOperandIsolatesTheOtherPlane :
    Instr.planeOperand (.wrpt .black 0 0 1) = some .black ∧ Plane.red ≠ .black ∧
    exec (.wrpt .black 0 0 1) f4 = .next (after (.wrpt .black 0 0 1) f4) := ⟨rfl, by decide, rfl⟩

/-- The whole panel; one pixel in the last corner; the rejections of E4 and E5. -/
theorem witness_FillrectSetsTheRectangle :
    (f4.initialised = true ∧ (f4.plane .black).wf 5000 ∧ (0 : Half).toNat ≤ (199 : Half).toNat ∧ (199 : Half).toNat < 200) ∧
    (f4.seq = .idle ∧ (20 : Half).toNat < (30 : Half).toNat ∧ 200 ≤ (200 : Half).toNat) ∧
    off.seq = .idle ∧ off.initialised = false := by decide

theorem witness_FillrectIdempotentAndCommuting :
    f4.Inv ∧ f4.initialised = true ∧ (20 : Half).toNat ≤ (100 : Half).toNat ∧ (100 : Half).toNat < 200 ∧
    (50 : Half).toNat ≤ (199 : Half).toNat ∧ (199 : Half).toNat < 200 := ⟨f4_inv, by decide⟩

/-- VH16; the last bitmap that still ends at HBUF_SIZE; VD9. -/
theorem witness_DrawpicCopiesTheBitmap :
    (f4.initialised = true ∧ (f4.plane .black).wf 5000 ∧ (60536 : Half) ≠ 0xFFFF ∧ (0 : Half).toNat ≤ (199 : Half).toNat ∧
      (199 : Half).toNat < 200 ∧
      (60536 : Half).toNat + ((199 : Half).toNat - (0 : Half).toNat + 1 + 7) / 8
        * ((199 : Half).toNat - (0 : Half).toNat + 1) ≤ f4.params.hbufSize) ∧
    f4.seq = .idle ∧ off.seq = .idle ∧ off.initialised = false := by decide

/-- The last two bytes of HBUF hold characters 0x41; a text of three from 65534 on reaches 65536 at font size 8, and stops silently
before it at font size 200. -/
def atTheEnd : State := { f4 with hbuf := { fill := .ones, cells := [(65534, 0x41), (65535, 0x41)] } }
def lastChars : List Nat := (List.range 3).map fun k => (atTheEnd.hbuf.read (65534 + k)).toNat

/-- VH18; VD13. -/
theorem witness_DrawstrDrawsTheGlyphs :
    (f4.initialised = true ∧ (f4.plane .black).wf 5000 ∧ (0 : Half) ≠ 0xFFFF ∧ (8 : Half) ≠ 0 ∧ (196 : Half).toNat < 200 ∧
      (0 : Half).toNat + (1 : Half).toNat ≤ f4.params.hbufSize) ∧
    f4.seq = .idle ∧ off.seq = .idle ∧ off.initialised = false := by decide

/-- A text that runs past HBUF_SIZE and stops before it. -/
theorem witness_DrawstrDrawsTheGlyphs_stopping :
    atTheEnd.initialised = true ∧ (atTheEnd.plane .black).wf 5000 ∧
    ∀ k, k < (3 : Half).toNat → atTheEnd.params.hbufSize ≤ (65534 : Half).toNat + k →
      textStops (200 : Half).toNat (lastChars.take k) 0 0 = true := by
  refine ⟨rfl, by decide, fun k hk hl => ?_⟩
  obtain rfl : k = 2 := by
    have : (65536 : Nat) ≤ 65534 + k := hl
    have : k < 3 := hk
    omega
  decide

theorem witness_HbufOverrunIsRefused :
    f4.initialised = true ∧ (60537 : Half) ≠ 0xFFFF ∧
    f4.params.hbufSize < (60537 : Half).toNat + ((199 : Half).toNat - (0 : Half).toNat + 1 + 7) / 8
      * ((199 : Half).toNat - (0 : Half).toNat + 1) ∧
    atTheEnd.initialised = true ∧ (65534 : Half) ≠ 0xFFFF ∧ (8 : Half) ≠ 0 ∧
    2 < (3 : Half).toNat ∧ atTheEnd.params.hbufSize ≤ (65534 : Half).toNat + 2 ∧
    textStops (8 : Half).toNat (lastChars.take 2) 0 0 = false := by decide

/-- U3 and R268: font size 8 reads past the end and is refused; at font size 200 the second character ends the text. -/
theorem test_drawstr_at_the_end_of_hbuf :
    exec (.drawstr .black 0 0 65534 3 1 8) atTheEnd = .refused .hbufOverrun ∧
    textDots params atTheEnd.hbuf 200 1 2 65535 200 0 = some [] := ⟨rfl, by decide⟩

theorem witness_DrawingIsLocal :
    Instr.isHostOp (.wrpt .red 0 0 1) = true ∧ Instr.commands (.wrpt .red 0 0 1) = [] ∧
    exec (.wrpt .red 0 0 1) f4 = .next (after (.wrpt .red 0 0 1) f4) := ⟨rfl, rfl, rfl⟩

/-- VT3 and VT6; VT5. -/
theorem witness_FourWireTransaction :
    f4.cfg.wiring = .fourWire ∧ f4.writeCount 2 = 2 ∧ (withCounts f4 [1]).writeCount 2 ≠ 2 := by decide
theorem witness_ThreeWireTransaction :
    f3.cfg.wiring = .threeWire ∧ f3.writeCount 2 = 2 ∧ (withCounts f3 [1]).writeCount 2 ≠ 2 := by decide

/-- VS18's failing write. -/
theorem witness_ShortWriteEndsTheSequence :
    (withCounts f4 [1, 0]).completes [cCmd 0x21] ∧
    (withCounts f4 [1, 0]).countFeed.nth Config.freeCount [cCmd 0x21].length < (cData 0x00).bytes.length := by
  refine ⟨?_, by decide⟩
  unfold State.completes
  decide

theorem witness_TransportReadsAreNotSupported :
    f3.seq = .idle ∧ f3.cfg.wiring = .threeWire ∧ f4.seq = .idle ∧ f4.cfg.wiring = .fourWire := by decide

theorem witness_ChipSelectFramesEveryTransaction :
    ((acting f4).initialised = true ∧ (acting f4).ts.isSome = true) ∧
    exec .pAct (acting f4) = .next (after .pAct (acting f4)) ∧ (after .pAct (acting f4)).tr ≠ [] := ⟨⟨rfl, rfl⟩, rfl, by decide⟩
theorem witness_EventsFitTheWiring :
    exec .pAct (acting f3) = .next (after .pAct (acting f3)) ∧ (after .pAct (acting f3)).tr ≠ [] := ⟨rfl, by decide⟩
theorem witness_BothWiringsShowTheSameTransactions :
    (acting f4).cfg.wiring = .fourWire ∧ exec .pAct (acting f4) = .next (after .pAct (acting f4)) := ⟨rfl, rfl⟩

theorem witness_CommandFramesStandInTheirPlaces :
    (exec .pAct (acting f4) = .next (after .pAct (acting f4)) ∧
      (acting f4).shows (after .pAct (acting f4)) [.txn [(0, 0x20)]] ∧
      Obs.txn [(0, 0x20)] ∈ [Obs.txn [(0, 0x20)]] ∧ (0, 0x20) ∈ [((0 : Bit), (0x20 : Byte))]) ∧
    ((latched (.panel 0x20)).Inv ∧ (latched (.panel 0x20)).cmd = some (.panel 0x20) ∧
      ∃ t, step (latched (.panel 0x20)) = .next t) ∧
    (acting f4).place .pAct = some { op := .update 1, done := 6 } :=
  ⟨⟨rfl, ⟨(after .pAct (acting f4)).tr, rfl, by decide⟩, by decide, by decide⟩,
    ⟨⟨f4_inv.1, f4_inv.2, f4_inv.3, rfl, rfl, f4_inv.6, f4_inv.7, f4_inv.8, f4_inv.9, f4_inv.10⟩, rfl, _, rfl⟩, by decide⟩

/-- Each command that R111's statement places, at a line of an operation that is this command. -/
theorem witness_CommandFramesStandInTheirPlaces_lines :
    (∃ ts, Sending.tasks params .init = .ok ts ∧ ts[8]? = some (.issue .pSwreset)) ∧
    (∃ ts, Sending.tasks params (.update 3) = .ok ts ∧ ts[6]? = some (.issue .pAct) ∧ ts[13]? = some (.issue .pAct)) ∧
    (∃ ts, Sending.tasks params (.wrbuf .red) = .ok ts ∧ ts[5]? = some (.issue .pWrred)) ∧
    (∃ ts, Sending.tasks sleeping.params .deinit = .ok ts ∧ ts[0]? = some (.issue .pSleep)) ∧
    ∃ ts, Sending.tasks params (.softstart 3 2 1) = .ok ts ∧ ts[0]? = some (.issue (.pSoftst 0x8B 0x9C 0x96 0x0F)) :=
  ⟨⟨_, rfl, by decide⟩, ⟨_, rfl, by decide, by decide⟩, ⟨_, rfl, by decide⟩, ⟨_, rfl, by decide⟩, ⟨_, rfl, by decide⟩⟩

theorem witness_PanelCommandsSendTheirWireForm :
    wireForm f4 (.pXcnt 199) = some (.xcnt, [[0x18]]) ∧ wireForm (acting f4) .pAct = some (.act, []) ∧
    (acting f4).place .pAct = some { op := .update 1, done := 6 } ∧
    (acting f4).writesAll (1 :: ([] : List (List Byte)).map List.length) := by
  refine ⟨by decide, by decide, by decide, ?_⟩
  unfold State.writesAll
  decide

theorem witness_PanelCommandsThatSendNothingOrFail :
    (Instr.isHostOp .pAct = false ∧ f4.place .pAct = none) ∧
    ((latched (.panel 0x13)).cmd = some (.panel 0x13) ∧
      decodePanel (latched (.panel 0x13)).params 0x13 = .error .unknownPanelOpcode) ∧
    f4.params.deinitSleep = none ∧
    ((acting (withCounts f4 [0])).place .pAct = some { op := .update 1, done := 6 } ∧
      wireForm (acting (withCounts f4 [0])) .pAct = some (.act, []) ∧
      ¬ (acting (withCounts f4 [0])).writesAll (1 :: ([] : List (List Byte)).map List.length)) ∧
    (withCounts sleeping [1, 0]).place .pSleep = some { op := .deinit, done := 0 } ∧
    ¬ (withCounts sleeping [1, 0]).writesAll [1, 1] := by
  refine ⟨by decide, by decide, by decide, ⟨by decide, by decide, ?_⟩, by decide, ?_⟩ <;>
  · unfold State.writesAll
    decide

/-- R8: 10 ms; the delays of R170 state 40 ms. -/
theorem test_reset_delays : sleptAtLeast params [.delay .rst, .delay .rst, .delay .rst, .delay .swrst] = 40000 := by decide

/-- VW3 (ready at the last sample N_POLL allows) and VW4. -/
theorem witness_WaitReadyHasTwoOutcomes :
    (2 < (withBusy f4 [1, 1, 0]).params.nPoll ∧
      (∀ i, i < 2 → (withBusy f4 [1, 1, 0]).busyAt i = (withBusy f4 [1, 1, 0]).params.busyActive) ∧
      (withBusy f4 [1, 1, 0]).busyAt 2 ≠ (withBusy f4 [1, 1, 0]).params.busyActive) ∧
    (withBusy f4 [1, 1, 1]).params.nPoll = 2 + 1 ∧
      ∀ i, i < 2 + 1 → (withBusy f4 [1, 1, 1]).busyAt i = (withBusy f4 [1, 1, 1]).params.busyActive := by decide

theorem witness_DelaysAreLowerBounds :
    (off.initialised = false ∧ off.cfg.clkHz ≠ 0 ∧ off.rateFeed.nth Config.freeRate 0 ≠ 0 ∧ off.writesAll (List.replicate 19 1)) ∧
    (2 < (withBusy f4 [1, 1, 0]).params.nPoll ∧
      (∀ i, i < 2 → (withBusy f4 [1, 1, 0]).busyAt i = (withBusy f4 [1, 1, 0]).params.busyActive) ∧
      (withBusy f4 [1, 1, 0]).busyAt 2 ≠ (withBusy f4 [1, 1, 0]).params.busyActive) ∧
    (withBusy f4 [1, 1, 1]).params.nPoll = 2 + 1 ∧
      ∀ i, i < 2 + 1 → (withBusy f4 [1, 1, 1]).busyAt i = (withBusy f4 [1, 1, 1]).params.busyActive :=
  ⟨witness_InitBringsThePanelUp, witness_WaitReadyHasTwoOutcomes⟩

/-- Room for every transaction of WRBUF, UPDATE, WRUPD and SOFTSTART. -/
theorem f4_writesAll : f4.writesAll
    (List.replicate 14 1 ++ [5000] ++ List.replicate 6 1 ++ List.replicate 14 1 ++ [5000] ++ List.replicate 6 1) := by
  unfold State.writesAll
  decide

theorem witness_WrbufPushesThePlane : f4.initialised = true ∧ f4.writesAll (List.replicate 14 1 ++ [5000]) := by
  refine ⟨rfl, ?_⟩
  unfold State.writesAll
  decide

theorem witness_UpdateWaitsAndActivates :
    f4.initialised = true ∧ f4.writesAll (List.replicate 6 1) ∧ f4.writesAll (List.replicate 12 1) := by
  unfold State.writesAll
  decide

/-- VH36, VH37, VS7. -/
theorem witness_UpdateTypesRejected :
    f4.initialised = true ∧ f4.seq = .idle ∧ 3 < (4 : Half).toNat ∧ 3 < (0xFFFF : Half).toNat := by decide

theorem witness_WrupdOnABusyPanelDoesNothing :
    (withBusy f4 [1]).initialised = true ∧ (withBusy f4 [1]).seq = .idle ∧ (3 : Half).toNat ≤ 3 ∧
    (withBusy f4 [1]).busyAt 0 = (withBusy f4 [1]).params.busyActive := by decide

theorem witness_WrupdPushesAndActivates :
    f4.initialised = true ∧ f4.busyAt 0 ≠ f4.params.busyActive ∧
    f4.writesAll (List.replicate 14 1 ++ [5000] ++ List.replicate 6 1) ∧
    f4.writesAll (List.replicate 14 1 ++ [5000] ++ List.replicate 12 1) := by
  unfold State.writesAll
  decide

theorem witness_FastFullFlashesThenDraws :
    f4.initialised = true ∧ f4.busyAt 0 ≠ f4.params.busyActive ∧ f4.writesAll
      (List.replicate 14 1 ++ [5000] ++ List.replicate 6 1 ++ List.replicate 14 1 ++ [5000] ++ List.replicate 6 1) :=
  ⟨rfl, by decide, f4_writesAll⟩

/-- VS15, VS16, VS19. -/
theorem witness_SoftstartSendsFourBytes :
    (f4.initialised = true ∧ ssEncode f4.params 3 2 1 = some { s0 := 0x8B, s1 := 0x9C, s2 := 0x96, s3 := 0x0F } ∧
      f4.writesAll (List.replicate 5 1)) ∧
    (f4.seq = .idle ∧ ssEncode f4.params 9 9 9 = none) ∧ off.initialised = false ∧ off.seq = .idle := by
  unfold State.writesAll
  decide

theorem witness_UpdatesIgnoreTheRedPlane : exec (.wrupd 0) f4 = .next (after (.wrupd 0) f4) ∧
    exec (.softstart 3 2 1) f4 = .next (after (.softstart 3 2 1) f4) ∧
    (inside (.wrbuf .red) 5 f4).place .pWrred = some { op := .wrbuf .red, done := 5 } := ⟨rfl, rfl, by decide⟩

theorem witness_FailedOperationsLeaveTheState :
    (Instr.isHostOp (.update 2) = true ∧ f4.seq = .idle ∧ exec (.update 2) f4 = .next (after (.update 2) f4) ∧
      (after (.update 2) f4).status = .notSupported) ∧
    (exec (.wrupd 0) (withBusy f4 [1]) = .next (after (.wrupd 0) (withBusy f4 [1])) ∧
      (after (.wrupd 0) (withBusy f4 [1])).status = .busy) ∧
    (exec (.update 0) (withCounts f4 [0]) = .next (after (.update 0) (withCounts f4 [0])) ∧
      (after (.update 0) (withCounts f4 [0])).status = .transportError) := by
  refine ⟨⟨rfl, rfl, rfl, by decide⟩, ⟨rfl, by decide⟩, rfl, by decide⟩

theorem witness_HardwareStatusesHaveTheirCauses :
    exec (.update 2) f4 = .next (after (.update 2) f4) ∧ (after (.update 2) f4).status = .notSupported ∧
    (after (.wrupd 0) (withBusy f4 [1])).status = .busy ∧
    (after (.update 0) (withCounts f4 [0])).status = .transportError := by
  refine ⟨rfl, by decide, by decide, by decide⟩

theorem witness_StateAndStatusRegistersRead : f4.ts = some { mode := 1, bush := 0, hz := 4000000 } := rfl

theorem witness_CfgRegistersHoldWhatIsWritten :
    (moving (.writeReg .cfgMode 0xFF) off).initialised = false ∧ (moving (.writeReg .cfgMode 0xFF) off).cmd = none ∧
    (moving (.writeReg .cfgMode 0xFF) off).underway = none ∧
    (moving (.writeReg .cfgMode 0xFF) off).hostMoves = [.writeReg .cfgMode 0xFF] := ⟨rfl, rfl, rfl, rfl⟩

/-- One state for each kind of move; an HBUF write at the last address there is, and at the first there is not. -/
theorem witness_HostMovesAtThePort :
    f4.cmd = none ∧ f4.underway = none ∧ (moving (.writeCmd 0x81) f4).hostMoves = [.writeCmd 0x81] ∧
    (moving (.readReg .state) f4).hostMoves = [.readReg .state] ∧
    ((moving (.writeHbuf 65535 1) f4).hostMoves = [.writeHbuf 65535 1] ∧ 65535 < f4.params.hbufSize ∧
      f4.hbuf.wf f4.params.hbufSize) ∧
    ((moving (.writeHbuf 65536 1) f4).hostMoves = [.writeHbuf 65536 1] ∧ f4.params.hbufSize ≤ 65536) ∧
    (moving .readCmd f4).hostMoves = [.readCmd] ∧ (moving .powerCycle f4).hostMoves = [.powerCycle] ∧
    f4.hostMoves = [] := by
  refine ⟨rfl, rfl, rfl, rfl, ⟨rfl, by decide, by decide⟩, ⟨rfl, by decide⟩, rfl, rfl, rfl⟩

end Sys2Proof.Tests
end

section
/-! Host operations run to their end (00_scope.md R15, R16): a second one is refused, a well-formed one answers with SEQ Idle, an
operation that sends does the lines of its pseudocode, and what is slept on the way has a lower bound. -/

namespace Sys2Proof.Machine

open Sys2Proof

/-! ## What a latched descriptor needs (R16) -/

/-- A host operation is accepted only while none is executing (R16). -/
theorem accepts_descriptor_iff (s : State) (w : BitVec 128) :
    s.accepts (.descriptor w) = true ↔ s.seq = .idle ∧ s.underway = none := by
  simp [State.accepts]

theorem step_of_not_accepts {s : State} {w : CmdWord} (hc : s.cmd = some w) (ha : ¬ s.accepts w = true) :
    step s = .refused .concurrentOperation := by
  simp only [step, hc, if_neg ha]

/-- Settles O7: a descriptor is accepted only with SEQ Idle and nothing under way, and one not accepted is refused. -/
theorem concurrentOperationIsRefused : Obligations.ConcurrentOperationIsRefused := by
  intro s w hc hbusy
  refine step_of_not_accepts hc fun ha => ?_
  obtain ⟨hseq, hunder⟩ := (accepts_descriptor_iff s w).1 ha
  exact hbusy.elim (absurd hseq) (absurd hunder)

/-! ## What INIT's first steps leave alone -/

@[simp] theorem rstPulse_params (s : State) : (rstPulse s).params = s.params := by rw [rstPulse_eq]
@[simp] theorem rstPulse_hbuf (s : State) : (rstPulse s).hbuf = s.hbuf := by rw [rstPulse_eq]
@[simp] theorem rstPulse_countFeed (s : State) : (rstPulse s).countFeed = s.countFeed := by rw [rstPulse_eq]
@[simp] theorem opened_params (s : State) : (opened s).params = s.params := by rw [opened_eq]
@[simp] theorem opened_hbuf (s : State) : (opened s).hbuf = s.hbuf := by rw [opened_eq]
@[simp] theorem opened_countFeed (s : State) : (opened s).countFeed = s.countFeed := by rw [opened_eq]

/-! ## What every instruction ends with -/

/-- The end of an operation as the caller may rely on it: SEQ Idle (R230), the parameters and the operand buffer untouched (R76). -/
structure Rests (s t : State) : Prop where
  seqIdle : t.seq = .idle
  params : t.params = s.params
  hbuf : t.hbuf = s.hbuf

theorem rests_deliver (s : State) (e : Status) : Rests s (s.deliver e) := ⟨rfl, rfl, rfl⟩

theorem rests_complete {s : State} (h : s.seq = .idle) : Rests s s.complete := ⟨h, rfl, rfl⟩

/-- Waits and transactions leave the parameters and HBUF alone, so only SEQ decides whether what follows them rests. -/
theorem Ran.rests {ks : List PanelOp} {s u t : State} (h : Ran ks s u) (k : Rests u t) : Rests s t :=
  ⟨k.seqIdle, k.params.trans h.params, k.hbuf.trans h.hbuf⟩

theorem Ended.rests {ks : List PanelOp} {s t : State} (hs : s.seq = .idle) (h : Ended ks s t) : Rests s t := by
  cases h with
  | rejected e _ ht => exact ht ▸ rests_deliver s e
  | ok u hr hu ht => exact ht ▸ hr.rests (rests_complete (hu.elim id (·.trans hs)))
  | failed u hr _ ht => exact ht ▸ hr.rests (rests_deliver u _)

/-- Opening the bus and pulsing RST leaves the parameters and HBUF alone. -/
theorem Rests.of_rstPulse_opened {s t : State} (h : Rests (rstPulse (opened s)) t) : Rests s t :=
  ⟨h.seqIdle, by simpa using h.params, by simpa using h.hbuf⟩

theorem InitEnded.rests {s t : State} (h : InitEnded s t) : Rests s t := by
  cases h with
  | already _ ht => exact ht ▸ rests_deliver s _
  | badClock _ _ ht => exact ht ▸ rests_deliver s _
  | noRate _ _ _ ht => exact ht ▸ ⟨rfl, rfl, rfl⟩
  | ok _ _ _ u hr ht => exact ht ▸ (hr.rests (t := (finishInit u).complete) ⟨rfl, rfl, rfl⟩).of_rstPulse_opened
  | failed _ _ _ u hr _ ht => exact ht ▸ (hr.rests (rests_deliver u _)).of_rstPulse_opened

theorem rests_finishDeinit (s : State) : Rests s (finishDeinit s).complete := ⟨rfl, rfl, rfl⟩

theorem DrawEnded.rests {i : Instr} {p : Plane} {s t : State} (hs : s.seq = .idle) (h : DrawEnded i p s t) : Rests s t := by
  cases h with
  | rejected e _ ht => exact ht ▸ rests_deliver s e
  | drawn _ _ m _ _ ht => exact ht ▸ ⟨by simp [hs], by simp, by simp⟩
  | read _ _ _ _ ht => exact ht ▸ ⟨hs, rfl, rfl⟩

theorem PanelEnded.rests {i : Instr} {s t : State} (hs : s.seq = .idle) (h : PanelEnded i s t) : Rests s t := by
  cases h with
  | outOfPlace _ ht => exact ht ▸ ⟨hs, rfl, rfl⟩
  | sent _ _ v hr hv ht => exact ht ▸ ⟨hv.trans hs, hr.params, hr.hbuf⟩
  | failed _ _ _ v hr _ ht => exact ht ▸ ⟨rfl, hr.params, hr.hbuf⟩

/-- Begun with SEQ Idle, every instruction that answers rests. -/
theorem exec_rests {i : Instr} {s t : State} (hs : s.seq = .idle) (h : exec i s = .next t) : Rests s t := by
  rcases exec_cases i s t h with ⟨_, hi⟩ | ⟨_, hd⟩ | ⟨_, hc⟩ | ⟨_, _, _, _, hd⟩ | ⟨_, hu⟩ | ⟨_, hp⟩
  · exact hi.rests
  · rcases hd with ⟨_, rfl⟩ | ⟨u, _, rfl, hr⟩
    · exact rests_complete hs
    · exact hr.rests (rests_finishDeinit u)
  · rcases hc with ⟨_, rfl⟩ | ⟨_, c, rfl⟩
    · exact rests_deliver s _
    · exact ⟨hs, rfl, rfl⟩
  · exact hd.rests hs
  · rcases hu with he | ⟨_, rfl⟩ | ⟨_, _, rfl⟩
    · exact he.rests hs
    · exact rests_deliver s _
    · exact ⟨rfl, rfl, rfl⟩
  · exact hp.rests hs

/-! ## Every well-formed instruction answers -/

theorem whenInitialised_answers (s : State) {body : Host.Outcome State Fault Refusal} (h : ∃ t, body = .next t) :
    ∃ t, s.whenInitialised body = .next t := by
  unfold State.whenInitialised
  split
  · exact h
  · exact ⟨_, rfl⟩

/-- A check that decides between two next states. -/
theorem ite_next_answers (c : Prop) [Decidable c] (a b : State) :
    ∃ t, (if c then .next a else .next b : Host.Outcome State Fault Refusal) = .next t := by
  split
  · exact ⟨a, rfl⟩
  · exact ⟨b, rfl⟩

/-- A text that lies inside HBUF is laid out to its end (R76, R268). -/
theorem textDots_answers (q : Params) (hb : Mem) (fs : Nat) (v : Bit) (n a cx cy : Nat) (h : a + n ≤ q.hbufSize) :
    ∃ ds, textDots q hb fs v n a cx cy = some ds := by
  induction n generalizing a cx cy with
  | zero => exact ⟨[], rfl⟩
  | succ n ih =>
    have hrest : ∀ x y, ∃ ds, textDots q hb fs v n (a + 1) x y = some ds := fun x y => ih _ _ _ (by omega)
    rw [textDots, if_pos (by omega)]
    dsimp only
    by_cases hc : Config.charMax < (hb.read a).toNat
    · rw [if_pos hc]; exact hrest _ _
    · rw [if_neg hc]
      by_cases hy : Config.height < (if Config.width < cx + fs then cy + fs else cy) + fs
      · rw [if_pos hy]; exact ⟨[], rfl⟩
      · obtain ⟨ds, hds⟩ := hrest ((if Config.width < cx + fs then 0 else cx) + fs)
          (if Config.width < cx + fs then cy + fs else cy)
        rw [if_neg hy, hds]; exact ⟨_, rfl⟩

/-- A bitmap the caller keeps inside HBUF is drawn or turned away, never refused (R76, R264). -/
theorem execDrawpic_answers (p : Plane) (l t r b ptr : Half) (s : State)
    (hw : (Instr.drawpic p l t r b ptr).wellFormed s.params = true) : ∃ u, execDrawpic p l t r b ptr s = .next u := by
  refine whenInitialised_answers s ?_
  split
  · rename_i hg
    have hguarantee : ptr = Config.nullPtr ∨
        ptr.toNat + bitmapBytes l.toNat t.toNat r.toNat b.toNat ≤ s.params.hbufSize := by
      simpa [Instr.wellFormed] using hw
    exact ⟨_, if_pos (hguarantee.resolve_left hg.1)⟩
  · exact ⟨_, rfl⟩

/-- A text the caller keeps inside HBUF is drawn or turned away, never refused (R76, R268). -/
theorem execDrawstr_answers (p : Plane) (x y ptr len : Half) (v : Bit) (fs : Half) (s : State)
    (hw : (Instr.drawstr p x y ptr len v fs).wellFormed s.params = true) :
    ∃ u, execDrawstr p x y ptr len v fs s = .next u := by
  refine whenInitialised_answers s ?_
  split
  · rename_i hg
    have hguarantee : ptr = Config.nullPtr ∨ ptr.toNat + len.toNat ≤ s.params.hbufSize := by
      simpa [Instr.wellFormed] using hw
    obtain ⟨ds, hds⟩ := textDots_answers s.params s.hbuf fs.toNat v len.toNat ptr.toNat x.toNat y.toNat
      (hguarantee.resolve_left hg.1)
    rw [hds]
    exact ⟨_, rfl⟩
  · exact ⟨_, rfl⟩

/-- R15: no well-formed instruction is refused or faults. -/
theorem exec_answers (i : Instr) (s : State) (hw : i.wellFormed s.params = true) : ∃ t, exec i s = .next t := by
  cases i with
  | init => exact (exec_init_cases s).imp fun _ h => h.1
  | deinit => exact ite_next_answers _ _ _
  | cfgdef3 => exact ite_next_answers _ _ _
  | cfgdef4 => exact ite_next_answers _ _ _
  | clear p => exact whenInitialised_answers s ⟨_, rfl⟩
  | wrbuf p => exact (exec_wrbuf_cases p s).imp fun _ h => h.1
  | wrpt p x y v => exact whenInitialised_answers s (ite_next_answers _ _ _)
  | rdpt p x y => exact whenInitialised_answers s (ite_next_answers _ _ _)
  | fillrect p l t r b v => exact whenInitialised_answers s (ite_next_answers _ _ _)
  | drawpic p l t r b ptr => exact execDrawpic_answers p l t r b ptr s hw
  | drawstr p x y ptr len v fs => exact execDrawstr_answers p x y ptr len v fs s hw
  | softstart st ti mo => exact (exec_softstart_cases st ti mo s).imp fun _ h => h.1
  | update y => exact (exec_update_cases y s).imp fun _ h => h.1
  | wrupd y => exact (exec_wrupd_cases y s).imp fun _ h => h.1
  | _ => exact ⟨_, exec_panel rfl s⟩

/-! ## Blocks of lines are the operations' sub-sequences -/

theorem runTasks_singleton (t : Task) (s : State) : runTasks [t] s = runTask t s := by
  rw [runTasks_cons]
  cases runTask t s <;> rfl

/-- The lines of the reset are C_RESET (R170, R171). -/
theorem runTasks_resetTasks (s : State) : runTasks resetTasks s = cReset s := by
  have hp : (waitReady (rstPulse s)).params = s.params := (ran_waitReady [] (rstPulse s)).params.trans (rstPulse_params s)
  change (sendAll (txnsSwreset (waitReady (rstPulse s)).params) (waitReady (rstPulse s))).andThen _ = _
  rw [hp]
  rfl

/-- The lines of the initialisation sequence are C_INITSEQ (R172). -/
theorem runTasks_initSeqTasks (s : State) : runTasks initSeqTasks s = cInitSeq s :=
  runTasks_issues [.pDrvout, .pEntry, .pXrange 0 199, .pYrange 0 199, .pBorder, .pTemp] s

/-- The lines of a push are PUSH (R232). -/
theorem runTasks_pushTasks (p : Plane) (s : State) : runTasks (pushTasks p) s = push p s := by
  cases p with
  | black =>
    exact runTasks_issues [.pXrange 0 199, .pYrange 0 199, .pXcnt 0, .pYcnt 0, .pWrbw .planeBytes] (s.setSeq .transmitting)
  | red => exact runTasks_issues [.pXrange 0 199, .pYrange 0 199, .pXcnt 0, .pYcnt 0, .pWrred] (s.setSeq .transmitting)

/-- The lines of a flash are FLASH (R233). -/
theorem runTasks_flashTasks (s : State) : runTasks (ramTasks (.pWrbw .flashBytes)) s = flash s :=
  runTasks_issues [.pXrange 0 199, .pYrange 0 199, .pXcnt 0, .pYcnt 0, .pWrbw .flashBytes] (s.setSeq .transmitting)

/-- The lines of an activation are ACTIVATE (R234). -/
theorem runTasks_activateTasks (w : Waveform) (s : State) : runTasks (activateTasks w) s = activate w s := by
  have hact : runTasks [.enterSeq .activating, .issue .pAct] = fun u => sendAll (txnsAct u.params) (u.setSeq .activating) :=
    funext fun u => runTasks_singleton (.issue .pAct) (u.setSeq .activating)
  have hwave := runTasks_issues [.pUc1, .pUc2 w] (s.setSeq .transmitting)
  change runTasks ([Instr.pUc1, .pUc2 w].map Task.issue ++ [.enterSeq .activating, .issue .pAct]) (s.setSeq .transmitting) = _
  rw [runTasks_append, hwave, hact]
  rfl

theorem runTasks_waitTasks (s : State) : runTasks waitTasks s = .done (waitInSeq s) := rfl

/-- The lines of UPDATE after its leading wait (R240). -/
theorem runTasks_updateTasks {u : UpdateType} (hu : u ≠ .fastFull) (s : State) :
    runTasks (updateTasks u) s = updateBody u s := by
  cases u with
  | fastPartial => exact runTasks_activateTasks _ s
  | cleanFull => exact runTasks_activateTasks _ s
  | cleanFullAggressive =>
    simp only [updateTasks, updateBody, runTasks_append, andThen_assoc, runTasks_activateTasks, runTasks_waitTasks, andThen_done]
  | fastFull => exact absurd rfl hu

/-- The lines of WRUPD after its busy check (R244, R246). -/
theorem runTasks_wrupdTasks (u : UpdateType) (s : State) : runTasks (wrupdTasks u) s = wrupdBody u s := by
  have hact : ∀ w, runTasks (activateTasks w) = activate w := fun w => funext (runTasks_activateTasks w)
  cases u <;>
    simp only [wrupdTasks, wrupdBody, runTasks_append, andThen_assoc, runTasks_pushTasks, runTasks_flashTasks, hact,
      runTasks_waitTasks, andThen_done]

/-! ## An operation from its first line -/

theorem perform_of_turnsAway {s : State} {op : Sending} {e : Status} (k : Nat) (h : s.turnsAway op = some e) :
    s.perform op k = s.deliver e := by simp only [State.perform, h]

theorem perform_of_error {s : State} {op : Sending} {e : Status} (k : Nat) (h : s.turnsAway op = none)
    (ht : op.tasks s.params = .error e) : s.perform op k = s.deliver e := by simp only [State.perform, h, ht]

theorem perform_zero {s : State} {op : Sending} {ts : List Task} (h : s.turnsAway op = none)
    (ht : op.tasks s.params = .ok ts) : s.perform op 0 = op.finish (runTasks ts s) := by
  simp only [State.perform, h, ht, List.drop_zero]

/-- INIT line by line (R280). -/
theorem execInit_eq_perform (s : State) : execInit s = .next (s.perform .init 0) := by
  unfold execInit
  by_cases hi : s.initialised = true
  · rw [if_pos hi, perform_of_turnsAway (e := .alreadyInitialized) 0 (by simp only [State.turnsAway, if_pos hi])]
  by_cases hc : s.cfg.clkHz = 0
  · rw [if_neg hi, if_pos hc, perform_of_turnsAway (e := .invalidArgument) 0 (by simp only [State.turnsAway, if_neg hi, if_pos hc])]
  rw [if_neg hi, if_neg hc, perform_zero (by simp only [State.turnsAway, if_neg hi, if_neg hc]) rfl, List.cons_append, runTasks_cons]
  have hlines : runTasks (resetTasks ++ initSeqTasks) = fun u => (cReset u).andThen cInitSeq := by
    funext u
    rw [runTasks_append, runTasks_resetTasks, funext runTasks_initSeqTasks]
  rw [hlines]
  simp only [Sending.finish, initBody, andThen_assoc, runTask]

/-- DEINIT line by line (R284); with nothing to do it leaves SEQ, which `return OK` does not touch. -/
theorem execDeinit_eq_perform {s : State} (hs : s.seq = .idle) : execDeinit s = .next (s.perform .deinit 0) := by
  unfold execDeinit
  by_cases hi : s.initialised = true
  · have hok : s.turnsAway .deinit = none := by simp only [State.turnsAway, if_pos hi]
    rw [if_pos hi]
    cases hd : s.params.deinitSleep with
    | none =>
      rw [perform_zero (ts := []) hok (by simp only [Sending.tasks, hd])]
      simp only [txnsSleep, hd]
      rfl
    | some b =>
      rw [perform_zero (ts := [.issue .pSleep]) hok (by simp only [Sending.tasks, hd]), runTasks_singleton]
      rfl
  · rw [if_neg hi, perform_of_turnsAway (e := .ok) 0 (by simp only [State.turnsAway, if_neg hi])]
    simp only [State.complete, State.deliver, ← hs]

/-- The check INIT = 1 of an operation stands before its lines (R301). -/
theorem whenInitialised_eq_perform {s : State} {op : Sending} {body : Host.Outcome State Fault Refusal}
    (hop : s.turnsAway op = if s.initialised then none else some .notInitialized)
    (h : s.turnsAway op = none → body = .next (s.perform op 0)) : s.whenInitialised body = .next (s.perform op 0) := by
  unfold State.whenInitialised
  by_cases hi : s.initialised = true
  · rw [if_pos hi]; exact h (by rw [hop, if_pos hi])
  · rw [if_neg hi, perform_of_turnsAway 0 (by rw [hop, if_neg hi])]

theorem execWrbuf_eq_perform (p : Plane) (s : State) : execWrbuf p s = .next (s.perform (.wrbuf p) 0) :=
  whenInitialised_eq_perform rfl fun hok => by
    rw [perform_zero hok rfl, runTasks_pushTasks]
    rfl

theorem execSoftstart_eq_perform (st ti mo : Half) (s : State) :
    execSoftstart st ti mo s = .next (s.perform (.softstart st ti mo) 0) :=
  whenInitialised_eq_perform rfl fun hok => by
    cases hq : ssEncode s.params st ti mo with
    | none => rw [perform_of_error (e := .invalidArgument) 0 hok (by simp only [Sending.tasks, hq])]
    | some q =>
      rw [perform_zero hok (by simp only [Sending.tasks, hq]; rfl), runTasks_singleton]
      rfl

theorem execUpdate_eq_perform (y : Half) (s : State) : execUpdate y s = .next (s.perform (.update y) 0) :=
  whenInitialised_eq_perform rfl fun hok => by
    have served : ∀ u, u ≠ .fastFull → Sending.tasks s.params (.update y) = .ok (waitTasks ++ updateTasks u) →
        .next (thenIdle (updateBody u (waitInSeq s))).endState
          = (.next (s.perform (.update y) 0) : Host.Outcome State Fault Refusal) := by
      intro u hu ht
      rw [perform_zero hok ht, runTasks_append, runTasks_waitTasks, andThen_done, runTasks_updateTasks hu]
      rfl
    cases hy : updateTypeOf y with
    | none => rw [perform_of_error (e := .invalidArgument) 0 hok (by simp only [Sending.tasks, hy])]
    | some u =>
      cases u with
      | fastFull => rw [perform_of_error (e := .notSupported) 0 hok (by simp only [Sending.tasks, hy])]
      | fastPartial => exact served .fastPartial (by decide) (by simp only [Sending.tasks, hy])
      | cleanFull => exact served .cleanFull (by decide) (by simp only [Sending.tasks, hy])
      | cleanFullAggressive => exact served .cleanFullAggressive (by decide) (by simp only [Sending.tasks, hy])

theorem execWrupd_eq_perform (y : Half) (s : State) : execWrupd y s = .next (s.perform (.wrupd y) 0) :=
  whenInitialised_eq_perform rfl fun hok => by
    cases hy : updateTypeOf y with
    | none => rw [perform_of_error (e := .invalidArgument) 0 hok (by simp only [Sending.tasks, hy])]
    | some u =>
      rw [perform_zero hok (by simp only [Sending.tasks, hy]; rfl), List.cons_append, runTasks_cons]
      dsimp only
      by_cases hb : (s.setSeq .waitingReady).seesBusy = true
      · simp [runTask, runTasks_cons, hb, Sending.finish, thenIdle, Micro.endState]
      · simp [runTask, runTasks_cons, hb, Sending.finish, runTasks_wrupdTasks]

/-- R45 (b): an operation that sends is its checks and then its lines, first to last. -/
theorem exec_eq_perform (op : Sending) {s : State} (hs : s.seq = .idle) : exec op.instr s = .next (s.perform op 0) := by
  cases op with
  | init => exact execInit_eq_perform s
  | deinit => exact execDeinit_eq_perform hs
  | wrbuf p => exact execWrbuf_eq_perform p s
  | softstart st ti mo => exact execSoftstart_eq_perform st ti mo s
  | update y => exact execUpdate_eq_perform y s
  | wrupd y => exact execWrupd_eq_perform y s

/-- Settles O11: totality instruction by instruction, rest from the ways an instruction can end, and for the operations that send the
equality of each sub-sequence with its block of lines. -/
theorem wellFormedInstructionsAlwaysAnswer : Obligations.WellFormedInstructionsAlwaysAnswer := by
  refine ⟨fun i s hw hs => ?_, fun op s hs => exec_eq_perform op hs⟩
  obtain ⟨t, ht⟩ := exec_answers i s hw
  have hr := exec_rests hs ht
  exact ⟨t, ht, hr.seqIdle, hr.params, hr.hbuf⟩

/-! ## Time as lower bounds (R8, R371) -/

@[simp] theorem sleptAtLeast_pinSet (p : Params) (n : Pin) (l : Bit) (es : List Event) :
    sleptAtLeast p (.pinSet n l :: es) = sleptAtLeast p es := Nat.zero_add _

/-- From `s` to `t` the trace grew by events whose delays come to `n` microseconds at least. -/
structure SleepsAtLeast (n : Nat) (s t : State) : Prop where
  params : t.params = s.params
  trace : ∃ es, t.tr = s.tr ++ es ∧ n ≤ sleptAtLeast s.params es

theorem SleepsAtLeast.trans {m n : Nat} {s t u : State} (h : SleepsAtLeast m s t) (k : SleepsAtLeast n t u) :
    SleepsAtLeast (m + n) s u := by
  obtain ⟨es, htr, hes⟩ := h.trace
  obtain ⟨fs, ktr, hfs⟩ := k.trace
  rw [h.params] at hfs
  refine ⟨k.params.trans h.params, es ++ fs, by rw [ktr, htr, List.append_assoc], ?_⟩
  rw [sleptAtLeast_append]
  omega

/-- Waits and transactions only add to the trace. -/
theorem Did.sleeps {s t : State} {n m j os} (h : Did s t n m j os) : SleepsAtLeast 0 s t := by
  obtain ⟨es, htr, -⟩ := h.shown
  exact ⟨h.params, es, htr, Nat.zero_le _⟩

theorem sleeps_emit_delay (s : State) (d : Duration) : SleepsAtLeast (d.micros s.params) s (s.emit [.delay d]) :=
  ⟨rfl, [.delay d], rfl, Nat.le_refl _⟩

/-- The hardware pulse holds each of its three levels for T_RST (R170). -/
theorem sleeps_rstPulse (s : State) : SleepsAtLeast 30000 s (rstPulse s) := by
  refine ⟨rstPulse_params s, _, by rw [rstPulse_eq], ?_⟩
  have hrst : Duration.micros s.params .rst = 10000 := rfl
  rw [sleptAtLeast_pinSet, sleptAtLeast_delay, sleptAtLeast_pinSet, sleptAtLeast_delay, sleptAtLeast_pinSet,
    sleptAtLeast_delay, sleptAtLeast_nil, hrst]

theorem sleeps_opened (s : State) : SleepsAtLeast 0 s (opened s) :=
  ⟨opened_params s, _, by rw [opened_eq], Nat.zero_le _⟩

/-- A reset whose command completes sleeps three times T_RST and once T_SWRST (R170, R171), and takes one bus write. -/
theorem cReset_sleeps {s : State} {l : List Nat} (hw : s.writesAll (1 :: l)) :
    ∃ t, cReset s = .done t ∧ SleepsAtLeast 40000 s t ∧ t.writesAll l := by
  have hpulse := sleeps_rstPulse s
  have hwait := did_waitReady (rstPulse s)
  have hpulsed : (rstPulse s).writesAll ([1] ++ l) := by rw [State.writesAll, rstPulse_countFeed]; exact hw
  have hready : (waitReady (rstPulse s)).writesAll ([1] ++ l) := hwait.writes (l := []) rfl hpulsed
  obtain ⟨u, hsend, hsent, -⟩ :=
    did_sendAll (ts := txnsSwreset s.params) (writesAll_prefix hready) rfl (by simp [txnsSwreset, pc])
  have hdelay := did_delay u .swrst
  have hend := did_waitReady (u.emit [.delay .swrst])
  refine ⟨waitReady (u.emit [.delay .swrst]), by rw [cReset, hsend, andThen_done], ?_, ?_⟩
  · have hslept := (((hpulse.trans hwait.sleeps).trans hsent.sleeps).trans (sleeps_emit_delay u .swrst)).trans hend.sleeps
    have hswrst : Duration.micros u.params .swrst = 10000 := rfl
    simpa only [hswrst, Nat.add_zero, Nat.reduceAdd] using hslept
  · exact ((hsent.trans hdelay).trans hend).writes (l := [1]) rfl hready

/-- A successful INIT sleeps 40 ms at least: its reset does (R280, R371). -/
theorem exec_init_sleeps {s : State} (hi : s.initialised = false) (hc : s.cfg.clkHz ≠ 0) (hr : s.achievedRate ≠ 0)
    (hw : s.writesAll (List.replicate 19 1)) :
    ∃ t, exec .init s = .next t ∧ t.initialised = true ∧ SleepsAtLeast 40000 s t := by
  have hopened : (opened s).writesAll (1 :: List.replicate 18 1) := by rw [State.writesAll, opened_countFeed]; exact hw
  obtain ⟨u, hreset, hslept, hwrites⟩ := cReset_sleeps hopened
  obtain ⟨v, hsend, hsent, -⟩ := did_sendAll (ts := initSeqTxns u.params) hwrites rfl (by simp [initSeqTxns, txnsDrvout, pc])
  have hbody : initBody s = .done (finishInit v) := by
    rw [initBody, tOpen_ok hr, andThen_done, hreset, andThen_done, cInitSeq, hsend, andThen_done]
  refine ⟨(finishInit v).complete, ?_, rfl, ?_⟩
  · rw [exec, execInit, if_neg (by simp [hi]), if_neg hc, hbody, Micro.endState]
  · obtain ⟨hp, es, htr, hes⟩ := ((sleeps_opened s).trans hslept).trans hsent.sleeps
    exact ⟨hp, es, htr, hes⟩

/-- Busy samples, each with its poll delay. -/
theorem sleptAtLeast_polls (p : Params) (l : Bit) (j : Nat) :
    sleptAtLeast p (List.replicate j [Event.busyRead l, .delay .poll]).flatten = j * p.tPoll := by
  induction j with
  | zero => simp
  | succ j ih =>
    rw [List.replicate_succ, List.flatten_cons, sleptAtLeast_append, ih, Nat.succ_mul, Nat.add_comm]
    simp [Duration.micros]

/-- A wait that is Ready after `j` busy samples: that many poll delays and the settle delay (R200, R201). -/
theorem waitReady_ready_sleeps {s : State} {j : Nat} (hj : j < s.params.nPoll)
    (hb : ∀ i, i < j → s.busyAt i = s.params.busyActive) (hr : s.busyAt j ≠ s.params.busyActive) :
    ∃ es, (waitReady s).tr = s.tr ++ es ∧ sleptAtLeast s.params es = j * s.params.tPoll + s.params.tSettle := by
  refine ⟨_, by rw [waitReady, waitLoop_ready hj hb hr], ?_⟩
  rw [sleptAtLeast_append, sleptAtLeast_polls]
  simp [Duration.micros]

/-- A wait that times out sleeps between its samples and not after the last (R200, R202). -/
theorem waitReady_timedOut_sleeps {s : State} {k : Nat} (hn : s.params.nPoll = k + 1)
    (hb : ∀ i, i < k + 1 → s.busyAt i = s.params.busyActive) :
    ∃ es, (waitReady s).tr = s.tr ++ es ∧ sleptAtLeast s.params es = k * s.params.tPoll := by
  refine ⟨_, by rw [waitReady, hn, waitLoop_timedOut hb], ?_⟩
  rw [sleptAtLeast_append, sleptAtLeast_polls]
  simp

/-- Settles O47: the reset's four delays bound INIT from below, and the exact trace of a wait gives what it sleeps. -/
theorem delaysAreLowerBounds : Obligations.DelaysAreLowerBounds := by
  refine ⟨fun s hi hc hr hw => ?_, fun s j => waitReady_ready_sleeps, fun s k => waitReady_timedOut_sleeps⟩
  rw [Feed.nth_zero] at hr
  obtain ⟨t, hexec, hinit, -, es, htr, hes⟩ := exec_init_sleeps hi hc hr hw
  exact ⟨t, es, hexec, hinit, htr, hes⟩

end Sys2Proof.Machine
end

section
/-! The state and what may write it (10_state.md): what one step can end in, what an instruction can write of CFG, the planes, RDATA
and the trace, why nothing reaches a plane while INIT = 0, and the host's registers. -/

namespace Sys2Proof.Machine

open Sys2Proof

/-! ## What a step does, rule by rule (R15, R43) -/

theorem step_of_latched {s : State} {w : CmdWord} {i : Instr} (hc : s.cmd = some w) (ha : s.accepts w = true)
    (hf : fetch s.params w = some i) : step s = exec i (s.enter w) := by
  simp only [step, hc, if_pos ha, hf]

theorem step_of_underway {s : State} {u : Underway} (hc : s.cmd = none) (hu : s.underway = some u) :
    step s = .next (s.resume u) := by
  simp only [step, hc, hu]

theorem step_of_rest {s : State} (hc : s.cmd = none) (hu : s.underway = none) : step s = hostTurn s := by
  simp only [step, hc, hu]

theorem step_of_hostMove {s : State} {m : HostMove} {ms : List HostMove} (hc : s.cmd = none) (hu : s.underway = none)
    (hm : s.hostMoves = m :: ms) : step s = hostMove m { s with hostMoves := ms } := by
  rw [step_of_rest hc hu]
  simp only [hostTurn, hm]

theorem step_of_noMove {s : State} (hc : s.cmd = none) (hu : s.underway = none) (hm : s.hostMoves = []) :
    step s = .next s := by
  rw [step_of_rest hc hu]
  simp only [hostTurn, hm]

theorem fetch_of_decode {p : Params} {w : CmdWord} {i : Instr} (h : decode p w = .ok i) : fetch p w = some i := by
  simp only [fetch, h]

/-- What a step that answers can be: the latched word's instruction, or its rejection; the operation under way; the host's move, or
nothing at all. -/
inductive Stepped (s t : State) : Prop where
  | ran (w : CmdWord) (i : Instr) (hc : s.cmd = some w) (ha : s.accepts w = true) (hf : fetch s.params w = some i)
      (ht : exec i (s.enter w) = .next t)
  | turnedAway (w : CmdWord) (hc : s.cmd = some w) (ha : s.accepts w = true) (hf : fetch s.params w = none)
      (ht : t = (s.enter w).turnAway w)
  | resumed (u : Underway) (hc : s.cmd = none) (hu : s.underway = some u) (ht : t = s.resume u)
  | moved (m : HostMove) (ms : List HostMove) (hc : s.cmd = none) (hu : s.underway = none) (hm : s.hostMoves = m :: ms)
      (ht : hostMove m { s with hostMoves := ms } = .next t)
  | idle (hc : s.cmd = none) (hu : s.underway = none) (hm : s.hostMoves = []) (ht : t = s)

theorem step_cases {s t : State} (h : step s = .next t) : Stepped s t := by
  cases hc : s.cmd with
  | some w =>
    by_cases ha : s.accepts w = true
    · cases hf : fetch s.params w with
      | some i => exact .ran w i hc ha hf (step_of_latched hc ha hf ▸ h)
      | none =>
        simp only [step, hc, if_pos ha, hf] at h
        cases h
        exact .turnedAway w hc ha hf rfl
    · rw [step_of_not_accepts hc ha] at h
      cases h
  | none =>
    cases hu : s.underway with
    | some u =>
      rw [step_of_underway hc hu] at h
      cases h
      exact .resumed u hc hu rfl
    | none =>
      cases hm : s.hostMoves with
      | nil =>
        rw [step_of_noMove hc hu hm] at h
        cases h
        exact .idle hc hu hm rfl
      | cons m ms => exact .moved m ms hc hu hm (step_of_hostMove hc hu hm ▸ h)

/-- Settles O6: the three rules of a step, with the draw of the bus written as the first of its feed. -/
theorem stepRunsTheDecodedInstruction : Obligations.StepRunsTheDecodedInstruction := by
  refine ⟨fun s w i hc hseq hunder hd => ?_, fun s w i hc hd => ?_, fun s u hc hu => step_of_underway hc hu⟩
  · have haccepts := (accepts_descriptor_iff s w).2 ⟨hseq, hunder⟩
    rw [step_of_latched hc haccepts (fetch_of_decode hd), Feed.nth_zero, Feed.popMany_one]
    rfl
  · exact step_of_latched hc rfl (fetch_of_decode hd)

/-- Settles O9: no cell is listed, nothing is in progress and INIT = 0, so every clause is about an empty list or void. -/
theorem resetMeetsTheInvariant : Obligations.ResetMeetsTheInvariant where
  blackWf := unspecified_wf _ 1
  redWf := unspecified_wf _ 2
  hbufWf := unspecified_wf _ 0
  seqIdle := rfl
  atRest := rfl
  csHigh := nofun
  held := nofun
  clock := nofun
  released := nofun
  fills := nofun

/-! ## What an instruction can write -/

/-- What waits, transactions and deliveries leave alone: CFG, RDATA and both planes; and the trace only grows. -/
structure WireOnly (s t : State) : Prop where
  cfg : t.cfg = s.cfg
  rdata : t.rdata = s.rdata
  plane : ∀ q, t.plane q = s.plane q
  trace : s.tr <+: t.tr

theorem WireOnly.trans {s t u : State} (h : WireOnly s t) (k : WireOnly t u) : WireOnly s u :=
  ⟨k.cfg.trans h.cfg, k.rdata.trans h.rdata, fun q => (k.plane q).trans (h.plane q), h.trace.trans k.trace⟩

theorem wireOnly_deliver (s : State) (e : Status) : WireOnly s (s.deliver e) :=
  ⟨rfl, rfl, fun q => deliver_plane s e q, List.prefix_rfl⟩

theorem wireOnly_complete (s : State) : WireOnly s s.complete := ⟨rfl, rfl, fun q => complete_plane s q, List.prefix_rfl⟩

theorem wireOnly_underway (s : State) (u : Option Underway) : WireOnly s { s with underway := u } :=
  ⟨rfl, rfl, fun q => by cases q <;> rfl, List.prefix_rfl⟩

theorem Ran.plane {ks : List PanelOp} {s t : State} (h : Ran ks s t) (q : Plane) : t.plane q = s.plane q := by
  cases q with
  | black => exact h.black
  | red => exact h.red

theorem Ran.wireOnly {ks : List PanelOp} {s t : State} (h : Ran ks s t) : WireOnly s t := by
  obtain ⟨es, _, htr, _⟩ := h.trace
  exact ⟨h.cfg, h.rdata, h.plane, es, htr.symm⟩

theorem Ended.wireOnly {ks : List PanelOp} {s t : State} (h : Ended ks s t) : WireOnly s t := by
  cases h with
  | rejected e _ ht => exact ht ▸ wireOnly_deliver s e
  | ok u hr _ ht => exact ht ▸ hr.wireOnly.trans (wireOnly_complete u)
  | failed u hr _ ht => exact ht ▸ hr.wireOnly.trans (wireOnly_deliver u _)

theorem PanelEnded.wireOnly {i : Instr} {s t : State} (h : PanelEnded i s t) : WireOnly s t := by
  cases h with
  | outOfPlace _ ht => exact ht ▸ ⟨rfl, rfl, fun q => by cases q <;> rfl, List.prefix_rfl⟩
  | sent _ _ v hr _ ht => exact ht ▸ hr.wireOnly.trans (wireOnly_underway v _)
  | failed _ _ _ v hr _ ht => exact ht ▸ (hr.wireOnly.trans (wireOnly_deliver v _)).trans (wireOnly_underway _ _)

theorem wireOnly_rstPulse_opened (s : State) : WireOnly s (rstPulse (opened s)) where
  cfg := by rw [rstPulse_eq, opened_eq]
  rdata := by rw [rstPulse_eq, opened_eq]
  plane q := by rw [rstPulse_eq, opened_eq]; cases q <;> rfl
  trace := by rw [rstPulse_eq, opened_eq, List.append_assoc]; exact List.prefix_append _ _

/-- INIT does its local clear only where it succeeds, and then INIT was 0 (R280). -/
theorem InitEnded.wireOnly_or_finished {s t : State} (h : InitEnded s t) :
    WireOnly s t ∨ s.initialised = false ∧ ∃ u, WireOnly s u ∧ t = (finishInit u).complete := by
  cases h with
  | already _ ht => exact .inl (ht ▸ wireOnly_deliver s _)
  | badClock _ _ ht => exact .inl (ht ▸ wireOnly_deliver s _)
  | noRate _ _ _ ht => exact .inl (ht ▸ ⟨rfl, rfl, fun q => by cases q <;> rfl, List.prefix_append _ _⟩)
  | ok hi _ _ u hr ht => exact .inr ⟨hi, u, (wireOnly_rstPulse_opened s).trans hr.wireOnly, ht⟩
  | failed _ _ _ u hr _ ht =>
    exact .inl (ht ▸ ((wireOnly_rstPulse_opened s).trans hr.wireOnly).trans (wireOnly_deliver u _))

/-- What an instruction that answers has written of CFG, RDATA and the planes (R32, R36, R40). -/
inductive Wrote (i : Instr) (s t : State) : Prop where
  | nothing (h : WireOnly s t)
  | setUp (hi : i = .init) (h0 : s.initialised = false) (u : State) (hu : WireOnly s u) (ht : t = (finishInit u).complete)
  | gaveUp (hi : i = .deinit) (u : State) (hu : WireOnly s u) (ht : t = (finishDeinit u).complete)
  | preset (h0 : s.initialised = false) (c : Cfg) (ht : t = State.complete { s with cfg := c })
  | drawn (p : Plane) (hw : i.writesPlane p = true) (m : Mem) (ht : t = (s.setPlane p m).complete)
  | read (p : Plane) (x y : Half) (hi : i = .rdpt p x y)
      (ht : t = State.complete { s with rdata := (s.plane p).readPixel x.toNat y.toNat })

theorem DrawEnded.wrote {i : Instr} {p : Plane} {s t : State} (h : DrawEnded i p s t) : Wrote i s t := by
  cases h with
  | rejected e _ ht => exact .nothing (ht ▸ wireOnly_deliver s e)
  | drawn _ hq m _ _ ht => exact .drawn p ((hq p).trans (decide_eq_true rfl)) m ht
  | read _ x y hi ht => exact .read p x y hi ht

theorem exec_wrote {i : Instr} {s t : State} (h : exec i s = .next t) : Wrote i s t := by
  rcases exec_cases i s t h with ⟨hi, he⟩ | ⟨hi, hd⟩ | ⟨_, hc⟩ | ⟨_, _, p, _, hd⟩ | ⟨_, hu⟩ | ⟨_, hp⟩
  · rcases he.wireOnly_or_finished with hw | ⟨h0, u, hu, ht⟩
    · exact .nothing hw
    · exact .setUp hi h0 u hu ht
  · rcases hd with ⟨_, rfl⟩ | ⟨u, _, ht, hr⟩
    · exact .nothing (wireOnly_complete s)
    · exact .gaveUp hi u hr.wireOnly ht
  · rcases hc with ⟨_, rfl⟩ | ⟨h0, c, ht⟩
    · exact .nothing (wireOnly_deliver s _)
    · exact .preset h0 c ht
  · exact hd.wrote
  · rcases hu with he | ⟨_, rfl⟩ | ⟨_, _, rfl⟩
    · exact .nothing he.wireOnly
    · exact .nothing (wireOnly_deliver s _)
    · exact .nothing ((((ran_setSeq [] s _).trans (ran_sampleBusy [] _)).wireOnly).trans (wireOnly_deliver _ _))
  · exact .nothing hp.wireOnly

/-! ## The trace is append-only (R50) -/

theorem finishDeinit_tr (s : State) : (finishDeinit s).tr = s.tr ++ [.busDeinit s.heldBus] := by rw [finishDeinit_eq]

theorem Wrote.tr_prefix {i : Instr} {s t : State} (h : Wrote i s t) : s.tr <+: t.tr := by
  cases h with
  | nothing h => exact h.trace
  | setUp _ _ u hu ht => exact ht ▸ hu.trace
  | gaveUp _ u hu ht =>
    rw [ht, complete_tr, finishDeinit_tr]
    exact hu.trace.trans (List.prefix_append _ _)
  | preset _ _ ht => exact ht ▸ List.prefix_rfl
  | drawn p _ m ht => exact ht ▸ by simp
  | read _ _ _ _ ht => exact ht ▸ List.prefix_rfl

theorem andThen_tr_prefix {s : State} {m : Micro} {f : State → Micro} (h : s.tr <+: m.state.tr)
    (hf : ∀ t, t.tr <+: (f t).state.tr) : s.tr <+: (m.andThen f).state.tr := by
  cases m with
  | done t => exact h.trans (hf t)
  | raised e t => exact h

theorem tOpen_tr_prefix (s : State) : s.tr <+: (tOpen s).state.tr := by
  by_cases hr : s.achievedRate = 0
  · simp only [tOpen, if_pos hr]
    exact List.prefix_append _ _
  · rw [tOpen_ok hr, opened_eq]
    exact List.prefix_append _ _

/-- Every line of an operation appends to the trace, whatever the state it is reached in. -/
theorem runTask_tr_prefix (l : Task) (s : State) : s.tr <+: (runTask l s).state.tr := by
  cases l with
  | openBus => exact tOpen_tr_prefix s
  | driveRst l => exact List.prefix_append _ _
  | sleep d => exact List.prefix_append _ _
  | awaitReady => exact (ran_waitReady [] s).wireOnly.trace
  | checkBusy =>
    rw [runTask]
    split <;> exact (ran_sampleBusy [] s).wireOnly.trace
  | enterSeq q => exact List.prefix_rfl
  | issue i => exact (ran_sendAll (txnOf_panel s i)).1.wireOnly.trace

theorem runTasks_tr_prefix (ls : List Task) (s : State) : s.tr <+: (runTasks ls s).state.tr := by
  induction ls generalizing s with
  | nil => exact List.prefix_rfl
  | cons l ls ih => exact andThen_tr_prefix (runTask_tr_prefix l s) ih

theorem endState_tr (m : Micro) : m.endState.tr = m.state.tr := by cases m <;> rfl

theorem finish_tr_prefix (op : Sending) (m : Micro) : m.state.tr <+: (op.finish m).tr := by
  have idle : m.state.tr <+: (thenIdle m).endState.tr := by cases m <;> exact List.prefix_rfl
  cases op with
  | init =>
    rw [Sending.finish, endState_tr]
    exact andThen_tr_prefix List.prefix_rfl fun t => List.prefix_rfl
  | deinit =>
    rw [Sending.finish, complete_tr, finishDeinit_tr]
    exact List.prefix_append _ _
  | softstart _ _ _ => rw [Sending.finish, endState_tr]
  | wrbuf _ => exact idle
  | update _ => exact idle
  | wrupd _ => exact idle

theorem perform_tr_prefix (s : State) (op : Sending) (k : Nat) : s.tr <+: (s.perform op k).tr := by
  unfold State.perform
  split
  · exact List.prefix_rfl
  · split
    · exact List.prefix_rfl
    · exact (runTasks_tr_prefix _ s).trans (finish_tr_prefix op _)

@[simp] theorem enter_tr (s : State) (w : CmdWord) : (s.enter w).tr = s.tr := by cases w <;> rfl
@[simp] theorem turnAway_tr (s : State) (w : CmdWord) : (s.turnAway w).tr = s.tr := by cases w <;> rfl

@[simp] theorem writeReg_tr (s : State) (r : HostReg) (v : Quad) : (s.writeReg r v).tr = s.tr := by
  unfold State.writeReg
  split <;> rfl

/-- Of the host's moves only loss of power touches the trace (R341; log 22). -/
theorem hostMove_tr {m : HostMove} {s t : State} (hm : m ≠ .powerCycle) (h : hostMove m s = .next t) : t.tr = s.tr := by
  cases m with
  | writeCmd w => cases h; rfl
  | readCmd => cases h
  | writeReg r v => cases h; exact writeReg_tr s r v
  | readReg r => cases h; rfl
  | writeHbuf a v =>
    simp only [hostMove] at h
    split at h <;> cases h
    rfl
  | powerCycle => exact absurd rfl hm

/-- Settles O12: an instruction appends whatever it writes; a step adds the latch, the rest of an operation, line by line, and the
host's moves. -/
theorem traceIsAppendOnly : Obligations.TraceIsAppendOnly := by
  refine ⟨fun i s t h => (exec_wrote h).tr_prefix, fun s t h hpower => ?_⟩
  cases step_cases h with
  | ran w i _ _ _ ht => simpa using (exec_wrote ht).tr_prefix
  | turnedAway w _ _ _ ht => simp [ht]
  | resumed u _ _ ht => exact ht ▸ perform_tr_prefix s u.op u.done
  | moved m ms hc hu hm ht =>
    have hne : m ≠ .powerCycle := by simpa [hm] using hpower hc hu
    rw [hostMove_tr hne ht]
  | idle _ _ _ ht => rw [ht]

/-! ## CFG (R31, R32) -/

theorem writeReg_of_initialised {s : State} (r : HostReg) (v : Quad) (h : s.initialised = true) : s.writeReg r v = s := by
  rw [State.writeReg, if_pos h]

theorem writeReg_of_not_initialised {s : State} (r : HostReg) (v : Quad) (h : s.initialised = false) :
    s.writeReg r v = { s with cfg := writeCfg s.cfg r v } := by
  rw [State.writeReg, if_neg (by simp [h])]

theorem Wrote.cfg_eq {i : Instr} {s t : State} (hi : s.initialised = true) (h : Wrote i s t) : t.cfg = s.cfg := by
  cases h with
  | nothing h => exact h.cfg
  | setUp _ h0 => simp [hi] at h0
  | gaveUp _ u hu ht => rw [ht, complete_cfg, finishDeinit_eq, hu.cfg]
  | preset h0 => simp [hi] at h0
  | drawn p _ m ht => simp [ht]
  | read _ _ _ _ ht => rw [ht, complete_cfg]

/-- Settles O21: of what an instruction can write only the presets and the register write reach CFG, and both ask for INIT = 0. -/
theorem cfgIsFrozenWhileInitialised : Obligations.CfgIsFrozenWhileInitialised := by
  refine ⟨fun i s t hi h => (exec_wrote h).cfg_eq hi, fun s r v ms hi hc hu hm => ?_⟩
  exact (step_of_hostMove hc hu hm).trans (congrArg Host.Outcome.next (writeReg_of_initialised r v hi))

/-! ## Nothing reaches a plane while INIT = 0 (R36) -/

section SetPlane

variable (q : Plane) (m : Mem)

/-- A micro-operation's answer with plane `q` replaced in the state it leaves. -/
def Micro.setPlane (q : Plane) (m : Mem) : Micro → Micro
  | .done s => .done (s.setPlane q m)
  | .raised e s => .raised e (s.setPlane q m)

@[simp] theorem done_setPlane (s : State) : (Micro.done s).setPlane q m = .done (s.setPlane q m) := rfl
@[simp] theorem raised_setPlane (e : Status) (s : State) :
    (Micro.raised e s).setPlane q m = .raised e (s.setPlane q m) := rfl

theorem deliver_setPlane (s : State) (e : Status) : (s.setPlane q m).deliver e = (s.deliver e).setPlane q m := by
  cases q <;> rfl

theorem complete_setPlane (s : State) : (s.setPlane q m).complete = s.complete.setPlane q m := by cases q <;> rfl

theorem emit_setPlane (s : State) (es : List Event) : (s.setPlane q m).emit es = (s.emit es).setPlane q m := by
  cases q <;> rfl

theorem sampleBusy_setPlane (s : State) : sampleBusy (s.setPlane q m) = (sampleBusy s).setPlane q m := by cases q <;> rfl

theorem seesBusy_setPlane (s : State) : (s.setPlane q m).seesBusy = s.seesBusy := by cases q <;> rfl

theorem opened_setPlane (s : State) : opened (s.setPlane q m) = (opened s).setPlane q m := by cases q <;> rfl

theorem rstPulse_setPlane (s : State) : rstPulse (s.setPlane q m) = (rstPulse s).setPlane q m := by cases q <;> rfl

/-- The local clear of a successful INIT leaves nothing of either plane (R280). -/
theorem finishInit_setPlane (s : State) : finishInit (s.setPlane q m) = finishInit s := by cases q <;> rfl

theorem andThen_setPlane {x : Micro} {f : State → Micro} (hf : ∀ s, f (s.setPlane q m) = (f s).setPlane q m) :
    (x.setPlane q m).andThen f = (x.andThen f).setPlane q m := by
  cases x with
  | done s => exact hf s
  | raised e s => rfl

/-- A transaction neither reads nor writes a plane: its bytes are given (R143, R144). -/
theorem tWrBytes_setPlane (x : Txn) (s : State) : tWrBytes x (s.setPlane q m) = (tWrBytes x s).setPlane q m := by
  rw [tWrBytes_eq, tWrBytes_eq, setPlane_countFeed]
  split <;> cases q <;> rfl

theorem sendAll_setPlane (xs : List Txn) (s : State) : sendAll xs (s.setPlane q m) = (sendAll xs s).setPlane q m := by
  induction xs generalizing s with
  | nil => rfl
  | cons x xs ih => rw [sendAll_cons, sendAll_cons, tWrBytes_setPlane, andThen_setPlane q m ih]

theorem waitLoop_setPlane (k : Nat) (s : State) : waitLoop k (s.setPlane q m) = (waitLoop k s).setPlane q m := by
  induction k generalizing s with
  | zero => rfl
  | succ k ih =>
    have hb : (s.setPlane q m).seesBusy = s.seesBusy := seesBusy_setPlane q m s
    cases hs : s.seesBusy with
    | false => rw [waitLoop_notBusy k hs, waitLoop_notBusy k (hb.trans hs), sampleBusy_setPlane, emit_setPlane]
    | true =>
      cases k with
      | zero => rw [waitLoop_last hs, waitLoop_last (hb.trans hs), sampleBusy_setPlane]
      | succ k =>
        rw [waitLoop_again k hs, waitLoop_again k (hb.trans hs), sampleBusy_setPlane, emit_setPlane, ih]

theorem waitReady_setPlane (s : State) : waitReady (s.setPlane q m) = (waitReady s).setPlane q m := by
  rw [waitReady, waitReady, setPlane_params, waitLoop_setPlane]

theorem tOpen_setPlane (s : State) : tOpen (s.setPlane q m) = (tOpen s).setPlane q m := by
  have hrate : (s.setPlane q m).achievedRate = s.achievedRate := by cases q <;> rfl
  by_cases hr : s.achievedRate = 0
  · simp only [tOpen, hrate, if_pos hr]
    cases q <;> rfl
  · rw [tOpen_ok hr, tOpen_ok (hrate ▸ hr), opened_setPlane, done_setPlane]

theorem cReset_setPlane (s : State) : cReset (s.setPlane q m) = (cReset s).setPlane q m := by
  rw [cReset, cReset, setPlane_params, rstPulse_setPlane, waitReady_setPlane, sendAll_setPlane]
  refine andThen_setPlane q m fun u => ?_
  rw [emit_setPlane, waitReady_setPlane, done_setPlane]

theorem cInitSeq_setPlane (s : State) : cInitSeq (s.setPlane q m) = (cInitSeq s).setPlane q m := by
  rw [cInitSeq, cInitSeq, setPlane_params, sendAll_setPlane]

end SetPlane

/-- INIT's body up to its local clear (R280). -/
def initWire (s : State) : Micro := (tOpen s).andThen fun s => (cReset s).andThen cInitSeq

theorem initBody_eq (s : State) : initBody s = (initWire s).andThen fun u => .done (finishInit u) := by
  simp only [initBody, initWire, andThen_assoc]

theorem initWire_setPlane (q : Plane) (m : Mem) (s : State) : initWire (s.setPlane q m) = (initWire s).setPlane q m := by
  rw [initWire, initWire, tOpen_setPlane]
  refine andThen_setPlane q m fun u => ?_
  rw [cReset_setPlane]
  exact andThen_setPlane q m (cInitSeq_setPlane q m)

theorem initWire_initialised (s : State) : (initWire s).state.initialised = s.initialised := by
  by_cases hr : s.achievedRate = 0
  · simp only [initWire, tOpen, if_pos hr]
    rfl
  · rw [initWire, tOpen_ok hr, andThen_done, (ran_initTail (opened s)).1.initialised, rstPulse_eq, opened_eq]

/-- What "nothing reaches plane `q`" means for an instruction whose answer from `s` is `t`: begun with any content there, it answers
the same with that content in it, or, where it initialises the block, the very same. -/
def Unreached (i : Instr) (s t : State) : Prop :=
  ∀ q m, exec i (s.setPlane q m) = .next (if t.initialised then t else t.setPlane q m)

theorem unreached_init {s t : State} (h0 : s.initialised = false) (h : exec .init s = .next t) : Unreached .init s t := by
  intro q m
  simp only [exec, execInit, setPlane_initialised, setPlane_cfg, if_neg (Bool.eq_false_iff.1 h0)] at h ⊢
  by_cases hc : s.cfg.clkHz = 0
  · rw [if_pos hc] at h ⊢
    cases h
    rw [deliver_setPlane, deliver_initialised, if_neg (by simp [h0])]
  · have hu := initWire_initialised s
    rw [if_neg hc, initBody_eq] at h ⊢
    rw [initWire_setPlane]
    cases hw : initWire s with
    | done u =>
      rw [hw] at h
      cases h
      rw [done_setPlane, andThen_done, finishInit_setPlane]
      rfl
    | raised e u =>
      rw [hw] at h hu
      cases h
      have h1 : ¬ u.initialised = true := by simpa [Micro.state, h0] using hu
      rw [raised_setPlane, andThen_raised, andThen_raised, Micro.endState, Micro.endState, deliver_initialised, if_neg h1,
        deliver_setPlane]

/-- A place with INIT = 0 is inside INIT: every other operation has turned away (R111, R301). -/
theorem place_op_of_not_initialised {s : State} {i : Instr} {u : Underway} (h0 : s.initialised = false)
    (h : s.place i = some u) : u.op = .init := by
  obtain ⟨-, hturn, -⟩ := place_eq_some.1 h
  revert hturn
  cases u.op with
  | init => exact fun _ => rfl
  | _ => simp [State.turnsAway, h0]

/-- No line of INIT sends a plane (R173, R280). -/
theorem panelTxns_setPlane_of_place {s : State} {i : Instr} {u : Underway} (q : Plane) (m : Mem) (h0 : s.initialised = false)
    (h : s.place i = some u) : panelTxns (s.setPlane q m) i = panelTxns s i := by
  have hop := place_op_of_not_initialised h0 h
  obtain ⟨-, -, -, ls, hls, hline⟩ := place_eq_some.1 h
  rw [hop] at hls
  cases hls
  have hmem := List.mem_of_getElem? hline
  simp only [resetTasks, initSeqTasks, windowTasks, List.cons_append, List.nil_append, List.mem_cons, List.not_mem_nil,
    Task.issue.injEq, reduceCtorEq, false_or, or_false] at hmem
  rcases hmem with rfl | rfl | rfl | rfl | rfl | rfl | rfl <;> simp only [panelTxns, setPlane_params]

theorem place_setPlane (q : Plane) (m : Mem) (s : State) (i : Instr) : (s.setPlane q m).place i = s.place i := by
  cases q <;> rfl

theorem runPanel_setPlane {s : State} {i : Instr} (q : Plane) (m : Mem) (h0 : s.initialised = false) :
    runPanel i (s.setPlane q m) = (runPanel i s).setPlane q m := by
  rw [runPanel, runPanel, place_setPlane]
  cases hp : s.place i with
  | none => cases q <;> rfl
  | some u =>
    dsimp only
    rw [panelTxns_setPlane_of_place q m h0 hp, sendAll_setPlane]
    cases sendAll (panelTxns s i) s with
    | done v => cases q <;> rfl
    | raised e v =>
      simp only [raised_setPlane]
      split <;> cases q <;> rfl

theorem PanelEnded.initialised {i : Instr} {s t : State} (h : PanelEnded i s t) : t.initialised = s.initialised := by
  cases h with
  | outOfPlace _ ht => exact ht ▸ rfl
  | sent _ _ v hr _ ht => exact ht ▸ hr.initialised
  | failed _ _ _ v hr _ ht => exact ht ▸ hr.initialised

theorem unreached_panel {i : Instr} {s t : State} (hi : i.isHostOp = false) (h0 : s.initialised = false)
    (h : exec i s = .next t) : Unreached i s t := by
  intro q m
  rw [exec_panel hi] at h ⊢
  cases h
  rw [runPanel_setPlane q m h0, if_neg (by simp [(runPanel_cases i s).initialised, h0])]

/-- It is enough that the whole answer with INIT = 0 is a function that keeps INIT and commutes with replacing a plane. -/
theorem unreached_of_eq {i : Instr} {s t : State} (f : State → State) (h0 : s.initialised = false)
    (hf : ∀ u : State, u.initialised = false → exec i u = .next (f u)) (hinit : (f s).initialised = s.initialised)
    (hcomm : ∀ q m, f (s.setPlane q m) = (f s).setPlane q m) (h : exec i s = .next t) : Unreached i s t := by
  intro q m
  rw [hf s h0] at h
  cases h
  rw [hf (s.setPlane q m) ((setPlane_initialised s q m).trans h0), hcomm, if_neg (by simp [hinit, h0])]

theorem whenInitialised_of_not_initialised {s : State} (h0 : s.initialised = false)
    (body : Host.Outcome State Fault Refusal) : s.whenInitialised body = .next (s.deliver .notInitialized) := by
  rw [State.whenInitialised, if_neg (by simp [h0])]

/-- The ten host operations of R301 turn away while INIT = 0, whatever their operands. -/
theorem exec_of_needsInit {i : Instr} {s : State} (hi : i.needsInit = true) (h0 : s.initialised = false) :
    exec i s = .next (s.deliver .notInitialized) := by
  cases i <;> first | exact whenInitialised_of_not_initialised h0 _ | cases hi

theorem exec_deinit_of_not_initialised {s : State} (h0 : s.initialised = false) : exec .deinit s = .next s.complete := by
  simp only [exec, execDeinit, if_neg (Bool.eq_false_iff.1 h0)]

theorem exec_cfgdef3_of_not_initialised {s : State} (h0 : s.initialised = false) :
    exec .cfgdef3 s = .next (State.complete { s with cfg := presetCfg .threeWire s.params.preset3 }) := by
  simp only [exec, execCfgdef3, if_neg (Bool.eq_false_iff.1 h0)]

theorem exec_cfgdef4_of_not_initialised {s : State} (h0 : s.initialised = false) :
    exec .cfgdef4 s = .next (State.complete { s with cfg := presetCfg .fourWire s.params.preset4 }) := by
  simp only [exec, execCfgdef4, if_neg (Bool.eq_false_iff.1 h0)]

/-- With INIT = 0 no instruction reaches a plane: it turns away, presets CFG, is INIT, or is a line of INIT (R36). -/
theorem exec_unreached {i : Instr} {s t : State} (h0 : s.initialised = false) (h : exec i s = .next t) : Unreached i s t := by
  by_cases hh : i.isHostOp = false
  · exact unreached_panel hh h0 h
  by_cases hn : i.needsInit = true
  · exact unreached_of_eq (·.deliver .notInitialized) h0 (fun _ => exec_of_needsInit hn) rfl
      (fun q m => deliver_setPlane q m s _) h
  cases i with
  | init => exact unreached_init h0 h
  | deinit =>
    exact unreached_of_eq State.complete h0 (fun _ => exec_deinit_of_not_initialised) rfl
      (fun q m => complete_setPlane q m s) h
  | cfgdef3 =>
    exact unreached_of_eq _ h0 (fun _ => exec_cfgdef3_of_not_initialised) rfl (fun q m => by cases q <;> rfl) h
  | cfgdef4 =>
    exact unreached_of_eq _ h0 (fun _ => exec_cfgdef4_of_not_initialised) rfl (fun q m => by cases q <;> rfl) h
  | _ => first | exact absurd rfl hh | exact absurd rfl hn

/-! ## Who writes a plane, who writes RDATA (R36, R40) -/

theorem Wrote.plane_eq {i : Instr} {s t : State} {q : Plane} (hq : i.writesPlane q = false) (h : Wrote i s t) :
    t.plane q = s.plane q := by
  cases h with
  | nothing h => exact h.plane q
  | setUp hi => simp [hi, Instr.writesPlane] at hq
  | gaveUp hi => simp [hi, Instr.writesPlane] at hq
  | preset _ _ ht => exact ht ▸ by cases q <;> rfl
  | drawn p hw m ht =>
    have hne : q ≠ p := by
      rintro rfl
      simp [hw] at hq
    rw [ht, complete_plane, setPlane_plane_other s p q m hne]
  | read _ _ _ _ ht => exact ht ▸ by cases q <;> rfl

theorem Wrote.rdata_of_ne {i : Instr} {s t : State} (hne : t.rdata ≠ s.rdata) (h : Wrote i s t) :
    t.status = .ok ∧ ∃ p x y, i = .rdpt p x y ∧ t.rdata = (s.plane p).readPixel x.toNat y.toNat := by
  cases h with
  | nothing h => exact absurd h.rdata hne
  | setUp _ _ u hu ht => exact absurd (ht ▸ hu.rdata) hne
  | gaveUp _ u hu ht =>
    refine absurd ?_ hne
    rw [ht, complete_rdata, finishDeinit_eq, hu.rdata]
  | preset _ _ ht => exact absurd (ht ▸ rfl) hne
  | drawn p _ m ht => exact absurd (by simp [ht]) hne
  | read p x y hi ht => exact ht ▸ ⟨rfl, p, x, y, hi, rfl⟩

/-- Settles O28: the writers are read off what an instruction can write, and with INIT = 0 every run commutes with a plane's
replacement. -/
theorem planesAndRdataHaveTheirWriters : Obligations.PlanesAndRdataHaveTheirWriters :=
  ⟨fun _ _ _ _ hq h => (exec_wrote h).plane_eq hq, fun _ _ _ q m h0 h => exec_unreached h0 h q m,
    fun _ _ _ h hne => (exec_wrote h).rdata_of_ne hne⟩

/-! ## The registers (R47) -/

/-- The low `n` bits of a register value, as a mask takes them. -/
theorem setWidth_extractLsb'_zero (n : Nat) (v k : Quad) (hk : k.toNat = 2 ^ n - 1) :
    (v.extractLsb' 0 n).setWidth 32 = v &&& k := by
  apply BitVec.eq_of_toNat_eq
  have hle : v.toNat % 2 ^ n ≤ v.toNat := Nat.mod_le _ _
  have hlt : v.toNat % 2 ^ n < 2 ^ 32 := by omega
  rw [BitVec.toNat_and, hk, Nat.and_two_pow_sub_one_eq_mod, BitVec.toNat_setWidth, BitVec.extractLsb'_toNat, Nat.shiftRight_zero,
    Nat.mod_eq_of_lt hlt]

@[simp] theorem wiringCode_wiringOfBit (b : Bit) : wiringCode (wiringOfBit b) = b := by
  rcases bit_cases b with rfl | rfl <;> rfl

/-- CFG_MODE's two bits side by side are the low two bits of what was written (R47). -/
theorem cfgMode_bits (v : Quad) :
    ((0 : BitVec 6) ++ v.extractLsb' 1 1 ++ v.extractLsb' 0 1 : BitVec 8).setWidth 32 = v &&& 3 := by
  have hpair : (v.extractLsb' 1 1 ++ v.extractLsb' 0 1 : BitVec 2) = v.extractLsb' 0 2 :=
    BitVec.extractLsb'_append_extractLsb'_eq_extractLsb' rfl
  have hzero : ∀ b : BitVec 2, ((0 : BitVec 6) ++ b : BitVec 8).setWidth 32 = b.setWidth 32 := by decide
  rw [BitVec.append_assoc, BitVec.cast_eq, ← setWidth_extractLsb'_zero 2 v 3 rfl, ← hpair, hzero]

/-- Every register but the one written reads as before: each CFG register has its own fields of CFG (R47). -/
theorem readReg_writeCfg_other (s : State) {r r' : HostReg} (v : Quad) (h : r' ≠ r) :
    State.readReg { s with cfg := writeCfg s.cfg r v } r' = s.readReg r' := by
  cases r <;> cases r' <;> first | rfl | exact absurd rfl h

/-- A CFG register reads what was written, cut to its width; a read-only one as before (R47; log 18). -/
theorem readReg_writeCfg_same (s : State) (r : HostReg) (v : Quad) :
    State.readReg { s with cfg := writeCfg s.cfg r v } r =
      match r with
      | .cfgMode => v &&& 3
      | .cfgClkHz => v
      | .cfgPinSdo | .cfgPinSck | .cfgPinCs | .cfgPinDc | .cfgPinRst | .cfgPinBusy => v &&& 0xFF
      | .status | .rdata | .state => s.readReg r := by
  have hpin : (v.extractLsb' 0 8).setWidth 32 = v &&& 0xFF := setWidth_extractLsb'_zero 8 v 0xFF rfl
  cases r with
  | cfgMode =>
    simp only [State.readReg, State.cfgModeRegister, writeCfg, wiringCode_wiringOfBit]
    exact cfgMode_bits v
  | cfgPinSdo => exact hpin
  | cfgPinSck => exact hpin
  | cfgPinCs => exact hpin
  | cfgPinDc => exact hpin
  | cfgPinRst => exact hpin
  | cfgPinBusy => exact hpin
  | cfgClkHz => rfl
  | status => rfl
  | rdata => rfl
  | state => rfl

/-- Settles O59: the step is the register write, and a register reads CFG's fields one by one. -/
theorem cfgRegistersHoldWhatIsWritten : Obligations.CfgRegistersHoldWhatIsWritten := by
  intro s r v ms hi hc hu hm
  have hstep : step s = .next { s with hostMoves := ms, cfg := writeCfg s.cfg r v } :=
    (step_of_hostMove hc hu hm).trans (congrArg Host.Outcome.next (writeReg_of_not_initialised r v hi))
  exact ⟨_, hstep, rfl, fun r' hne => readReg_writeCfg_other { s with hostMoves := ms } v hne,
    readReg_writeCfg_same { s with hostMoves := ms } r v⟩

/-- The low part of a concatenation is its second word. -/
theorem extractLsb'_append_low {v w : Nat} (hi : BitVec v) (lo : BitVec w) : (hi ++ lo).extractLsb' 0 w = lo :=
  (BitVec.extractLsb'_append_eq_of_add_le (Nat.zero_add w).le).trans BitVec.extractLsb'_eq_self

/-- Behind the second word of a concatenation stands the first. -/
theorem extractLsb'_append_high {v w : Nat} {hi : BitVec v} {lo : BitVec w} (k len : Nat) :
    (hi ++ lo).extractLsb' (w + k) len = hi.extractLsb' k len := by
  rw [BitVec.extractLsb'_append_eq_of_le (Nat.le_add_right w k), Nat.add_sub_cancel_left]

/-- The fields of the STATE register, each at its place (R47). -/
theorem stateRegister_fields (s : State) :
    s.stateRegister.extractLsb' 0 1 = BitVec.ofBool s.initialised ∧ s.stateRegister.extractLsb' 1 2 = seqCode s.seq ∧
      s.stateRegister.extractLsb' 3 1 = s.tsModeBit ∧ s.stateRegister.extractLsb' 4 1 = s.pin.cs ∧
      s.stateRegister.extractLsb' 5 1 = s.pin.dc ∧ s.stateRegister.extractLsb' 6 1 = s.pin.rst ∧
      s.stateRegister.extractLsb' 7 1 = 0 := by
  have aboveInit (k len : Nat) := extractLsb'_append_high (hi := (0 : Bit) ++ s.pin.rst ++ s.pin.dc ++ s.pin.cs ++ s.tsModeBit
    ++ seqCode s.seq) (lo := BitVec.ofBool s.initialised) k len
  have aboveSeq (k len : Nat) := (aboveInit (2 + k) len).trans (extractLsb'_append_high k len)
  have aboveMode (k len : Nat) := (aboveSeq (1 + k) len).trans (extractLsb'_append_high k len)
  have aboveCs (k len : Nat) := (aboveMode (1 + k) len).trans (extractLsb'_append_high k len)
  have aboveDc (k len : Nat) := (aboveCs (1 + k) len).trans (extractLsb'_append_high k len)
  have aboveRst (k len : Nat) := (aboveDc (1 + k) len).trans (extractLsb'_append_high k len)
  exact ⟨extractLsb'_append_low _ _, (aboveInit 0 2).trans (extractLsb'_append_low _ _),
    (aboveSeq 0 1).trans (extractLsb'_append_low _ _), (aboveMode 0 1).trans (extractLsb'_append_low _ _),
    (aboveCs 0 1).trans (extractLsb'_append_low _ _), (aboveDc 0 1).trans (extractLsb'_append_low _ _),
    (aboveRst 0 1).trans BitVec.extractLsb'_eq_self⟩

/-- A bit is the low bit of the one-bit field that stands there. -/
theorem getLsbD_eq_of_extractLsb' {w k : Nat} {x : BitVec w} {b : Bit} (h : x.extractLsb' k 1 = b) :
    x.getLsbD k = b.getLsbD 0 := by
  rw [← h, BitVec.getLsbD_extractLsb']
  simp

theorem tsModeBit_of_some {s : State} {u : Transport} (h : s.ts = some u) : s.tsModeBit = u.mode := by
  simp only [State.tsModeBit, h]

/-- Settles O58: the register's fields at their places, with the numbers of SEQ and STATUS case by case. -/
theorem stateAndStatusRegistersRead : Obligations.StateAndStatusRegistersRead := by
  refine ⟨fun s => ?_, fun s => ⟨rfl, rfl, ?_⟩⟩
  · obtain ⟨hinit, hseq, hmode, hcs, hdc, hrst, hzero⟩ := stateRegister_fields s
    refine ⟨?_, hseq.trans ?_, fun u hu => hmode.trans (tsModeBit_of_some hu), hcs, hdc, hrst, getLsbD_eq_of_extractLsb' hzero⟩
    · rw [getLsbD_eq_of_extractLsb' hinit]
      cases s.initialised <;> rfl
    · cases s.seq <;> rfl
  · rw [State.readReg]
    cases s.status <;> rfl

/-! ## The host's moves (R43, R47, R76, R341) -/

/-- A byte the host writes below HBUF_SIZE is there, and no other changes (R76). -/
theorem hbuf_write {size a : Nat} {hb : Mem} (hw : hb.wf size) (ha : a < size) (v : Byte) :
    (hb.write a v).wf size ∧ ∀ b, (hb.write a v).read b = if b = a then v else hb.read b := by
  refine ⟨write_wf hw ha v, fun b => ?_⟩
  by_cases hb : b = a
  · rw [if_pos hb, hb, read_write_same hw]
  · rw [if_neg hb, read_write_other hb]

/-- Settles O60: with nothing latched and nothing under way the step is the host's move, and each move says what it does. -/
theorem hostMovesAtThePort : Obligations.HostMovesAtThePort := by
  intro s ms hc hu
  refine ⟨fun w hm => step_of_hostMove hc hu hm, fun r hm => ⟨_, step_of_hostMove hc hu hm, rfl⟩, fun a v hm ha hw => ?_,
    fun a v hm ha => ?_, fun hm => step_of_hostMove hc hu hm,
    fun hm => ⟨_, step_of_hostMove hc hu hm, rfl, rfl, rfl, rfl, rfl, rfl, rfl, rfl⟩, step_of_noMove hc hu⟩
  · refine ⟨{ s with hostMoves := ms, hbuf := s.hbuf.write a v }, ?_, rfl, hbuf_write hw ha v⟩
    rw [step_of_hostMove hc hu hm, hostMove, if_pos ha]
  · rw [step_of_hostMove hc hu hm, hostMove, if_neg (Nat.not_lt.2 ha)]

end Sys2Proof.Machine
end

section
/-! The memories (20_memory.md): the write transform is a bijection onto a plane's bits, an operation on one plane is blind to the
other, and a read of HBUF at or beyond HBUF_SIZE is refused. -/

namespace Sys2Proof.Machine

open Sys2Proof

/-! ## The write transform (R81) -/

/-- A pixel determines its bit: clear is on (R19, R35). -/
theorem bit_of_pixelOfBit {b : Bool} {v : Bit} (h : pixelOfBit b = v) : b = decide (v = 0) := by
  subst h
  cases b <;> rfl

/-- The polarity of a pixel write: on leaves the pixel's bit clear, off leaves it set (R81, R210). -/
theorem bit_writePixel_same {m : Mem} (h : m.wf 5000) (x y : Nat) (v : Bit) :
    ((m.writePixel x y v).read (wbyte x y)).getLsbD (wbit x) = decide (v = 0) :=
  bit_of_pixelOfBit (pixel_writePixel_same h x y v)

/-- Settles O22: every bit has a pixel, two pixels with one address are one, and a write leaves the pixel as its bit says. -/
theorem writeTransformIsABijection : Obligations.WriteTransformIsABijection := by
  refine ⟨fun x y hx hy => ⟨rfl, wbyte_lt hx hy, rfl⟩, fun a b ha hb => ?_,
    fun m x y hm _ _ => ⟨bit_writePixel_same hm x y 1, bit_writePixel_same hm x y 0⟩⟩
  obtain ⟨x, y, hx, hy, hbyte, hbit⟩ := exists_pixel_of_bit ha hb
  exact ⟨x, y, hx, hy, hbyte, hbit, fun x' y' hx' hy' hbyte' hbit' =>
    pixel_address_inj hx' hy' hx hy (hbyte'.trans hbyte.symm) (hbit'.trans hbit.symm)⟩

/-! ## One plane at a time (R71) -/

/-- An outcome with plane `q` replaced in the state it leaves. -/
def outcomeSetPlane (q : Plane) (m : Mem) : Host.Outcome State Fault Refusal → Host.Outcome State Fault Refusal
  | .next t => .next (t.setPlane q m)
  | .fault e => .fault e
  | .refused e => .refused e

/-- Replacing plane `q` beforehand replaces it in the outcome and does nothing else. -/
def BlindTo (q : Plane) (f : State → Host.Outcome State Fault Refusal) : Prop :=
  ∀ s m, f (s.setPlane q m) = outcomeSetPlane q m (f s)

/-- A check that does not look at plane `q`, between two outcomes. -/
theorem ite_outcomeSetPlane (q : Plane) (m : Mem) (c : Prop) [Decidable c]
    {a b a' b' : Host.Outcome State Fault Refusal} (ha : a' = outcomeSetPlane q m a) (hb : b' = outcomeSetPlane q m b) :
    (if c then a' else b') = outcomeSetPlane q m (if c then a else b) := by
  rw [apply_ite (outcomeSetPlane q m), ha, hb]

theorem deliver_outcomeSetPlane (q : Plane) (m : Mem) (s : State) (e : Status) :
    (.next ((s.setPlane q m).deliver e) : Host.Outcome State Fault Refusal) = outcomeSetPlane q m (.next (s.deliver e)) :=
  congrArg Host.Outcome.next (deliver_setPlane q m s e)

/-- The check of INIT looks at neither plane. -/
theorem blindTo_whenInitialised {q : Plane} {body : State → Host.Outcome State Fault Refusal} (h : BlindTo q body) :
    BlindTo q fun s => s.whenInitialised (body s) := fun s m => by
  simp only [State.whenInitialised, setPlane_initialised]
  exact ite_outcomeSetPlane q m _ (h s m) (deliver_outcomeSetPlane q m s _)

/-- What a drawing operation ends with: its own plane replaced, whatever the other holds. -/
theorem drawn_outcomeSetPlane {p q : Plane} (hq : q ≠ p) (m n : Mem) (s : State) :
    (.next ((s.setPlane q m).setPlane p n).complete : Host.Outcome State Fault Refusal)
      = outcomeSetPlane q m (.next (s.setPlane p n).complete) := by
  rw [setPlane_comm s q p m n hq.symm, complete_setPlane]
  rfl

theorem setSeq_setPlane (q : Plane) (m : Mem) (s : State) (k : Seq) :
    (s.setPlane q m).setSeq k = (s.setSeq k).setPlane q m := by cases q <;> rfl

theorem endState_setPlane (q : Plane) (m : Mem) (x : Micro) : (x.setPlane q m).endState = x.endState.setPlane q m := by
  cases x with
  | done s => exact complete_setPlane q m s
  | raised e s => exact deliver_setPlane q m s e

theorem thenIdle_setPlane (q : Plane) (m : Mem) (x : Micro) : thenIdle (x.setPlane q m) = (thenIdle x).setPlane q m :=
  andThen_setPlane q m fun s => by rw [setSeq_setPlane, done_setPlane]

/-- A push sends its own plane's bytes only (R232). -/
theorem push_setPlane {p q : Plane} (hq : q ≠ p) (m : Mem) (s : State) :
    push p (s.setPlane q m) = (push p s).setPlane q m := by
  rw [push, push, setPlane_params, setPlane_plane_other s q p m hq.symm, setSeq_setPlane, sendAll_setPlane]

section Blind

variable {p q : Plane}

theorem execClear_blind (hq : q ≠ p) : BlindTo q (execClear p) :=
  blindTo_whenInitialised fun s m => drawn_outcomeSetPlane hq m _ s

theorem execWrbuf_blind (hq : q ≠ p) : BlindTo q (execWrbuf p) :=
  blindTo_whenInitialised fun s m => by
    rw [push_setPlane hq, thenIdle_setPlane, endState_setPlane]
    rfl

theorem execWrpt_blind (hq : q ≠ p) (x y : Half) (v : Bit) : BlindTo q (execWrpt p x y v) :=
  blindTo_whenInitialised fun s m => by
    rw [setPlane_plane_other s q p m hq.symm]
    exact ite_outcomeSetPlane q m _ (drawn_outcomeSetPlane hq m _ s) (deliver_outcomeSetPlane q m s _)

theorem execRdpt_blind (hq : q ≠ p) (x y : Half) : BlindTo q (execRdpt p x y) :=
  blindTo_whenInitialised fun s m => by
    rw [setPlane_plane_other s q p m hq.symm]
    exact ite_outcomeSetPlane q m _ (by cases q <;> rfl) (deliver_outcomeSetPlane q m s _)

theorem execFillrect_blind (hq : q ≠ p) (l t r b : Half) (v : Bit) : BlindTo q (execFillrect p l t r b v) :=
  blindTo_whenInitialised fun s m => by
    rw [setPlane_plane_other s q p m hq.symm]
    exact ite_outcomeSetPlane q m _ (drawn_outcomeSetPlane hq m _ s) (deliver_outcomeSetPlane q m s _)

theorem execDrawpic_blind (hq : q ≠ p) (l t r b ptr : Half) : BlindTo q (execDrawpic p l t r b ptr) :=
  blindTo_whenInitialised fun s m => by
    rw [setPlane_plane_other s q p m hq.symm, setPlane_params, setPlane_hbuf]
    exact ite_outcomeSetPlane q m _ (ite_outcomeSetPlane q m _ (drawn_outcomeSetPlane hq m _ s) rfl)
      (deliver_outcomeSetPlane q m s _)

theorem execDrawstr_blind (hq : q ≠ p) (x y ptr len : Half) (v : Bit) (fs : Half) :
    BlindTo q (execDrawstr p x y ptr len v fs) :=
  blindTo_whenInitialised fun s m => by
    rw [setPlane_plane_other s q p m hq.symm, setPlane_params, setPlane_hbuf]
    refine ite_outcomeSetPlane q m _ ?_ (deliver_outcomeSetPlane q m s _)
    cases textDots s.params s.hbuf fs.toNat v len.toNat ptr.toNat x.toNat y.toNat with
    | some dots => exact drawn_outcomeSetPlane hq m _ s
    | none => rfl

/-- An operation on plane `p` is blind to the other (R71). -/
theorem exec_blind {i : Instr} (hi : i.planeOperand = some p) (hq : q ≠ p) : BlindTo q (exec i) := by
  cases i with
  | clear _ => cases hi; exact execClear_blind hq
  | wrbuf _ => cases hi; exact execWrbuf_blind hq
  | wrpt _ x y v => cases hi; exact execWrpt_blind hq x y v
  | rdpt _ x y => cases hi; exact execRdpt_blind hq x y
  | fillrect _ l t r b v => cases hi; exact execFillrect_blind hq l t r b v
  | drawpic _ l t r b ptr => cases hi; exact execDrawpic_blind hq l t r b ptr
  | drawstr _ x y ptr len v fs => cases hi; exact execDrawstr_blind hq x y ptr len v fs
  | _ => cases hi

end Blind

/-- Settles O29: each of the seven operations is blind to the other plane, whether it answers, turns away or refuses. -/
theorem planeOperandIsolatesTheOtherPlane : Obligations.PlaneOperandIsolatesTheOtherPlane := by
  intro i s t p q m hi hq h
  rw [exec_blind hi hq s m, h]
  rfl

/-! ## HBUF's end (R76, U3) -/

theorem whenInitialised_of_initialised {s : State} (hi : s.initialised = true) (body : Host.Outcome State Fault Refusal) :
    s.whenInitialised body = body := if_pos hi

/-- A DRAWPIC with accepted arguments whose bitmap ends beyond HBUF_SIZE (R264, U3). -/
theorem execDrawpic_overrun {s : State} (p : Plane) {l t r b ptr : Half} (hi : s.initialised = true)
    (hptr : ptr ≠ Config.nullPtr) (hrect : goodRect l t r b = true)
    (hend : s.params.hbufSize < ptr.toNat + bitmapBytes l.toNat t.toNat r.toNat b.toNat) :
    execDrawpic p l t r b ptr s = .refused .hbufOverrun := by
  rw [execDrawpic, whenInitialised_of_initialised hi, if_pos ⟨hptr, hrect⟩, if_neg (Nat.not_le.2 hend)]

/-- A DRAWSTR with accepted arguments whose layout asks for a character beyond HBUF_SIZE (R268, U3). -/
theorem execDrawstr_overrun {s : State} (p : Plane) {x y ptr len fs : Half} {v : Bit} (hi : s.initialised = true)
    (hargs : ptr ≠ Config.nullPtr ∧ fs ≠ 0 ∧ inPanel x y = true)
    (hdots : textDots s.params s.hbuf fs.toNat v len.toNat ptr.toNat x.toNat y.toNat = none) :
    execDrawstr p x y ptr len v fs s = .refused .hbufOverrun := by
  rw [execDrawstr, whenInitialised_of_initialised hi, if_pos hargs, hdots]

/-- Settles O34: the bitmap's end and the layout's reach are what the two operations check against HBUF_SIZE. -/
theorem hbufOverrunIsRefused : Obligations.HbufOverrunIsRefused :=
  ⟨fun _ p l t r b _ hi hptr hlr htb hr hb hend =>
      execDrawpic_overrun p hi hptr ((goodRect_iff l t r b).2 ⟨hlr, htb, hr, hb⟩) hend,
    fun s p x y ptr len v fs hi hptr hfs hx hy hreach =>
      execDrawstr_overrun p hi ⟨hptr, hfs, (inPanel_iff x y).2 ⟨hx, hy⟩⟩
        (text_overrun s.params s.hbuf fs.toNat v len.toNat ptr.toNat x.toNat y.toNat hreach)⟩

end Sys2Proof.Machine
end

section
/-! Encoding (30_encoding.md): which operation a descriptor's fields name, with which operands; words and instructions stand
for each other; what is no operation is turned away. -/

namespace Sys2Proof

/-! ## An operation for each code (R100, R101) -/

section Operations

variable {f : Fields} {q : Plane}

theorem instrOfFields_init (h : f.op = 0x81) : instrOfFields f = .ok .init := by simp [instrOfFields, h]
theorem instrOfFields_deinit (h : f.op = 0x82) : instrOfFields f = .ok .deinit := by simp [instrOfFields, h]
theorem instrOfFields_cfgdef3 (h : f.op = 0x83) : instrOfFields f = .ok .cfgdef3 := by simp [instrOfFields, h]
theorem instrOfFields_cfgdef4 (h : f.op = 0x84) : instrOfFields f = .ok .cfgdef4 := by simp [instrOfFields, h]
theorem instrOfFields_clear (h : f.op = 0x90) (hq : planeOfBit f.plane = q) : instrOfFields f = .ok (.clear q) := by
  simp [instrOfFields, h, hq]
theorem instrOfFields_wrbuf (h : f.op = 0x91) (hq : planeOfBit f.plane = q) : instrOfFields f = .ok (.wrbuf q) := by
  simp [instrOfFields, h, hq]
theorem instrOfFields_wrpt (h : f.op = 0x92) (hq : planeOfBit f.plane = q) :
    instrOfFields f = .ok (.wrpt q f.a f.b f.value) := by simp [instrOfFields, h, hq]
theorem instrOfFields_rdpt (h : f.op = 0x93) (hq : planeOfBit f.plane = q) :
    instrOfFields f = .ok (.rdpt q f.a f.b) := by simp [instrOfFields, h, hq]
theorem instrOfFields_fillrect (h : f.op = 0x94) (hq : planeOfBit f.plane = q) :
    instrOfFields f = .ok (.fillrect q f.a f.b f.c f.d f.value) := by simp [instrOfFields, h, hq]
theorem instrOfFields_drawpic (h : f.op = 0x95) (hq : planeOfBit f.plane = q) :
    instrOfFields f = .ok (.drawpic q f.a f.b f.c f.d f.ptr) := by simp [instrOfFields, h, hq]
theorem instrOfFields_drawstr (h : f.op = 0x96) (hq : planeOfBit f.plane = q) :
    instrOfFields f = .ok (.drawstr q f.a f.b f.ptr f.e f.value f.c) := by simp [instrOfFields, h, hq]
theorem instrOfFields_softstart (h : f.op = 0xA0) : instrOfFields f = .ok (.softstart f.a f.b f.c) := by
  simp [instrOfFields, h]
theorem instrOfFields_update (h : f.op = 0xA1) : instrOfFields f = .ok (.update f.a) := by simp [instrOfFields, h]
theorem instrOfFields_wrupd (h : f.op = 0xA2) : instrOfFields f = .ok (.wrupd f.a) := by simp [instrOfFields, h]

end Operations

/-! ## Decoding an encoded instruction (R100, R101, R109; log 2) -/

theorem decode_hostWord (p : Params) {f : Fields} {i : Instr} (hlow : f.reservedLow = 0) (hhigh : f.reservedHigh = 0)
    (h : instrOfFields f = .ok i) : decode p (hostWord f) = .ok i := by
  rw [hostWord, decode, decodeDescriptor, fieldsOfWord_wordOfFields]
  exact (if_pos ⟨hlow, hhigh⟩).trans h

theorem decode_panelWord {p : Params} (hd : p.opcodesDistinct = true) (k : PanelOp) (a b : Half) :
    decode p (panelWord p k a b) = instrOfPanel k a b := by
  simp only [panelWord, decode, decodePanel, panelFieldsOfWord_wordOfPanelFields, panelOpOfByte_opcode hd, ne_eq,
    not_true_eq_false, if_false]

/-- A host operation's descriptor has its reserved bits zero and its operands in their fields, whatever the parameters. -/
theorem decode_encode_hostOp (p : Params) {i : Instr} (hi : i.isHostOp = true) : decode p (encode p i) = .ok i := by
  have plane := planeOfBit_bitOfPlane
  cases i with
  | init => exact decode_hostWord p rfl rfl (instrOfFields_init rfl)
  | deinit => exact decode_hostWord p rfl rfl (instrOfFields_deinit rfl)
  | cfgdef3 => exact decode_hostWord p rfl rfl (instrOfFields_cfgdef3 rfl)
  | cfgdef4 => exact decode_hostWord p rfl rfl (instrOfFields_cfgdef4 rfl)
  | clear q => exact decode_hostWord p rfl rfl (instrOfFields_clear rfl (plane q))
  | wrbuf q => exact decode_hostWord p rfl rfl (instrOfFields_wrbuf rfl (plane q))
  | wrpt q x y v => exact decode_hostWord p rfl rfl (instrOfFields_wrpt rfl (plane q))
  | rdpt q x y => exact decode_hostWord p rfl rfl (instrOfFields_rdpt rfl (plane q))
  | fillrect q l t r b v => exact decode_hostWord p rfl rfl (instrOfFields_fillrect rfl (plane q))
  | drawpic q l t r b ptr => exact decode_hostWord p rfl rfl (instrOfFields_drawpic rfl (plane q))
  | drawstr q x y ptr len v fs => exact decode_hostWord p rfl rfl (instrOfFields_drawstr rfl (plane q))
  | softstart st ti mo => exact decode_hostWord p rfl rfl (instrOfFields_softstart rfl)
  | update t => exact decode_hostWord p rfl rfl (instrOfFields_update rfl)
  | wrupd t => exact decode_hostWord p rfl rfl (instrOfFields_wrupd rfl)
  | _ => cases hi

/-- A panel word's opcode byte finds the command (R9), and its operand fields are the command's. -/
theorem decode_encode_panel {p : Params} (hd : p.opcodesDistinct = true) {i : Instr} (hi : i.isHostOp = false) :
    decode p (encode p i) = .ok i := by
  cases i with
  | pWrbw q => cases q <;> exact decode_panelWord hd _ _ _
  | pUc2 w => cases w <;> exact decode_panelWord hd _ _ _
  | pSoftst s0 s1 s2 s3 =>
    rw [encode, decode_panelWord hd, instrOfPanel, append_lowByte, append_highByte, append_lowByte, append_highByte]
  | pSwreset | pDrvout | pEntry | pXrange | pYrange | pBorder | pTemp | pXcnt | pYcnt | pWrred | pUc1 | pAct | pSleep =>
    exact decode_panelWord hd _ _ _
  | _ => cases hi

/-- Settles O1: a descriptor or a panel word put together is cut into the same fields, and these name the instruction. -/
theorem decodeOfEncode : Obligations.DecodeOfEncode := by
  intro p i hd
  cases hi : i.isHostOp with
  | true => exact decode_encode_hostOp p hi
  | false => exact decode_encode_panel hd hi

/-! ## Decoding by mask (R103, R104) -/

theorem decodeDescriptor_of_mask {w : BitVec 128} {op : Byte} (h : w &&& decodeMask = op.setWidth 128) :
    decodeDescriptor w = instrOfFields (fieldsOfWord w) := by
  obtain ⟨-, hlow, hhigh⟩ := (mask_iff w op).1 h
  exact if_pos ⟨hlow, hhigh⟩

/-- A decoded operation's code is one of the fourteen, and it is what the mask selects. -/
theorem mask_of_decodeDescriptor {w : BitVec 128} {i : Instr} (h : decodeDescriptor w = .ok i) :
    ∃ op ∈ opCodes, i.opCode = some op ∧ w &&& decodeMask = op.setWidth 128 := by
  simp only [decodeDescriptor] at h
  split at h
  · next hreserved =>
    obtain ⟨hop, hmem⟩ := instrOfFields_opCode h
    exact ⟨_, hmem, hop, (mask_iff w _).2 ⟨rfl, hreserved⟩⟩
  · cases h

/-- Settles O2: the mask selects `OP` and the reserved fields, and each of the fourteen codes is an operation. -/
theorem descriptorDecodesIffMaskGivesOp : Obligations.DescriptorDecodesIffMaskGivesOp := by
  refine ⟨fun w op hop => ⟨fun h => ?_, fun ⟨i, hi, hcode⟩ => ?_⟩, fun w i h => ?_, by decide, by decide⟩
  · have hfield := ((mask_iff w op).1 h).1
    obtain ⟨i, hi⟩ := instrOfFields_of_mem (hfield ▸ hop)
    exact ⟨i, (decodeDescriptor_of_mask h).trans hi, hfield ▸ (instrOfFields_opCode hi).1⟩
  · obtain ⟨op', -, hcode', hmask⟩ := mask_of_decodeDescriptor hi
    cases hcode.symm.trans hcode'
    exact hmask
  · obtain ⟨op, hmem, hcode, -⟩ := mask_of_decodeDescriptor h
    exact ⟨op, hmem, hcode⟩

/-! ## The fields of a descriptor as bits of its number (R101, R84 item 6) -/

theorem extractLsb'_eq_ofNat_div {n : Nat} (w : BitVec n) (lo len : Nat) :
    w.extractLsb' lo len = BitVec.ofNat len (w.toNat / 2 ^ lo) := by
  rw [BitVec.extractLsb', Nat.shiftRight_eq_div_pow]

theorem extractLsb'_one {n : Nat} (w : BitVec n) (k : Nat) : w.extractLsb' k 1 = BitVec.ofBool (w.getLsbD k) := by
  apply BitVec.eq_of_getLsbD_eq
  intro i hi
  obtain rfl : i = 0 := by omega
  simp

theorem planeOfBit_ofBool (b : Bool) : planeOfBit (BitVec.ofBool b) = if b then .red else .black := by cases b <;> rfl

/-- The fields of R101, each written as bits of the word's number. -/
def fieldsByNumber (w : BitVec 128) : Fields where
  op := BitVec.ofNat 8 (w.toNat / 2 ^ 0)
  plane := BitVec.ofBool (w.getLsbD 8)
  value := BitVec.ofBool (w.getLsbD 9)
  reservedLow := BitVec.ofNat 6 (w.toNat / 2 ^ 10)
  a := BitVec.ofNat 16 (w.toNat / 2 ^ 16)
  b := BitVec.ofNat 16 (w.toNat / 2 ^ 32)
  c := BitVec.ofNat 16 (w.toNat / 2 ^ 48)
  d := BitVec.ofNat 16 (w.toNat / 2 ^ 64)
  e := BitVec.ofNat 16 (w.toNat / 2 ^ 80)
  ptr := BitVec.ofNat 16 (w.toNat / 2 ^ 96)
  reservedHigh := BitVec.ofNat 16 (w.toNat / 2 ^ 112)

theorem fieldsOfWord_eq_fieldsByNumber (w : BitVec 128) : fieldsOfWord w = fieldsByNumber w := by
  simp only [fieldsOfWord, fieldsByNumber, extractLsb'_one]
  simp only [extractLsb'_eq_ofNat_div]

/-- What the mask gives decides the operation; its operands are to be looked for in the word's number. -/
theorem decodeDescriptor_byNumber {w : BitVec 128} (op : Byte) {i : Instr} (h : w &&& decodeMask = op.setWidth 128)
    (hi : (fieldsByNumber w).op = op → instrOfFields (fieldsByNumber w) = .ok i) : decodeDescriptor w = .ok i := by
  have hop := ((mask_iff w op).1 h).1
  rw [decodeDescriptor_of_mask h]
  rw [fieldsOfWord_eq_fieldsByNumber] at hop ⊢
  exact hi hop

theorem natOfBytes_append (bs cs : List Byte) :
    natOfBytes (bs ++ cs) = natOfBytes bs + 256 ^ bs.length * natOfBytes cs := by
  induction bs with
  | nil => simp [natOfBytes]
  | cons b bs ih => simp only [List.cons_append, natOfBytes, ih, List.length_cons]; ring

/-- The first `n` bytes of a word, low byte first, are its number below `256 ^ n`. -/
theorem natOfBytes_extract {k : Nat} (w : BitVec k) (n : Nat) :
    natOfBytes ((List.range n).map fun j => w.extractLsb' (8 * j) 8) = w.toNat % 256 ^ n := by
  induction n with
  | zero => simp [natOfBytes, Nat.mod_one]
  | succ n ih =>
    rw [List.range_succ, List.map_append, natOfBytes_append, ih, List.length_map, List.length_range]
    have hbyte : natOfBytes [w.extractLsb' (8 * n) 8] = w.toNat / 256 ^ n % 256 := by
      simp [natOfBytes, Nat.shiftRight_eq_div_pow, Nat.pow_mul]
    rw [List.map_singleton, hbyte, Nat.pow_succ, Nat.mod_mul]

theorem bytesOfDescriptor_length (w : BitVec 128) : (bytesOfDescriptor w).length = 16 := by simp [bytesOfDescriptor]

theorem decodeBytes_bytesOfDescriptor (w : BitVec 128) : decodeBytes (bytesOfDescriptor w) = decodeDescriptor w := by
  have hnum : natOfBytes (bytesOfDescriptor w) = w.toNat :=
    (natOfBytes_extract w 16).trans (Nat.mod_eq_of_lt w.isLt)
  rw [decodeBytes, if_pos (bytesOfDescriptor_length w), hnum, BitVec.ofNat_toNat, BitVec.setWidth_eq]

/-- Settles O3: the mask fixes the operation, and each operand of it is a field at its place in the word's number. -/
theorem operandsComeFromTheirFields : Obligations.OperandsComeFromTheirFields := by
  intro w
  have plane := planeOfBit_ofBool (w.getLsbD 8)
  exact ⟨fun h => decodeDescriptor_byNumber 0x81 h instrOfFields_init,
    fun h => decodeDescriptor_byNumber 0x82 h instrOfFields_deinit,
    fun h => decodeDescriptor_byNumber 0x83 h instrOfFields_cfgdef3,
    fun h => decodeDescriptor_byNumber 0x84 h instrOfFields_cfgdef4,
    fun h => decodeDescriptor_byNumber 0x90 h (instrOfFields_clear · plane),
    fun h => decodeDescriptor_byNumber 0x91 h (instrOfFields_wrbuf · plane),
    fun h => decodeDescriptor_byNumber 0x92 h (instrOfFields_wrpt · plane),
    fun h => decodeDescriptor_byNumber 0x93 h (instrOfFields_rdpt · plane),
    fun h => decodeDescriptor_byNumber 0x94 h (instrOfFields_fillrect · plane),
    fun h => decodeDescriptor_byNumber 0x95 h (instrOfFields_drawpic · plane),
    fun h => decodeDescriptor_byNumber 0x96 h (instrOfFields_drawstr · plane),
    fun h => decodeDescriptor_byNumber 0xA0 h instrOfFields_softstart,
    fun h => decodeDescriptor_byNumber 0xA1 h instrOfFields_update,
    fun h => decodeDescriptor_byNumber 0xA2 h instrOfFields_wrupd,
    bytesOfDescriptor_length w, decodeBytes_bytesOfDescriptor w⟩

/-- Settles O4: the words are closed, so the decoder evaluates on each. -/
theorem writtenOutWordsDecode : Obligations.WrittenOutWordsDecode :=
  ⟨by decide, by decide, by decide, by decide, by decide, by decide, by decide, by decide, by decide⟩

end Sys2Proof

namespace Sys2Proof.Machine

open Sys2Proof

/-! ## A descriptor that names no operation (R103) -/

theorem step_of_unnamed {s : State} {w : CmdWord} (hc : s.cmd = some w) (ha : s.accepts w = true)
    (hf : fetch s.params w = none) : step s = .next ((s.enter w).turnAway w) := by
  simp only [step, hc, if_pos ha, hf]

/-- Where the mask gives none of the fourteen codes nothing is fetched, whatever the parameters (R104). -/
theorem fetch_descriptor_of_mask {w : BitVec 128} (p : Params) (h : ∀ op ∈ opCodes, w &&& decodeMask ≠ op.setWidth 128) :
    fetch p (.descriptor w) = none := by
  cases hd : decodeDescriptor w with
  | ok i =>
    obtain ⟨op, hmem, -, hmask⟩ := mask_of_decodeDescriptor hd
    exact absurd hmask (h op hmem)
  | error e => simp only [fetch, decode, hd]

/-- Settles O5: nothing is fetched, so the step is the delivery of InvalidArgument to the state that has taken the latch. -/
theorem illegalDescriptorRaisesInvalidArgument : Obligations.IllegalDescriptorRaisesInvalidArgument := by
  intro s w hc hseq hunder hmask
  have hstep := step_of_unnamed hc ((accepts_descriptor_iff s w).2 ⟨hseq, hunder⟩) (fetch_descriptor_of_mask s.params hmask)
  exact ⟨_, hstep, rfl, rfl, rfl, rfl, rfl, rfl, rfl, rfl, hseq.symm, rfl, rfl, rfl, rfl, hunder⟩

end Sys2Proof.Machine
end

section
/-! What goes out on the wire (30_encoding.md R105, R108, R109): the events an instruction adds fit the wiring, its command
frames are its own, a panel command stands in its place and sends the bytes R109 gives it. -/

namespace Sys2Proof.Machine

open Sys2Proof

/-! ## What an instruction adds to the trace -/

/-- From `s` to `t` the trace grew by events that fit the wiring of `s` and show command frames of these panel commands
alone. -/
def Emits (ks : List PanelOp) (s t : State) : Prop :=
  ∃ es os, t.tr = s.tr ++ es ∧ Shows es os ∧ CommandsAre s.params ks os ∧ ∀ e ∈ es, eventFits s.cfg.wiring e = true

theorem emits_of_tr_eq {ks : List PanelOp} {s t : State} (h : t.tr = s.tr) : Emits ks s t :=
  ⟨[], [], by simp [h], shows_nil, commandsAre_nil _ _, by simp⟩

theorem Emits.trans {ks : List PanelOp} {s t u : State} (h : Emits ks s t) (hp : t.params = s.params) (hc : t.cfg = s.cfg)
    (k : Emits ks t u) : Emits ks s u := by
  obtain ⟨es, os, htr, hshow, hcmd, hfit⟩ := h
  obtain ⟨fs, ps, ktr, kshow, kcmd, kfit⟩ := k
  rw [hp] at kcmd
  rw [hc] at kfit
  refine ⟨es ++ fs, os ++ ps, by rw [ktr, htr, List.append_assoc], hshow.append kshow, hcmd.append kcmd, fun e he => ?_⟩
  exact (List.mem_append.1 he).elim (hfit e) (kfit e)

theorem Emits.congr_tr {ks : List PanelOp} {s t u : State} (h : Emits ks s t) (htr : u.tr = t.tr) : Emits ks s u := by
  rwa [Emits, htr]

/-- Events that show no transaction show no command frame. -/
theorem commandsAre_of_no_txn {p : Params} {ks : List PanelOp} {os : List Obs} (h : ∀ fs, Obs.txn fs ∉ os) :
    CommandsAre p ks os := fun fs hm => absurd hm (h fs)

theorem Ran.emits {ks : List PanelOp} {s t : State} (h : Ran ks s t) : Emits ks s t := by
  obtain ⟨es, os, htr, hshow, hcmd, -, hfit, -⟩ := h.trace
  exact ⟨es, os, htr, hshow, hcmd, hfit⟩

/-- T_OPEN and the hardware pulse drive CS and RST and no frame (R152, R170). -/
theorem emits_rstPulse_opened (ks : List PanelOp) (s : State) : Emits ks s (rstPulse (opened s)) :=
  ⟨[.busInit s.cfg.bus s.cfg.clkHz s.achievedRate, .pinSet .cs 1, .pinSet .rst 1, .delay .rst, .pinSet .rst 0, .delay .rst,
      .pinSet .rst 1, .delay .rst],
    .busInit s.cfg.bus s.cfg.clkHz s.achievedRate :: .csHigh :: rstObs,
    by rw [rstPulse_eq, opened_eq, List.append_assoc]; rfl, fun dc => ⟨dc, fun _ => rfl⟩,
    commandsAre_of_no_txn (by simp [rstObs]), by simp [eventFits]⟩

theorem Ran.emits_of_rstPulse_opened {ks : List PanelOp} {s u : State} (h : Ran ks (rstPulse (opened s)) u) : Emits ks s u :=
  (emits_rstPulse_opened ks s).trans (by simp) (by rw [rstPulse_eq, opened_eq]) h.emits

theorem InitEnded.emits {s t : State} (h : InitEnded s t) : Emits Instr.init.commands s t := by
  cases h with
  | already _ ht => exact ht ▸ emits_of_tr_eq rfl
  | badClock _ _ ht => exact ht ▸ emits_of_tr_eq rfl
  | noRate _ _ _ ht =>
    exact ht ▸ ⟨_, _, rfl, shows_busInit _ _ _, commandsAre_of_no_txn (by simp), by simp [eventFits]⟩
  | ok _ _ _ u hr ht => exact ht ▸ hr.emits_of_rstPulse_opened.congr_tr rfl
  | failed _ _ _ u hr _ ht => exact ht ▸ hr.emits_of_rstPulse_opened.congr_tr rfl

theorem emits_finishDeinit (ks : List PanelOp) (s : State) : Emits ks s (finishDeinit s) :=
  ⟨_, _, finishDeinit_tr s, shows_busDeinit _, commandsAre_of_no_txn (by simp), by simp [eventFits]⟩

theorem Ended.emits {ks : List PanelOp} {s t : State} (h : Ended ks s t) : Emits ks s t := by
  cases h with
  | rejected e _ ht => exact ht ▸ emits_of_tr_eq rfl
  | ok u hr _ ht => exact ht ▸ hr.emits.congr_tr rfl
  | failed u hr _ ht => exact ht ▸ hr.emits.congr_tr rfl

theorem DrawEnded.emits {ks : List PanelOp} {i : Instr} {p : Plane} {s t : State} (h : DrawEnded i p s t) : Emits ks s t := by
  cases h with
  | rejected e _ ht => exact ht ▸ emits_of_tr_eq rfl
  | drawn _ _ m _ _ ht => exact ht ▸ emits_of_tr_eq (by simp)
  | read _ _ _ _ ht => exact ht ▸ emits_of_tr_eq rfl

theorem PanelEnded.emits {i : Instr} {s t : State} (h : PanelEnded i s t) : Emits i.commands s t := by
  cases h with
  | outOfPlace _ ht => exact ht ▸ emits_of_tr_eq rfl
  | sent _ _ v hr _ ht => exact ht ▸ hr.emits.congr_tr rfl
  | failed _ _ _ v hr _ ht => exact ht ▸ hr.emits.congr_tr rfl

theorem exec_emits {i : Instr} {s t : State} (h : exec i s = .next t) : Emits i.commands s t := by
  rcases exec_cases i s t h with ⟨rfl, he⟩ | ⟨rfl, hd⟩ | ⟨_, hc⟩ | ⟨_, _, p, _, hd⟩ | ⟨_, hu⟩ | ⟨_, hp⟩
  · exact he.emits
  · rcases hd with ⟨_, rfl⟩ | ⟨u, _, rfl, hr⟩
    · exact emits_of_tr_eq rfl
    · exact (hr.emits.trans hr.params hr.cfg (emits_finishDeinit _ u)).congr_tr rfl
  · rcases hc with ⟨_, rfl⟩ | ⟨_, c, rfl⟩ <;> exact emits_of_tr_eq rfl
  · exact hd.emits
  · rcases hu with he | ⟨_, rfl⟩ | ⟨_, _, rfl⟩
    · exact he.emits
    · exact emits_of_tr_eq rfl
    · exact ((ran_setSeq _ s _).trans (ran_sampleBusy _ _)).emits.congr_tr rfl
  · exact hp.emits

/-- Settles O41: every way an instruction can end adds events that fit. -/
theorem eventsFitTheWiring : Obligations.EventsFitTheWiring := by
  intro i s t h
  obtain ⟨es, _, htr, -, -, hfit⟩ := exec_emits h
  exact ⟨es, htr, hfit⟩

/-- The transaction view of what an instruction added has its own command frames only (R108, R111). -/
theorem exec_commandsAre {i : Instr} {s t : State} {os : List Obs} (h : exec i s = .next t) (hs : s.shows t os) :
    CommandsAre s.params i.commands os := by
  obtain ⟨es, ps, htr, hshow, hcmd, -⟩ := exec_emits h
  obtain ⟨fs, htr', hview⟩ := hs
  obtain rfl : es = fs := List.append_cancel_left (htr.symm.trans htr')
  rwa [← hview, hshow.view]

/-! ## A panel word between operations (log 31) -/

theorem eq_of_unusedZero {z : Bool} {i j : Instr} (h : unusedZero z j = .ok i) : i = j := by
  cases z <;> cases h
  rfl

theorem instrOfPanel_isHostOp {k : PanelOp} {a b : Half} {i : Instr} (h : instrOfPanel k a b = .ok i) :
    i.isHostOp = false := by
  cases k with
  | xrange | yrange | softst => cases h; rfl
  | wrbw | uc2 =>
    simp only [instrOfPanel] at h
    split at h <;> (rw [eq_of_unusedZero h]; rfl)
  | _ => rw [eq_of_unusedZero h]; rfl

theorem decodePanel_isHostOp {p : Params} {w : BitVec 48} {i : Instr} (h : decodePanel p w = .ok i) : i.isHostOp = false := by
  simp only [decodePanel] at h
  split at h
  · cases h
  · split at h
    · cases h
    · split at h
      · cases h
      · exact instrOfPanel_isHostOp h

theorem fetch_panel_isHostOp {p : Params} {w : BitVec 48} {i : Instr} (h : fetch p (.panel w) = some i) :
    i.isHostOp = false := by
  cases hd : decodePanel p w with
  | ok j =>
    rw [fetch_of_decode (w := .panel w) hd] at h
    cases h
    exact decodePanel_isHostOp hd
  | error e => simp [fetch, decode, hd] at h

theorem runPanel_of_no_place {i : Instr} {s : State} (h : s.place i = none) :
    runPanel i s = { s with status := .invalidArgument } := by simp only [runPanel, h]

/-- With no operation under way a panel word is turned away, whether it names a command or not (log 31). -/
theorem step_panel_of_atRest {s : State} {w : BitVec 48} (hc : s.cmd = some (.panel w)) (hrest : s.underway = none) :
    step s = .next { s with cmd := none, status := .invalidArgument } := by
  cases hf : fetch s.params (.panel w) with
  | none => exact step_of_unnamed hc rfl hf
  | some i =>
    have hplace : (s.enter (.panel w)).place i = none := place_of_atRest i hrest
    rw [step_of_latched hc rfl hf, exec_panel (fetch_panel_isHostOp hf), runPanel_of_no_place hplace]
    rfl

/-! ## The lines of an operation (R111, log 31) -/

/-- Past its lifecycle checks an operation has INIT = 1, but INIT has INIT = 0 (R280, R284, R301). -/
theorem initialised_iff_of_turnsAway {s : State} {op : Sending} (h : s.turnsAway op = none) :
    s.initialised = true ↔ op ≠ .init := by
  cases op with
  | init =>
    have hi : ¬ s.initialised = true := fun hi => by simp [State.turnsAway, hi] at h
    exact ⟨fun k => absurd k hi, fun k => absurd rfl k⟩
  | _ =>
    have hi : s.initialised = true := by
      by_contra hi
      simp [State.turnsAway, hi] at h
    exact ⟨fun _ => by simp, fun _ => hi⟩

/-- The panel commands of a line. -/
def Task.commands : Task → List PanelOp
  | .issue i => i.commands
  | .openBus | .driveRst _ | .sleep _ | .awaitReady | .checkBusy | .enterSeq _ => []

theorem updateTasks_commands (u : UpdateType) : ∀ l ∈ waitTasks ++ updateTasks u, l.commands ⊆ [.uc1, .uc2, .act] := by
  cases u <;> decide

theorem wrupdTasks_commands (u : UpdateType) : ∀ l ∈ ([.enterSeq .waitingReady, .checkBusy] ++ wrupdTasks u : List Task),
    l.commands ⊆ [.xrange, .yrange, .xcnt, .ycnt, .wrbw, .uc1, .uc2, .act] := by
  cases u <;> decide

/-- The lines of UPDATE, where its type is one it serves (R240, R241). -/
theorem tasks_update {p : Params} {y : Half} {ls : List Task} (h : Sending.tasks p (.update y) = .ok ls) :
    ∃ u, ls = waitTasks ++ updateTasks u := by
  simp only [Sending.tasks] at h
  split at h <;> cases h
  exact ⟨_, rfl⟩

/-- The lines of WRUPD, where its type is known (R244). -/
theorem tasks_wrupd {p : Params} {y : Half} {ls : List Task} (h : Sending.tasks p (.wrupd y) = .ok ls) :
    ∃ u, ls = [.enterSeq .waitingReady, .checkBusy] ++ wrupdTasks u := by
  simp only [Sending.tasks] at h
  split at h <;> cases h
  exact ⟨_, rfl⟩

/-- The one line of SOFTSTART, where SS_ENCODE has bytes for its operands (R250). -/
theorem tasks_softstart {p : Params} {st ti mo : Half} {ls : List Task} (h : Sending.tasks p (.softstart st ti mo) = .ok ls) :
    ∃ q, ssEncode p st ti mo = some q ∧ ls = [.issue (.pSoftst q.s0 q.s1 q.s2 q.s3)] := by
  simp only [Sending.tasks] at h
  split at h <;> cases h
  next q hq => exact ⟨q, hq, rfl⟩

/-- The lines of an operation issue no panel commands but the operation's own (R111). -/
theorem tasks_commands {p : Params} {op : Sending} {ls : List Task} (h : op.tasks p = .ok ls) :
    ∀ l ∈ ls, l.commands ⊆ op.instr.commands := by
  cases op with
  | init => cases h; decide
  | deinit =>
    simp only [Sending.tasks] at h
    split at h <;> cases h <;> decide
  | wrbuf q => cases h; cases q <;> decide
  | softstart st ti mo =>
    obtain ⟨q, -, rfl⟩ := tasks_softstart h
    exact fun l hl => List.mem_singleton.1 hl ▸ List.Subset.refl _
  | update y =>
    obtain ⟨u, rfl⟩ := tasks_update h
    exact updateTasks_commands u
  | wrupd y =>
    obtain ⟨u, rfl⟩ := tasks_wrupd h
    exact wrupdTasks_commands u

theorem command_mem_of_line {p : Params} {op : Sending} {ls : List Task} {k : Nat} {i : Instr} {c : PanelOp}
    (h : op.tasks p = .ok ls) (hk : ls[k]? = some (.issue i)) (hc : c ∈ i.commands) : c ∈ op.instr.commands :=
  tasks_commands h _ (List.mem_of_getElem? hk) hc

/-! ## Which operation a command belongs to -/

section Owner

variable {op : Sending}

theorem eq_init_of_swreset_mem (h : .swreset ∈ op.instr.commands) : op = .init := by
  cases op with
  | init => rfl
  | wrbuf q => cases q <;> simp [Sending.instr, Instr.commands] at h
  | _ => simp [Sending.instr, Instr.commands] at h

theorem eq_update_or_wrupd_of_act_mem (h : .act ∈ op.instr.commands) : (∃ y, op = .update y) ∨ ∃ y, op = .wrupd y := by
  cases op with
  | update y => exact .inl ⟨y, rfl⟩
  | wrupd y => exact .inr ⟨y, rfl⟩
  | wrbuf q => cases q <;> simp [Sending.instr, Instr.commands] at h
  | _ => simp [Sending.instr, Instr.commands] at h

theorem eq_wrbuf_red_of_wrred_mem (h : .wrred ∈ op.instr.commands) : op = .wrbuf .red := by
  cases op with
  | wrbuf q =>
    cases q with
    | red => rfl
    | black => simp [Sending.instr, Instr.commands] at h
  | _ => simp [Sending.instr, Instr.commands] at h

theorem eq_deinit_of_sleep_mem (h : .sleep ∈ op.instr.commands) : op = .deinit := by
  cases op with
  | deinit => rfl
  | wrbuf q => cases q <;> simp [Sending.instr, Instr.commands] at h
  | _ => simp [Sending.instr, Instr.commands] at h

theorem eq_softstart_of_softst_mem (h : .softst ∈ op.instr.commands) : ∃ st ti mo, op = .softstart st ti mo := by
  cases op with
  | softstart st ti mo => exact ⟨st, ti, mo, rfl⟩
  | wrbuf q => cases q <;> simp [Sending.instr, Instr.commands] at h
  | _ => simp [Sending.instr, Instr.commands] at h

end Owner

/-! ## Where a command stands among the lines -/

/-- What occurs once in a list has one index there. -/
theorem eq_length_of_getElem?_append_cons {α : Type} {pre post : List α} {x : α} {k : Nat} (hpre : x ∉ pre)
    (hpost : x ∉ post) (h : (pre ++ x :: post)[k]? = some x) : k = pre.length := by
  rcases Nat.lt_trichotomy k pre.length with hlt | heq | hgt
  · rw [List.getElem?_append_left hlt] at h
    exact absurd (List.mem_of_getElem? h) hpre
  · exact heq
  · obtain ⟨j, hj⟩ : ∃ j, k - pre.length = j + 1 := ⟨k - pre.length - 1, by omega⟩
    rw [List.getElem?_append_right hgt.le, hj, List.getElem?_cons_succ] at h
    exact absurd (List.mem_of_getElem? h) hpost

/-- Wherever these lines issue P.ACT, an activation ends (R234). -/
def ActsInPlace (ls : List Task) : Prop :=
  ∀ k, ls[k]? = some (.issue .pAct) → ∃ w pre post, ls = pre ++ activateTasks w ++ post ∧ k = pre.length + 4

theorem actsInPlace_of_not_mem {ls : List Task} (h : .issue .pAct ∉ ls) : ActsInPlace ls :=
  fun _ hk => absurd (List.mem_of_getElem? hk) h

theorem actsInPlace_activateTasks (w : Waveform) : ActsInPlace (activateTasks w) := by
  intro k hk
  have hidx : k = 4 := eq_length_of_getElem?_append_cons (α := Task) (x := .issue .pAct)
    (pre := [.enterSeq .transmitting, .issue .pUc1, .issue (.pUc2 w), .enterSeq .activating]) (post := [])
    (by simp) (by simp) hk
  exact ⟨w, [], [], by simp, hidx⟩

theorem ActsInPlace.append {as bs : List Task} (ha : ActsInPlace as) (hb : ActsInPlace bs) : ActsInPlace (as ++ bs) := by
  intro k hk
  by_cases hlt : k < as.length
  · rw [List.getElem?_append_left hlt] at hk
    obtain ⟨w, pre, post, rfl, hidx⟩ := ha k hk
    exact ⟨w, pre, post ++ bs, by simp, hidx⟩
  · rw [List.getElem?_append_right (by omega)] at hk
    obtain ⟨w, pre, post, rfl, hidx⟩ := hb _ hk
    exact ⟨w, as ++ pre, post, by simp, by rw [List.length_append]; omega⟩

theorem actsInPlace_waitTasks : ActsInPlace waitTasks := actsInPlace_of_not_mem (by decide)
theorem actsInPlace_pushTasks (q : Plane) : ActsInPlace (pushTasks q) := actsInPlace_of_not_mem (by cases q <;> decide)
theorem actsInPlace_flashTasks : ActsInPlace (ramTasks (.pWrbw .flashBytes)) := actsInPlace_of_not_mem (by decide)

theorem actsInPlace_updateTasks (u : UpdateType) : ActsInPlace (updateTasks u) := by
  have act := actsInPlace_activateTasks
  cases u with
  | fastPartial => exact act _
  | cleanFull => exact act _
  | cleanFullAggressive => exact ((act _).append actsInPlace_waitTasks).append (act _)
  | fastFull => exact actsInPlace_of_not_mem (by simp [updateTasks])

theorem actsInPlace_wrupdTasks (u : UpdateType) : ActsInPlace (wrupdTasks u) := by
  have act := actsInPlace_activateTasks
  have push := actsInPlace_pushTasks .black
  cases u with
  | fastPartial => exact push.append (act _)
  | cleanFull => exact push.append (act _)
  | cleanFullAggressive => exact ((push.append (act _)).append actsInPlace_waitTasks).append (act _)
  | fastFull => exact (((actsInPlace_flashTasks.append (act _)).append actsInPlace_waitTasks).append push).append (act _)

/-- An activation seen from its last line. -/
theorem ActsInPlace.window {ls : List Task} (h : ActsInPlace ls) {k : Nat} (hk : ls[k]? = some (.issue .pAct)) :
    ∃ w, 4 ≤ k ∧ (ls.drop (k - 4)).take 5 = activateTasks w := by
  obtain ⟨w, pre, post, rfl, rfl⟩ := h k hk
  refine ⟨w, by omega, ?_⟩
  rw [Nat.add_sub_cancel, List.append_assoc, List.drop_left]
  rfl

/-! ## The places of five commands (R171, R194, R195, R196, R237) -/

/-- The lines of INIT around P.SWRESET (R170, R171). -/
theorem tasks_init (p : Params) : Sending.tasks p .init = .ok
    (([.openBus, .driveRst 1, .sleep .rst, .driveRst 0, .sleep .rst, .driveRst 1, .sleep .rst, .awaitReady] : List Task)
      ++ .issue .pSwreset :: (([.sleep .swrst, .awaitReady] : List Task) ++ initSeqTasks)) := rfl

theorem swreset_line {p : Params} {op : Sending} {ls : List Task} {k : Nat} (h : op.tasks p = .ok ls)
    (hk : ls[k]? = some (.issue .pSwreset)) : op = .init ∧
      ls.take (k + 3) = [.openBus, .driveRst 1, .sleep .rst, .driveRst 0, .sleep .rst, .driveRst 1, .sleep .rst,
        .awaitReady, .issue .pSwreset, .sleep .swrst, .awaitReady] := by
  obtain rfl := eq_init_of_swreset_mem (command_mem_of_line h hk (by decide))
  rw [tasks_init] at h
  cases h
  obtain rfl := eq_length_of_getElem?_append_cons (by decide) (by decide) hk
  exact ⟨rfl, rfl⟩

theorem act_line {p : Params} {op : Sending} {ls : List Task} {k : Nat} (h : op.tasks p = .ok ls)
    (hk : ls[k]? = some (.issue .pAct)) : ((∃ y, op = .update y) ∨ ∃ y, op = .wrupd y) ∧
      ∃ w, 4 ≤ k ∧ (ls.drop (k - 4)).take 5 = activateTasks w := by
  have howner := eq_update_or_wrupd_of_act_mem (command_mem_of_line h hk (by decide))
  refine ⟨howner, ?_⟩
  rcases howner with ⟨y, rfl⟩ | ⟨y, rfl⟩
  · obtain ⟨u, rfl⟩ := tasks_update h
    exact (actsInPlace_waitTasks.append (actsInPlace_updateTasks u)).window hk
  · obtain ⟨u, rfl⟩ := tasks_wrupd h
    exact ((actsInPlace_of_not_mem (by decide)).append (actsInPlace_wrupdTasks u)).window hk

theorem softst_line {p : Params} {op : Sending} {ls : List Task} {k : Nat} {s0 s1 s2 s3 : Byte} (h : op.tasks p = .ok ls)
    (hk : ls[k]? = some (.issue (.pSoftst s0 s1 s2 s3))) :
    ∃ a b c, op = .softstart a b c ∧ ssEncode p a b c = some { s0, s1, s2, s3 } := by
  obtain ⟨a, b, c, rfl⟩ := eq_softstart_of_softst_mem (command_mem_of_line h hk (List.mem_singleton.2 rfl))
  obtain ⟨q, hq, rfl⟩ := tasks_softstart h
  cases List.mem_singleton.1 (List.mem_of_getElem? hk)
  exact ⟨a, b, c, rfl, hq⟩

/-- Settles O43: clause 1 from what every ending shows, clause 2 from the rest state, clause 3 from what a place is,
clause 4 from the lists of lines. -/
theorem commandFramesStandInTheirPlaces : Obligations.CommandFramesStandInTheirPlaces := by
  refine ⟨fun i s t os fs h hs hm f hf h0 => exec_commandsAre h hs fs hm f hf h0, fun s t w hinv hc h => ?_,
    fun i s u h => ?_,
    fun p op ls k h => ⟨swreset_line h, act_line h, fun hk => ?_, fun hk => ?_, fun _ _ _ _ => softst_line h⟩⟩
  · rw [step_panel_of_atRest hc hinv.atRest] at h
    cases h
    rfl
  · obtain ⟨hunder, hturn, hbus, hline⟩ := place_eq_some.1 h
    exact ⟨hunder, hbus, initialised_iff_of_turnsAway hturn, hline⟩
  · exact eq_wrbuf_red_of_wrred_mem (command_mem_of_line h hk (by decide))
  · exact eq_deinit_of_sleep_mem (command_mem_of_line h hk (by decide))

/-! ## The wire form of a panel command (R108, R109, R110) -/

theorem lowByte_eq (v : Half) : lowByte v = BitVec.ofNat 8 (v.toNat % 256) := by
  apply BitVec.eq_of_toNat_eq
  simp [lowByte]

theorem highByte_eq (v : Half) : highByte v = BitVec.ofNat 8 (v.toNat / 256) := by
  exact extractLsb'_eq_ofNat_div v 8 8

/-- A panel command sends the transactions of its wire form, whatever its operands. -/
theorem panelTxns_of_wireForm {i : Instr} {s : State} {f : PanelOp × List (List Byte)} (h : wireForm s i = some f) :
    panelTxns s i = wireTxns s.params f := by
  cases i with
  | pYrange ys ye =>
    cases h
    simp only [panelTxns, txnsYrange, lowByte_eq, highByte_eq]
    rfl
  | pYcnt y =>
    cases h
    simp only [panelTxns, txnsYcnt, lowByte_eq, highByte_eq]
    rfl
  | pWrbw q => cases q <;> cases h <;> rfl
  | pUc2 w => cases w <;> cases h <;> rfl
  | pSleep =>
    simp only [wireForm] at h
    split at h <;> cases h
    next b hb =>
      simp only [panelTxns, txnsSleep, hb]
      rfl
  | pSwreset | pDrvout | pEntry | pXrange | pBorder | pTemp | pXcnt | pWrred | pUc1 | pAct | pSoftst => cases h; rfl
  | _ => cases h

theorem isHostOp_of_wireForm {i : Instr} {s : State} {f : PanelOp × List (List Byte)} (h : wireForm s i = some f) :
    i.isHostOp = false := by
  cases i with
  | pSwreset | pDrvout | pEntry | pXrange | pYrange | pBorder | pTemp | pXcnt | pYcnt | pWrbw | pWrred | pUc1 | pUc2 | pAct
  | pSoftst | pSleep => rfl
  | _ => cases h

theorem wireTxns_lengths (p : Params) (f : PanelOp × List (List Byte)) :
    (wireTxns p f).map (fun t => t.bytes.length) = 1 :: f.2.map List.length := by
  simp [wireTxns, Function.comp_def]

theorem wireTxns_whole (p : Params) (f : PanelOp × List (List Byte)) :
    (wireTxns p f).map Txn.whole = .txn [(0, p.opcode f.1)] :: f.2.map fun d => .txn (d.map fun b => (1, b)) := by
  simp [wireTxns, Txn.whole, Function.comp_def]

/-- In its place, with no write cut short, a panel command goes out and the operation stands at its next line (R108, log 31). -/
theorem runPanel_of_sent {i : Instr} {s t : State} {u : Underway} (hp : s.place i = some u)
    (ht : sendAll (panelTxns s i) s = .done t) :
    runPanel i s = { t with underway := some { u with done := u.done + 1 } } := by simp only [runPanel, hp, ht]

/-- Settles O44: the transactions are those of the wire form, and complete transactions have the effect and the
view of `Did`. -/
theorem panelCommandsSendTheirWireForm : Obligations.PanelCommandsSendTheirWireForm := by
  refine ⟨fun i s f => panelTxns_of_wireForm, fun i s f u hp hf hw => ?_⟩
  have htxns := panelTxns_of_wireForm hf
  have hne : wireTxns s.params f ≠ [] := by simp [wireTxns]
  have hlen : (wireTxns s.params f).length = f.2.length + 1 := by simp [wireTxns]
  obtain ⟨t, hsend, hdid, hseq⟩ := did_sendAll hw (wireTxns_lengths s.params f) hne
  rw [hlen, wireTxns_whole] at hdid
  refine ⟨_, exec_panel (isHostOp_of_wireForm hf) s, ?_, ?_⟩
  · rw [runPanel_of_sent hp (htxns ▸ hsend), hdid.eq, hseq]
    rfl
  · obtain ⟨es, htr, hshow⟩ := hdid.shown
    exact ⟨es, by rw [runPanel_of_sent hp (htxns ▸ hsend)]; exact htr, hshow.view⟩

end Sys2Proof.Machine
end

section
/-! The transport (40_transport.md): one transaction pin by pin, the first short write of a sequence, transport reads, and
chip-select framing along every instruction. -/

namespace Sys2Proof.Machine

open Sys2Proof

/-! ## One transaction, whole or short (R141, R143, R144, R146) -/

/-- The state one transaction leaves with the count drawn for it (R142). -/
def State.afterTxn (s : State) (t : Txn) : State :=
  { s.wireEffect 1 t.mode with
    tr := s.tr ++ (busCheckEvents s ++ coreEvents s.cfg.wiring t (s.writeCount t.bytes.length)) }

/-- The count decides how a transaction ends and how many frames go out, nothing else (R146). -/
theorem tWrBytes_eq_afterTxn (t : Txn) (s : State) :
    tWrBytes t s = if s.writeCount t.bytes.length = t.bytes.length then .done (s.afterTxn t)
      else .raised .transportError (s.afterTxn t) := by
  rw [tWrBytes_eq]
  by_cases hle : t.bytes.length ≤ s.countFeed.peek Config.freeCount
  · have hn : s.writeCount t.bytes.length = t.bytes.length := Nat.min_eq_right hle
    rw [if_pos hle, if_pos hn, State.afterTxn, hn]
  · have hn : s.writeCount t.bytes.length = s.countFeed.peek Config.freeCount := Nat.min_eq_left (by omega)
    rw [if_neg hle, if_neg (by omega), State.afterTxn, hn]

theorem tWrBytes_of_afterTxn_eq {s u : State} {t : Txn} (hu : s.afterTxn t = u) :
    (s.writeCount t.bytes.length = t.bytes.length → tWrBytes t s = .done u) ∧
      (s.writeCount t.bytes.length ≠ t.bytes.length → tWrBytes t s = .raised .transportError u) := by
  subst hu
  exact ⟨fun h => by rw [tWrBytes_eq_afterTxn, if_pos h], fun h => by rw [tWrBytes_eq_afterTxn, if_neg h]⟩

theorem bus_eq_iff (b : Bus) (w : FrameWidth) (hz : Quad) : b = { width := w, hz := hz } ↔ b.width = w ∧ b.hz = hz := by
  cases b
  simp only [Bus.mk.injEq]

/-- The nine bits of a 3-wire frame as a number: the mode weighs 256 (R105). -/
theorem frameOf_threeWire (m : Bit) (b : Byte) :
    frameOf .threeWire m b = .f9 (BitVec.ofNat 9 (m.toNat * 256 + b.toNat)) := by
  have hb := b.isLt
  have hv : (m ++ b : BitVec 9).toNat = m.toNat * 256 + b.toNat := by
    rw [BitVec.toNat_append, ← Nat.shiftLeft_add_eq_or_of_lt hb, Nat.shiftLeft_eq]
  rw [frameOf, ← hv, BitVec.ofNat_toNat, BitVec.setWidth_eq]

/-- Settles O36: the state after a transaction, in 4-wire, with its bus check and its pins written out. -/
theorem fourWireTransaction : Obligations.FourWireTransaction := by
  intro s t hw
  refine tWrBytes_of_afterTxn_eq ?_
  simp [State.afterTxn, State.wireEffect, busCheckEvents, coreEvents, modeEvents, Cfg.wantedBus, widthOf, frameOf, hw,
    bus_eq_iff]

/-- Settles O37: the state after a transaction, in 3-wire, with its bus check and its pins written out. -/
theorem threeWireTransaction : Obligations.ThreeWireTransaction := by
  intro s t hw
  refine tWrBytes_of_afterTxn_eq ?_
  simp [State.afterTxn, State.wireEffect, busCheckEvents, coreEvents, modeEvents, Cfg.wantedBus, widthOf, frameOf_threeWire,
    hw, bus_eq_iff]

/-! ## A short write (R146, R312) -/

/-- Settles O38: whole transactions and then a cut one, each with its view. -/
theorem shortWriteEndsTheSequence : Obligations.ShortWriteEndsTheSequence := by
  intro s pre post t hpre hshort
  have hshown := ((shows_busCheck s).append (shows_whole s.cfg.wiring pre)).append
    (shows_core s.cfg.wiring t (s.countFeed.nth Config.freeCount pre.length))
  exact ⟨_, sendAll_of_short post hpre hshort, rfl, rfl, _, rfl, hshown.view⟩

/-! ## Transport reads (R147, R148) -/

/-- Settles O39: with SEQ Idle the delivery of NotSupported changes STATUS alone. -/
theorem transportReadsAreNotSupported : Obligations.TransportReadsAreNotSupported := by
  intro s n hseq
  refine ⟨fun hw => ?_, fun hw => by simp only [tRdBytes, hw]⟩
  simp only [tRdBytes, hw, State.deliver, ← hseq]

/-! ## Chip-select along an instruction (R107, R151) -/

/-- From `s` to `t` the trace grew by events that take chip-select in turn from where it stood to where it stands. -/
def CsFramed (s t : State) : Prop := ∃ es, t.tr = s.tr ++ es ∧ csScan s.csLevel es = some t.csLevel

theorem csLevel_held {s : State} (h : s.ts.isSome = true) : s.csLevel = .high := if_pos h

theorem csFramed_of_eq {s t : State} (htr : t.tr = s.tr) (hts : t.ts = s.ts) : CsFramed s t :=
  ⟨[], by simp [htr], by simp only [State.csLevel, hts, csScan]⟩

theorem CsFramed.trans {s t u : State} (h : CsFramed s t) (k : CsFramed t u) : CsFramed s u := by
  obtain ⟨es, htr, hes⟩ := h
  obtain ⟨fs, ktr, hfs⟩ := k
  exact ⟨es ++ fs, by rw [ktr, htr, List.append_assoc], by rw [csScan_append, hes, Option.bind_some, hfs]⟩

/-- Waits and transactions, where a bus is held, find chip-select high and leave it high. -/
theorem Ran.csFramed {ks : List PanelOp} {s t : State} (h : Ran ks s t) (hheld : s.ts.isSome = true) : CsFramed s t := by
  obtain ⟨es, _, htr, _, _, hscan, _⟩ := h.trace
  exact ⟨es, htr, by rw [csLevel_held hheld, csLevel_held (h.isSome.trans hheld), hscan]⟩

/-- What T_OPEN and the hardware pulse emit: chip-select is first driven high, whatever held the bus before (R152, R170). -/
theorem csFramed_rstPulse_opened (s : State) : CsFramed s (rstPulse (opened s)) := by
  refine ⟨_, by rw [rstPulse_eq, opened_eq, List.append_assoc], ?_⟩
  have hheld : (rstPulse (opened s)).csLevel = .high := csLevel_held (by rw [rstPulse_eq, opened_eq]; rfl)
  rw [hheld, State.csLevel]
  split <;> rfl

theorem Ran.csFramed_of_opened {ks : List PanelOp} {s u : State} (h : Ran ks (rstPulse (opened s)) u) : CsFramed s u :=
  (csFramed_rstPulse_opened s).trans (h.csFramed (by rw [rstPulse_eq, opened_eq]; rfl))

theorem InitEnded.csFramed {s t : State} (h : InitEnded s t) : CsFramed s t := by
  cases h with
  | already _ ht => exact ht ▸ csFramed_of_eq rfl rfl
  | badClock _ _ ht => exact ht ▸ csFramed_of_eq rfl rfl
  | noRate _ _ _ ht =>
    refine ht ▸ ⟨_, rfl, ?_⟩
    rw [State.csLevel]
    split <;> rfl
  | ok _ _ _ u hr ht => exact ht ▸ hr.csFramed_of_opened.trans (csFramed_of_eq rfl rfl)
  | failed _ _ _ u hr _ ht => exact ht ▸ hr.csFramed_of_opened.trans (csFramed_of_eq rfl rfl)

/-- Releasing a held bus ends the drive of chip-select (R153). -/
theorem csFramed_finishDeinit {s : State} (h : s.ts.isSome = true) : CsFramed s (finishDeinit s) := by
  refine ⟨_, finishDeinit_tr s, ?_⟩
  rw [csLevel_held h, State.csLevel, finishDeinit_eq]
  rfl

theorem Ended.csFramed {ks : List PanelOp} {s t : State} (hheld : s.ts.isSome = true) (h : Ended ks s t) : CsFramed s t := by
  cases h with
  | rejected e _ ht => exact ht ▸ csFramed_of_eq rfl rfl
  | ok u hr _ ht => exact ht ▸ (hr.csFramed hheld).trans (csFramed_of_eq rfl rfl)
  | failed u hr _ ht => exact ht ▸ (hr.csFramed hheld).trans (csFramed_of_eq rfl rfl)

theorem DrawEnded.csFramed {i : Instr} {p : Plane} {s t : State} (h : DrawEnded i p s t) : CsFramed s t := by
  cases h with
  | rejected e _ ht => exact ht ▸ csFramed_of_eq rfl rfl
  | drawn _ _ m _ _ ht => exact ht ▸ csFramed_of_eq (by simp) (by simp)
  | read _ _ _ _ ht => exact ht ▸ csFramed_of_eq rfl rfl

/-- A panel command's place has a bus held (R111). -/
theorem PanelEnded.csFramed {i : Instr} {s t : State} (h : PanelEnded i s t) : CsFramed s t := by
  have held : ∀ {u}, s.place i = some u → s.ts.isSome = true := fun hp => (place_eq_some.1 hp).2.2.1
  cases h with
  | outOfPlace _ ht => exact ht ▸ csFramed_of_eq rfl rfl
  | sent _ hp v hr _ ht => exact ht ▸ (hr.csFramed (held hp)).trans (csFramed_of_eq rfl rfl)
  | failed _ hp _ v hr _ ht => exact ht ▸ (hr.csFramed (held hp)).trans (csFramed_of_eq rfl rfl)

/-- Settles O40: an operation that needs INIT = 1 turns away without it; with it the bus is held, and every ending keeps the
framing. -/
theorem chipSelectFramesEveryTransaction : Obligations.ChipSelectFramesEveryTransaction := by
  intro i s t hbus h
  rcases exec_cases i s t h with ⟨_, he⟩ | ⟨_, hd⟩ | ⟨_, hc⟩ | ⟨_, _, p, _, hd⟩ | ⟨hi, hu⟩ | ⟨_, hp⟩
  · exact he.csFramed
  · rcases hd with ⟨_, rfl⟩ | ⟨u, h1, rfl, hr⟩
    · exact csFramed_of_eq rfl rfl
    · have hheld := hbus h1
      exact ((hr.csFramed hheld).trans (csFramed_finishDeinit (hr.isSome.trans hheld))).trans (csFramed_of_eq rfl rfl)
  · rcases hc with ⟨_, rfl⟩ | ⟨_, c, rfl⟩ <;> exact csFramed_of_eq rfl rfl
  · exact hd.csFramed
  · cases h1 : s.initialised with
    | false =>
      have hneeds : i.needsInit = true := by
        rcases hi with ⟨_, rfl⟩ | ⟨_, rfl⟩ | ⟨_, rfl⟩ | ⟨_, _, _, rfl⟩ <;> rfl
      rw [exec_of_needsInit hneeds h1] at h
      cases h
      exact csFramed_of_eq rfl rfl
    | true =>
      have hheld := hbus h1
      rcases hu with he | ⟨_, rfl⟩ | ⟨_, _, rfl⟩
      · exact he.csFramed hheld
      · exact csFramed_of_eq rfl rfl
      · exact (((ran_setSeq [] s _).trans (ran_sampleBusy [] _)).csFramed hheld).trans (csFramed_of_eq rfl rfl)
  · exact hp.csFramed

end Sys2Proof.Machine
end

section
/-! The two wirings side by side (40_transport.md R150): an operation run on two states that differ in the wiring, and in what a
wiring leaves on the bus and the pins, shows the same transactions, since only the transport looks at the wiring. -/

namespace Sys2Proof.Machine

open Sys2Proof

/-! ## Two states that differ on the wire only -/

/-- The parts of the state that the wiring has to do with: CFG, the trace, BUS, TS and the pins. -/
structure WirePart where
  cfg : Cfg
  tr : List Event
  bus : Bus
  ts : Option Transport
  pin : Pins

def State.wire (s : State) : WirePart := { cfg := s.cfg, tr := s.tr, bus := s.bus, ts := s.ts, pin := s.pin }

/-- A state with another wire part. -/
def State.onWire (s : State) (w : WirePart) : State :=
  { s with cfg := w.cfg, tr := w.tr, bus := w.bus, ts := w.ts, pin := w.pin }

/-- What ran from one trace in two wirings: states equal off the wire, with one bus held at one index and asked for at one
clock, and with events since that trace that show the same. -/
structure Twin (base : List Event) (s t : State) : Prop where
  eq : ∀ w, t.onWire w = s.onWire w
  busIndex : t.cfg.bus = s.cfg.bus
  clkHz : t.cfg.clkHz = s.cfg.clkHz
  held : t.ts.map Transport.bush = s.ts.map Transport.bush
  shown : ∃ es fs os, s.tr = base ++ es ∧ t.tr = base ++ fs ∧ Shows es os ∧ Shows fs os

theorem twin_rewired (s : State) : Twin s.tr s s.rewired where
  eq _ := rfl
  busIndex := rfl
  clkHz := rfl
  held := rfl
  shown := ⟨[], [], [], by simp, by simp [State.rewired], shows_nil, shows_nil⟩

section Fields

variable {base : List Event} {s t : State} (h : Twin base s t)
include h

theorem Twin.params : t.params = s.params := (congrArg State.params (h.eq s.wire) :)
theorem Twin.initialised : t.initialised = s.initialised := (congrArg State.initialised (h.eq s.wire) :)
theorem Twin.black : t.black = s.black := (congrArg State.black (h.eq s.wire) :)
theorem Twin.red : t.red = s.red := (congrArg State.red (h.eq s.wire) :)
theorem Twin.status : t.status = s.status := (congrArg State.status (h.eq s.wire) :)
theorem Twin.rdata : t.rdata = s.rdata := (congrArg State.rdata (h.eq s.wire) :)
theorem Twin.hbuf : t.hbuf = s.hbuf := (congrArg State.hbuf (h.eq s.wire) :)
theorem Twin.underway : t.underway = s.underway := (congrArg State.underway (h.eq s.wire) :)
theorem Twin.busyFeed : t.busyFeed = s.busyFeed := (congrArg State.busyFeed (h.eq s.wire) :)
theorem Twin.countFeed : t.countFeed = s.countFeed := (congrArg State.countFeed (h.eq s.wire) :)
theorem Twin.rateFeed : t.rateFeed = s.rateFeed := (congrArg State.rateFeed (h.eq s.wire) :)

theorem Twin.plane (p : Plane) : t.plane p = s.plane p := by
  cases p with
  | black => exact h.black
  | red => exact h.red

theorem Twin.isSome : t.ts.isSome = s.ts.isSome := by
  rw [← Option.isSome_map (f := Transport.bush), h.held, Option.isSome_map]

theorem Twin.seesBusy : t.seesBusy = s.seesBusy := by
  rw [State.seesBusy, State.seesBusy, State.busyLevel, State.busyLevel, h.params, h.busyFeed]

theorem Twin.writeCount (len : Nat) : t.writeCount len = s.writeCount len := by
  rw [State.writeCount, State.writeCount, h.countFeed]

theorem Twin.heldBus : t.heldBus = s.heldBus := by
  have hs : ∀ u : State, u.heldBus = (u.ts.map Transport.bush).getD u.cfg.bus := by
    intro u
    unfold State.heldBus
    cases u.ts <;> rfl
  rw [hs, hs, h.held, h.busIndex]

end Fields

/-! ## What keeps two states twins -/

/-- A change that neither looks at the wire nor touches it. -/
def OffWire (f : State → State) : Prop := ∀ s w, f (s.onWire w) = (f s).onWire w

theorem OffWire.wire_eq {f : State → State} (hf : OffWire f) (s : State) : (f s).wire = s.wire :=
  (congrArg State.wire (hf s s.wire) :)

theorem Twin.map {base : List Event} {s t : State} (h : Twin base s t) {f : State → State} (hf : OffWire f) :
    Twin base (f s) (f t) := by
  have cfg_eq : ∀ u, (f u).cfg = u.cfg := fun u => congrArg WirePart.cfg (hf.wire_eq u)
  have tr_eq : ∀ u, (f u).tr = u.tr := fun u => congrArg WirePart.tr (hf.wire_eq u)
  have ts_eq : ∀ u, (f u).ts = u.ts := fun u => congrArg WirePart.ts (hf.wire_eq u)
  refine ⟨fun w => ?_, ?_, ?_, ?_, ?_⟩
  · rw [← hf, ← hf, h.eq]
  · rw [cfg_eq, cfg_eq, h.busIndex]
  · rw [cfg_eq, cfg_eq, h.clkHz]
  · rw [ts_eq, ts_eq, h.held]
  · rw [tr_eq, tr_eq]
    exact h.shown

theorem offWire_setSeq (q : Seq) : OffWire (·.setSeq q) := fun _ _ => rfl
theorem offWire_deliver (e : Status) : OffWire (·.deliver e) := fun _ _ => rfl
theorem offWire_complete : OffWire State.complete := fun _ _ => rfl
theorem offWire_finishInit : OffWire finishInit := fun _ _ => rfl
theorem offWire_underway (u : Option Underway) : OffWire ({ · with underway := u }) := fun _ _ => rfl
theorem offWire_popBusy (n : Nat) : OffWire fun s => { s with busyFeed := s.busyFeed.popMany n } := fun _ _ => rfl
theorem offWire_setPlane (p : Plane) (m : Mem) : OffWire (·.setPlane p m) := fun _ _ => by cases p <;> rfl

/-- Events that show the same in both keep twins twins, whatever the wire. -/
theorem Twin.emit {base es fs : List Event} {os : List Obs} {s t : State} (h : Twin base s t) (hes : Shows es os)
    (hfs : Shows fs os) : Twin base (s.emit es) (t.emit fs) := by
  obtain ⟨as, bs, ps, hs, ht, has, hbs⟩ := h.shown
  refine ⟨h.eq, h.busIndex, h.clkHz, h.held, as ++ es, bs ++ fs, ps ++ os, ?_, ?_, has.append hes, hbs.append hfs⟩
  · rw [emit_tr, hs, List.append_assoc]
  · rw [emit_tr, ht, List.append_assoc]

theorem Twin.emit_same {base es : List Event} {os : List Obs} {s t : State} (h : Twin base s t) (hes : Shows es os) :
    Twin base (s.emit es) (t.emit es) := h.emit hes hes

/-! ## Micro-operations in both wirings -/

/-- Two answers alike: both done or both raised, with one status, in twin states. -/
inductive MicroTwin (base : List Event) : Micro → Micro → Prop where
  | done {s t : State} (h : Twin base s t) : MicroTwin base (.done s) (.done t)
  | raised (e : Status) {s t : State} (h : Twin base s t) : MicroTwin base (.raised e s) (.raised e t)

section Micro

variable {base : List Event} {s t : State}

theorem MicroTwin.andThen {m n : Micro} {f g : State → Micro} (h : MicroTwin base m n)
    (hf : ∀ s t, Twin base s t → MicroTwin base (f s) (g t)) : MicroTwin base (m.andThen f) (n.andThen g) := by
  cases h with
  | done h => exact hf _ _ h
  | raised e h => exact .raised e h

theorem MicroTwin.state {m n : Micro} (h : MicroTwin base m n) : Twin base m.state n.state := by
  cases h with
  | done h => exact h
  | raised e h => exact h

theorem MicroTwin.endState {m n : Micro} (h : MicroTwin base m n) : Twin base m.endState n.endState := by
  cases h with
  | done h => exact h.map offWire_complete
  | raised e h => exact h.map (offWire_deliver e)

protected theorem MicroTwin.thenIdle {m n : Micro} (h : MicroTwin base m n) : MicroTwin base (thenIdle m) (thenIdle n) :=
  h.andThen fun _ _ h => .done (h.map (offWire_setSeq .idle))

/-- One transaction, each in its own wiring, shows as the same bytes (R143, R144, R150). -/
theorem Twin.afterTxn (h : Twin base s t) (x : Txn) : Twin base (s.afterTxn x) (t.afterTxn x) := by
  have shown : ∀ u : State, u.writeCount x.bytes.length = s.writeCount x.bytes.length →
      Shows (busCheckEvents u ++ coreEvents u.cfg.wiring x (u.writeCount x.bytes.length))
        [x.shown (s.writeCount x.bytes.length)] := by
    intro u hu
    rw [hu]
    exact (shows_busCheck u).append (shows_core _ x _)
  have htrace := h.emit (shown s rfl) (shown t (h.writeCount _))
  have heq := fun w => congrArg (fun u : State => { u with countFeed := u.countFeed.popMany 1 }) (h.eq w)
  have hbush : ∀ u : State, (u.afterTxn x).ts.map Transport.bush = u.ts.map Transport.bush := by
    intro u
    simp [State.afterTxn, Function.comp_def]
  exact ⟨heq, h.busIndex, h.clkHz, by rw [hbush, hbush, h.held], htrace.shown⟩

protected theorem Twin.tWrBytes (h : Twin base s t) (x : Txn) : MicroTwin base (tWrBytes x s) (tWrBytes x t) := by
  rw [tWrBytes_eq_afterTxn, tWrBytes_eq_afterTxn, h.writeCount]
  split
  · exact .done (h.afterTxn x)
  · exact .raised _ (h.afterTxn x)

protected theorem Twin.sendAll (h : Twin base s t) (xs : List Txn) : MicroTwin base (sendAll xs s) (sendAll xs t) := by
  induction xs generalizing s t with
  | nil => exact .done h
  | cons x xs ih => exact (h.tWrBytes x).andThen fun _ _ h => ih h

/-- A wait takes the same samples in both (R200). -/
protected theorem Twin.waitReady (h : Twin base s t) : Twin base (waitReady s) (waitReady t) := by
  obtain ⟨es, hes, hs⟩ := waitLoop_shows s.params.nPoll s
  obtain ⟨fs, hfs, ht⟩ := waitLoop_shows t.params.nPoll t
  have hlevel : t.busyAt = s.busyAt := by
    funext i
    rw [State.busyAt, State.busyAt, h.busyFeed]
  have hn : waitSamples t.busyAt t.params.busyActive t.params.nPoll 0
      = waitSamples s.busyAt s.params.busyActive s.params.nPoll 0 := by rw [hlevel, h.params]
  rw [hlevel, h.params] at hfs
  rw [waitReady, waitReady, hs, ht, hn]
  exact (h.emit hes hfs).map (offWire_popBusy _)

protected theorem Twin.sampleBusy (h : Twin base s t) : Twin base (sampleBusy s) (sampleBusy t) := by
  have hlevel : t.busyLevel = s.busyLevel := by simp only [State.busyLevel, h.busyFeed]
  rw [sampleBusy, sampleBusy, hlevel, ← Feed.popMany_one, ← Feed.popMany_one]
  exact (h.emit_same (shows_busyRead _)).map (offWire_popBusy 1)

/-- T_OPEN asks for the same bus at the same clock and draws the same rate (R152). -/
protected theorem Twin.tOpen (h : Twin base s t) : MicroTwin base (tOpen s) (tOpen t) := by
  have hrate : t.achievedRate = s.achievedRate := by simp only [State.achievedRate, h.rateFeed]
  have hasked : Shows [.busInit s.cfg.bus s.cfg.clkHz s.achievedRate] [.busInit s.cfg.bus s.cfg.clkHz s.achievedRate] :=
    shows_busInit _ _ _
  by_cases hr : s.achievedRate = 0
  · simp only [tOpen, hrate, if_pos hr, h.busIndex, h.clkHz]
    have heq := fun w => congrArg (fun u : State => { u with rateFeed := u.rateFeed.pop }) (h.eq w)
    exact .raised _ ⟨heq, h.busIndex, h.clkHz, rfl, (h.emit_same hasked).shown⟩
  · have heq := fun w =>
      congrArg (fun u : State => { u with rateFeed := u.rateFeed.pop, nextFree := u.nextFree + 1 }) (h.eq w)
    rw [tOpen_ok hr, tOpen_ok (hrate ▸ hr), opened_eq, opened_eq, hrate, h.busIndex, h.clkHz]
    exact .done ⟨heq, h.busIndex, h.clkHz, rfl, (h.emit_same (hasked.append shows_csHigh)).shown⟩

/-- The hardware pulse is the same in both (R170). -/
protected theorem Twin.rstPulse (h : Twin base s t) : Twin base (rstPulse s) (rstPulse t) := by
  have hpulse : Shows [.pinSet .rst 1, .delay .rst, .pinSet .rst 0, .delay .rst, .pinSet .rst 1, .delay .rst] rstObs :=
    fun dc => ⟨dc, fun _ => rfl⟩
  rw [rstPulse_eq, rstPulse_eq]
  exact ⟨h.eq, h.busIndex, h.clkHz, h.held, (h.emit_same hpulse).shown⟩

protected theorem Twin.cReset (h : Twin base s t) : MicroTwin base (cReset s) (cReset t) := by
  rw [cReset, cReset, h.params]
  exact (h.rstPulse.waitReady.sendAll _).andThen fun _ _ h => .done (h.emit_same (shows_delay .swrst)).waitReady

protected theorem Twin.cInitSeq (h : Twin base s t) : MicroTwin base (cInitSeq s) (cInitSeq t) := by
  rw [cInitSeq, cInitSeq, h.params]
  exact h.sendAll _

protected theorem Twin.initBody (h : Twin base s t) : MicroTwin base (initBody s) (initBody t) :=
  h.tOpen.andThen fun _ _ h => h.cReset.andThen fun _ _ h => h.cInitSeq.andThen fun _ _ h => .done (h.map offWire_finishInit)

/-- A push reads the plane, which is the same in both (R232). -/
protected theorem Twin.push (h : Twin base s t) (p : Plane) : MicroTwin base (push p s) (push p t) := by
  rw [push, push, h.params, h.plane]
  exact (h.map (offWire_setSeq _)).sendAll _

protected theorem Twin.flash (h : Twin base s t) : MicroTwin base (flash s) (flash t) := by
  rw [flash, flash, h.params]
  exact (h.map (offWire_setSeq _)).sendAll _

protected theorem Twin.activate (h : Twin base s t) (w : Waveform) : MicroTwin base (activate w s) (activate w t) := by
  rw [activate, activate, h.params]
  refine ((h.map (offWire_setSeq _)).sendAll _).andThen fun _ _ h => ?_
  rw [h.params]
  exact (h.map (offWire_setSeq _)).sendAll _

protected theorem Twin.waitInSeq (h : Twin base s t) : Twin base (waitInSeq s) (waitInSeq t) :=
  (h.map (offWire_setSeq _)).waitReady

protected theorem Twin.updateBody (h : Twin base s t) (u : UpdateType) : MicroTwin base (updateBody u s) (updateBody u t) := by
  cases u with
  | fastPartial => exact h.activate _
  | cleanFull => exact h.activate _
  | cleanFullAggressive => exact (h.activate _).andThen fun _ _ h => h.waitInSeq.activate _
  | fastFull => exact .raised _ h

protected theorem Twin.wrupdBody (h : Twin base s t) (u : UpdateType) : MicroTwin base (wrupdBody u s) (wrupdBody u t) := by
  cases u with
  | fastPartial => exact (h.push _).andThen fun _ _ h => h.activate _
  | cleanFull => exact (h.push _).andThen fun _ _ h => h.activate _
  | cleanFullAggressive =>
    exact (h.push _).andThen fun _ _ h => (h.activate _).andThen fun _ _ h => h.waitInSeq.activate _
  | fastFull =>
    exact h.flash.andThen fun _ _ h => (h.activate _).andThen fun _ _ h =>
      (h.waitInSeq.push _).andThen fun _ _ h => h.activate _

/-- DEINIT releases the same bus, and draws the same free values (R153, R284). -/
protected theorem Twin.finishDeinit (h : Twin base s t) : Twin base (finishDeinit s) (finishDeinit t) := by
  rw [finishDeinit_eq, finishDeinit_eq, h.heldBus]
  exact ⟨fun w => (congrArg (fun u => (finishDeinit u).onWire w) (h.eq w) :), h.busIndex, h.clkHz, rfl,
    (h.emit_same (shows_busDeinit _)).shown⟩

end Micro

/-! ## Instructions in both wirings -/

/-- Where the first answers, the second answers a twin of it. -/
def OutcomeTwin (base : List Event) (o o' : Host.Outcome State Fault Refusal) : Prop :=
  ∀ s, o = .next s → ∃ t, o' = .next t ∧ Twin base s t

section Instructions

variable {base : List Event} {s t : State}

theorem Twin.next (h : Twin base s t) : OutcomeTwin base (.next s) (.next t) := by
  rintro _ ⟨⟩
  exact ⟨t, rfl, h⟩

theorem outcomeTwin_refused (e : Refusal) (o : Host.Outcome State Fault Refusal) : OutcomeTwin base (.refused e) o := by
  intro _ h
  cases h

theorem outcomeTwin_ite {c : Prop} [Decidable c] {a b a' b' : Host.Outcome State Fault Refusal} (ha : OutcomeTwin base a a')
    (hb : OutcomeTwin base b b') : OutcomeTwin base (if c then a else b) (if c then a' else b') := by
  split
  · exact ha
  · exact hb

theorem Twin.delivered (h : Twin base s t) (e : Status) : OutcomeTwin base (.next (s.deliver e)) (.next (t.deliver e)) :=
  (h.map (offWire_deliver e)).next

/-- The lifecycle check decides the same in both. -/
theorem Twin.ite_initialised (h : Twin base s t) {a b a' b' : Host.Outcome State Fault Refusal} (ha : OutcomeTwin base a a')
    (hb : OutcomeTwin base b b') :
    OutcomeTwin base (if s.initialised then a else b) (if t.initialised then a' else b') := by
  rw [h.initialised]
  exact outcomeTwin_ite ha hb

theorem Twin.whenInitialised (h : Twin base s t) {a b : Host.Outcome State Fault Refusal} (hab : OutcomeTwin base a b) :
    OutcomeTwin base (s.whenInitialised a) (t.whenInitialised b) := by
  rw [State.whenInitialised, State.whenInitialised]
  exact h.ite_initialised hab (h.delivered _)

/-- How the drawing operations end: a plane replaced by the same bytes. -/
theorem Twin.drawn (h : Twin base s t) (p : Plane) (m : Mem) :
    OutcomeTwin base (.next (s.setPlane p m).complete) (.next (t.setPlane p m).complete) :=
  ((h.map (offWire_setPlane p m)).map offWire_complete).next

protected theorem Twin.execInit (h : Twin base s t) : OutcomeTwin base (execInit s) (execInit t) := by
  rw [execInit, execInit, h.clkHz]
  exact h.ite_initialised (h.delivered _) (outcomeTwin_ite (h.delivered _) h.initBody.endState.next)

protected theorem Twin.execDeinit (h : Twin base s t) : OutcomeTwin base (execDeinit s) (execDeinit t) := by
  rw [execDeinit, execDeinit, h.params]
  exact h.ite_initialised ((h.sendAll _).state.finishDeinit.map offWire_complete).next (h.map offWire_complete).next

/-- A preset leaves the two states with one CFG (R286, R287). -/
theorem Twin.preset (h : Twin base s t) {c d : Cfg} (hcd : d = c) :
    OutcomeTwin base (.next (State.complete { s with cfg := c })) (.next (State.complete { t with cfg := d })) := by
  subst hcd
  exact Twin.next ⟨fun w => congrArg State.complete (h.eq w), rfl, rfl, h.held, h.shown⟩

protected theorem Twin.execCfgdef3 (h : Twin base s t) : OutcomeTwin base (execCfgdef3 s) (execCfgdef3 t) :=
  h.ite_initialised (h.delivered _) (h.preset (congrArg (fun q => presetCfg .threeWire q.preset3) h.params))

protected theorem Twin.execCfgdef4 (h : Twin base s t) : OutcomeTwin base (execCfgdef4 s) (execCfgdef4 t) :=
  h.ite_initialised (h.delivered _) (h.preset (congrArg (fun q => presetCfg .fourWire q.preset4) h.params))

protected theorem Twin.execWrpt (h : Twin base s t) (p : Plane) (x y : Half) (v : Bit) :
    OutcomeTwin base (execWrpt p x y v s) (execWrpt p x y v t) := by
  rw [execWrpt, execWrpt, h.plane]
  exact h.whenInitialised (outcomeTwin_ite (h.drawn p _) (h.delivered _))

protected theorem Twin.execRdpt (h : Twin base s t) (p : Plane) (x y : Half) :
    OutcomeTwin base (execRdpt p x y s) (execRdpt p x y t) := by
  rw [execRdpt, execRdpt, h.plane]
  have hread : OffWire fun u => State.complete { u with rdata := (s.plane p).readPixel x.toNat y.toNat } := fun _ _ => rfl
  exact h.whenInitialised (outcomeTwin_ite (h.map hread).next (h.delivered _))

protected theorem Twin.execFillrect (h : Twin base s t) (p : Plane) (l u r b : Half) (v : Bit) :
    OutcomeTwin base (execFillrect p l u r b v s) (execFillrect p l u r b v t) := by
  rw [execFillrect, execFillrect, h.plane]
  exact h.whenInitialised (outcomeTwin_ite (h.drawn p _) (h.delivered _))

protected theorem Twin.execDrawpic (h : Twin base s t) (p : Plane) (l u r b ptr : Half) :
    OutcomeTwin base (execDrawpic p l u r b ptr s) (execDrawpic p l u r b ptr t) := by
  rw [execDrawpic, execDrawpic, h.plane, h.hbuf, h.params]
  exact h.whenInitialised (outcomeTwin_ite (outcomeTwin_ite (h.drawn p _) (outcomeTwin_refused _ _)) (h.delivered _))

protected theorem Twin.execDrawstr (h : Twin base s t) (p : Plane) (x y ptr len : Half) (v : Bit) (fs : Half) :
    OutcomeTwin base (execDrawstr p x y ptr len v fs s) (execDrawstr p x y ptr len v fs t) := by
  rw [execDrawstr, execDrawstr, h.plane, h.hbuf, h.params]
  refine h.whenInitialised (outcomeTwin_ite ?_ (h.delivered _))
  cases textDots s.params s.hbuf fs.toNat v len.toNat ptr.toNat x.toNat y.toNat with
  | some dots => exact h.drawn p _
  | none => exact outcomeTwin_refused _ _

protected theorem Twin.execSoftstart (h : Twin base s t) (st ti mo : Half) :
    OutcomeTwin base (execSoftstart st ti mo s) (execSoftstart st ti mo t) := by
  rw [execSoftstart, execSoftstart, h.params]
  refine h.whenInitialised ?_
  cases ssEncode s.params st ti mo with
  | none => exact h.delivered _
  | some q => exact (h.sendAll _).endState.next

protected theorem Twin.execUpdate (h : Twin base s t) (y : Half) : OutcomeTwin base (execUpdate y s) (execUpdate y t) := by
  have served : ∀ u, OutcomeTwin base (.next (thenIdle (updateBody u (waitInSeq s))).endState)
      (.next (thenIdle (updateBody u (waitInSeq t))).endState) :=
    fun u => (h.waitInSeq.updateBody u).thenIdle.endState.next
  refine h.whenInitialised ?_
  cases updateTypeOf y with
  | none => exact h.delivered _
  | some u =>
    cases u with
    | fastFull => exact h.delivered _
    | fastPartial => exact served _
    | cleanFull => exact served _
    | cleanFullAggressive => exact served _

protected theorem Twin.execWrupd (h : Twin base s t) (y : Half) : OutcomeTwin base (execWrupd y s) (execWrupd y t) := by
  have hw := h.map (offWire_setSeq .waitingReady)
  refine h.whenInitialised ?_
  cases updateTypeOf y with
  | none => exact h.delivered _
  | some u =>
    dsimp only
    rw [hw.seesBusy]
    exact outcomeTwin_ite (hw.sampleBusy.delivered _) (hw.sampleBusy.wrupdBody u).thenIdle.endState.next

/-- A panel command's place does not depend on the wiring (R111). -/
theorem Twin.place (h : Twin base s t) (i : Instr) : t.place i = s.place i := by
  have hturn : ∀ op, t.turnsAway op = s.turnsAway op := by
    intro op
    cases op <;> simp only [State.turnsAway, h.initialised, h.clkHz]
  have hnext : ∀ u, t.nextIs u i = s.nextIs u i := by
    intro u
    simp only [State.nextIs, hturn, h.isSome, h.params]
  simp only [State.place, h.underway, hnext]

protected theorem Twin.runPanel (h : Twin base s t) (i : Instr) : Twin base (runPanel i s) (runPanel i t) := by
  rw [runPanel, runPanel, h.place, panelTxns_congr h.params h.black h.red]
  cases s.place i with
  | none => exact h.map (f := ({ · with status := .invalidArgument })) fun _ _ => rfl
  | some u =>
    have hsent := h.sendAll (panelTxns s i)
    generalize sendAll (panelTxns s i) s = m, sendAll (panelTxns s i) t = n at hsent ⊢
    cases hsent with
    | done k => exact k.map (offWire_underway _)
    | raised e k =>
      dsimp only
      split
      · exact k.map (offWire_underway _)
      · exact (k.map (offWire_deliver e)).map (offWire_underway none)

/-- The operations branch on the wiring in the transport only, so each keeps two states twins. -/
protected theorem Twin.exec (h : Twin base s t) (i : Instr) : OutcomeTwin base (exec i s) (exec i t) := by
  cases i with
  | init => exact h.execInit
  | deinit => exact h.execDeinit
  | cfgdef3 => exact h.execCfgdef3
  | cfgdef4 => exact h.execCfgdef4
  | clear p => exact h.whenInitialised (h.drawn p _)
  | wrbuf p => exact h.whenInitialised (h.push p).thenIdle.endState.next
  | wrpt p x y v => exact h.execWrpt p x y v
  | rdpt p x y => exact h.execRdpt p x y
  | fillrect p l u r b v => exact h.execFillrect p l u r b v
  | drawpic p l u r b ptr => exact h.execDrawpic p l u r b ptr
  | drawstr p x y ptr len v fs => exact h.execDrawstr p x y ptr len v fs
  | softstart st ti mo => exact h.execSoftstart st ti mo
  | update y => exact h.execUpdate y
  | wrupd y => exact h.execWrupd y
  | _ => exact (h.runPanel _).next

end Instructions

/-- Settles O42: a state and the same state rewired are twins, and what an instruction leaves of twins is twins again. -/
theorem bothWiringsShowTheSameTransactions : Obligations.BothWiringsShowTheSameTransactions := by
  intro i s t _ h
  obtain ⟨t', ht', htwin⟩ := (twin_rewired s).exec i t h
  obtain ⟨es, fs, os, htr, htr', hes, hfs⟩ := htwin.shown
  exact ⟨t', es, fs, ht', htr, htr', hes.view.trans hfs.view.symm, htwin.status, htwin.initialised, htwin.black, htwin.red,
    htwin.rdata⟩

end Sys2Proof.Machine
end

section
/-! The command protocol (41_command_protocol.md): a command that is not an operation's own never shows among what the operation
sends, and how a panel command ends that sends nothing or is cut short. -/

namespace Sys2Proof.Machine

open Sys2Proof

/-! ## Commands an operation never sends (R173) -/

/-- With pairwise distinct opcodes a byte is the opcode of one command only (R9). -/
theorem opcode_injective {p : Params} (hd : p.opcodesDistinct = true) : Function.Injective p.opcode := fun k l h =>
  Option.some.inj (by rw [← panelOpOfByte_opcode hd k, h, panelOpOfByte_opcode hd l])

/-- Where all command frames carry opcodes of some commands, another command's frame is not shown (R111). -/
theorem CommandsAre.cmdObs_not_mem {p : Params} {ks : List PanelOp} {os : List Obs} {k : PanelOp}
    (hd : p.opcodesDistinct = true) (h : CommandsAre p ks os) (hk : k ∉ ks) : cmdObs p k ∉ os := by
  intro hm
  obtain ⟨-, l, hl, hop⟩ := h _ hm (0, p.opcode k) (List.mem_singleton.2 rfl) rfl
  exact hk (opcode_injective hd hop ▸ hl)

/-- Settles O17: neither P.ACT nor a RAM write is among INIT's own commands, and INIT shows no others, however it ends. -/
theorem initActivatesNothing : Obligations.InitActivatesNothing := by
  intro s t os hd h hs
  have hcommands : CommandsAre s.params Instr.init.commands os := exec_commandsAre h hs
  exact ⟨hcommands.cmdObs_not_mem hd (by decide), hcommands.cmdObs_not_mem hd (by decide),
    hcommands.cmdObs_not_mem hd (by decide)⟩

/-! ## A panel word that is no command (log 2) -/

theorem fetch_panel_of_error {p : Params} {w : BitVec 48} {e : Reject} (h : decodePanel p w = .error e) :
    fetch p (.panel w) = none := by simp only [fetch, decode, h]

/-! ## The place of P.SLEEP (R196, R284) -/

/-- P.SLEEP has its place in DEINIT only, and only where P_DEINIT_SLEEP is a byte. -/
theorem place_pSleep {s : State} {u : Underway} (h : s.place .pSleep = some u) :
    u.op = .deinit ∧ ∃ b, s.params.deinitSleep = some b := by
  obtain ⟨-, -, -, ls, hls, hline⟩ := place_eq_some.1 h
  have hop : u.op = .deinit := eq_deinit_of_sleep_mem (command_mem_of_line hls hline (by decide))
  refine ⟨hop, ?_⟩
  rw [hop] at hls
  cases hsleep : s.params.deinitSleep with
  | some b => exact ⟨b, rfl⟩
  | none =>
    simp only [Sending.tasks, hsleep] at hls
    cases hls
    cases hline

/-! ## A panel command cut short (R146, R304, R284) -/

/-- What a sequence of transactions that was cut short leaves: chip-select high, the trace extended, all but the wire unchanged. -/
structure CutShort (s t : State) : Prop where
  frame : t = { s with tr := t.tr, bus := t.bus, ts := t.ts, pin := t.pin, countFeed := t.countFeed }
  csHigh : t.pin.cs = 1
  trace : s.tr <+: t.tr

theorem sendAll_of_not_completes {ts : List Txn} {s : State} (h : ¬ s.completes ts) :
    ∃ t, sendAll ts s = .raised .transportError t ∧ CutShort s t := by
  obtain ⟨pre, x, post, rfl, hpre, hshort⟩ := (completes_or_short s ts).resolve_left h
  exact ⟨_, sendAll_of_short post hpre hshort, rfl, rfl, List.prefix_append _ _⟩

theorem sendAll_panelTxns_of_short {i : Instr} {s : State} {f : PanelOp × List (List Byte)} (hf : wireForm s i = some f)
    (h : ¬ s.writesAll (1 :: f.2.map List.length)) :
    ∃ t, sendAll (panelTxns s i) s = .raised .transportError t ∧ CutShort s t := by
  refine sendAll_of_not_completes fun hc => h ?_
  rw [panelTxns_of_wireForm hf] at hc
  exact wireTxns_lengths s.params f ▸ (completes_iff_writesAll s _).1 hc

/-- The status a panel command raises ends the operation it is a line of (R310). -/
theorem runPanel_of_raised {i : Instr} {s t : State} {u : Underway} {e : Status} (hp : s.place i = some u)
    (hop : u.op ≠ .deinit) (ht : sendAll (panelTxns s i) s = .raised e t) :
    runPanel i s = { t.deliver e with underway := none } := by simp only [runPanel, hp, ht, if_neg hop]

/-- DEINIT goes on at its next line whatever its sleep command raises (R284). -/
theorem runPanel_of_raised_in_deinit {i : Instr} {s t : State} {u : Underway} {e : Status} (hp : s.place i = some u)
    (hop : u.op = .deinit) (ht : sendAll (panelTxns s i) s = .raised e t) :
    runPanel i s = { t with underway := some { op := .deinit, done := u.done + 1 } } := by
  simp only [runPanel, hp, ht, hop, if_true]

theorem exec_panel_of_short {i : Instr} {s : State} {f : PanelOp × List (List Byte)} {u : Underway}
    (hp : s.place i = some u) (hop : u.op ≠ .deinit) (hf : wireForm s i = some f)
    (hw : ¬ s.writesAll (1 :: f.2.map List.length)) :
    ∃ t, exec i s = .next { t.deliver .transportError with underway := none } ∧ CutShort s t := by
  obtain ⟨t, hsend, hcut⟩ := sendAll_panelTxns_of_short hf hw
  exact ⟨t, by rw [exec_panel (isHostOp_of_wireForm hf), runPanel_of_raised hp hop hsend], hcut⟩

theorem exec_pSleep_of_short {s : State} {u : Underway} (hp : s.place .pSleep = some u) (hw : ¬ s.writesAll [1, 1]) :
    ∃ t, exec .pSleep s = .next { t with underway := some { op := .deinit, done := u.done + 1 } } ∧ CutShort s t := by
  obtain ⟨hop, b, hb⟩ := place_pSleep hp
  have hf : wireForm s .pSleep = some (.sleep, [[b]]) := by simp only [wireForm, hb]
  obtain ⟨t, hsend, hcut⟩ := sendAll_panelTxns_of_short hf hw
  exact ⟨t, by rw [exec_panel rfl, runPanel_of_raised_in_deinit hp hop hsend], hcut⟩

/-- Settles O45: out of its place and for a word that is none only STATUS is written; in its place a cut sequence leaves `CutShort`,
which is delivered, but in DEINIT. -/
theorem panelCommandsThatSendNothingOrFail : Obligations.PanelCommandsThatSendNothingOrFail := by
  refine ⟨fun i s hi hp => ?_, fun s w e hc hd => step_of_unnamed hc rfl (fetch_panel_of_error hd), fun s hnone => ?_,
    fun i s f u hp hop hf hw => ?_, fun s u hp hw => ?_⟩
  · rw [exec_panel hi, runPanel_of_no_place hp]
  · refine Option.eq_none_iff_forall_ne_some.2 fun u hu => ?_
    obtain ⟨-, b, hb⟩ := place_pSleep hu
    cases hnone.symm.trans hb
  · obtain ⟨t, hexec, hframe, hcs, htrace⟩ := exec_panel_of_short hp hop hf hw
    exact ⟨_, hexec, congrArg (fun v : State => { v.deliver .transportError with underway := none }) hframe, hcs, htrace⟩
  · obtain ⟨t, hexec, hframe, hcs, htrace⟩ := exec_pSleep_of_short hp hw
    exact ⟨_, hexec, congrArg (fun v : State => { v with underway := some { op := .deinit, done := u.done + 1 } }) hframe,
      hcs, htrace⟩

end Sys2Proof.Machine
end

section
/-! Waiting for ready (42_wait_ready.md): the two outcomes of WAIT_READY, each with its exact trace. -/

namespace Sys2Proof.Machine

open Sys2Proof

/-- The Ready outcome is that of a loop of N_POLL samples whose sample `j` is the first not busy (R200, R201). -/
theorem waitReady_ready {s : State} {j : Nat} (hj : j < s.params.nPoll)
    (hbusy : ∀ i, i < j → s.busyAt i = s.params.busyActive) (hready : s.busyAt j ≠ s.params.busyActive) :
    waitReady s = { s with
      tr := s.tr ++ (List.replicate j [Event.busyRead s.params.busyActive, .delay .poll]).flatten
        ++ [.busyRead (s.busyAt j), .delay .settle]
      busyFeed := s.busyFeed.popMany (j + 1) } := by
  rw [waitReady, waitLoop_ready hj hbusy hready, List.append_assoc]

/-- The TimedOut outcome is that of a loop of N_POLL samples, all busy: neither a poll nor a settle delay follows the last (R200, R201). -/
theorem waitReady_timedOut {s : State} {k : Nat} (hn : s.params.nPoll = k + 1)
    (hbusy : ∀ i, i < k + 1 → s.busyAt i = s.params.busyActive) :
    waitReady s = { s with
      tr := s.tr ++ (List.replicate k [Event.busyRead s.params.busyActive, .delay .poll]).flatten
        ++ [.busyRead s.params.busyActive]
      busyFeed := s.busyFeed.popMany (k + 1) } := by
  rw [waitReady, hn, waitLoop_timedOut hbusy, List.append_assoc]

/-- Settles O46: the loop of N_POLL samples stops at the first that is not busy, or else at the last. -/
theorem waitReadyHasTwoOutcomes : Obligations.WaitReadyHasTwoOutcomes :=
  ⟨fun _ _ => waitReady_ready, fun _ _ => waitReady_timedOut⟩

end Sys2Proof.Machine
end

section
/-! The framebuffer operations WRPT, RDPT and CLEAR (43_framebuffer.md): what each leaves, when it turns away, how pixel writes
combine, and how long a cleared plane reads off. -/

namespace Sys2Proof.Machine

open Sys2Proof

/-! ## Bits and pixels after a pixel write (R81, R210) -/

/-- Every bit of a plane after a pixel write: the pixel's own holds the value, clear for on, and each other bit is as before (R210). -/
theorem bit_writePixel {m : Mem} (h : m.wf 5000) (x y : Nat) (v : Bit) (a : Nat) {b : Nat} (hb : b < 8) :
    ((m.writePixel x y v).read a).getLsbD b =
      if a = wbyte x y ∧ b = wbit x then decide (v = 0) else (m.read a).getLsbD b := by
  by_cases ha : a = wbyte x y
  · subst ha
    by_cases hk : b = wbit x
    · rw [if_pos ⟨rfl, hk⟩, hk, bit_writePixel_same h]
    · rw [if_neg (fun hh => hk hh.2), read_writePixel_same h]
      split
      · simp [getLsbD_clearBit _ _ _ hb, hk]
      · simp [getLsbD_setBit _ _ _ hb, hk]
  · rw [if_neg (fun hh => ha hh.1), read_writePixel_other ha]

/-- Every pixel of the panel after a pixel write. -/
theorem pixel_writePixel {m : Mem} (h : m.wf 5000) {x y x' y' : Nat} (hx : x < 200) (hy : y < 200) (hx' : x' < 200)
    (hy' : y' < 200) (v : Bit) :
    (m.writePixel x y v).pixel x' y' = if x' = x ∧ y' = y then v else m.pixel x' y' := by
  split
  · next heq =>
    obtain ⟨rfl, rfl⟩ := heq
    exact pixel_writePixel_same h _ _ v
  · next hne => exact pixel_writePixel_other h hx hy hx' hy' hne v

/-- Writing a pixel twice is writing it once (R216 (a)). -/
theorem writePixel_idem {m : Mem} (h : m.wf 5000) {x y : Nat} (hx : x < 200) (hy : y < 200) (v : Bit) :
    (m.writePixel x y v).writePixel x y v = m.writePixel x y v := by
  have h1 := writePixel_wf h hx hy v
  refine plane_ext (writePixel_wf h1 hx hy v) h1 (writePixel_fill ..) fun x' y' hx' hy' => ?_
  rw [pixel_writePixel h1 hx hy hx' hy', pixel_writePixel h hx hy hx' hy']
  split <;> rfl

/-- Writes to different pixels of a plane commute (R216 (b)). -/
theorem writePixel_comm {m : Mem} (h : m.wf 5000) {x y x' y' : Nat} (hx : x < 200) (hy : y < 200) (hx' : x' < 200)
    (hy' : y' < 200) (hne : ¬(x' = x ∧ y' = y)) (v v' : Bit) :
    (m.writePixel x y v).writePixel x' y' v' = (m.writePixel x' y' v').writePixel x y v := by
  have h1 := writePixel_wf h hx hy v
  have h2 := writePixel_wf h hx' hy' v'
  refine plane_ext (writePixel_wf h1 hx' hy' v') (writePixel_wf h2 hx hy v) (by simp) fun i j hi hj => ?_
  rw [pixel_writePixel h1 hx' hy' hi hj, pixel_writePixel h hx hy hi hj, pixel_writePixel h2 hx hy hi hj,
    pixel_writePixel h hx' hy' hi hj]
  by_cases hij : i = x ∧ j = y
  · obtain ⟨rfl, rfl⟩ := hij
    rw [if_neg fun hh => hne ⟨hh.1.symm, hh.2.symm⟩, if_pos ⟨rfl, rfl⟩, if_pos ⟨rfl, rfl⟩]
  · rw [if_neg hij, if_neg hij]

/-- Every pixel of a cleared plane reads off, on either path (R82, R214). -/
theorem readPixel_cleared (x y : Nat) : Mem.cleared.readPixel x y = 0 := by
  have hbit : (0xFF : Byte).getLsbD (rbit x) = true := by
    change (BitVec.allOnes 8).getLsbD (rbit x) = true
    rw [BitVec.getLsbD_allOnes]
    exact decide_eq_true (wbit_lt x)
  rw [Mem.readPixel, read_cleared, hbit]
  rfl

/-! ## What the three operations answer (R210, R212, R214) -/

theorem deliver_of_idle {s : State} (h : s.seq = .idle) (e : Status) : s.deliver e = { s with status := e } := by
  rw [State.deliver, ← h]

theorem inPanel_of_outside {x y : Half} (h : 200 ≤ x.toNat ∨ 200 ≤ y.toNat) : inPanel x y ≠ true :=
  fun hin => by have := (inPanel_iff x y).1 hin; omega

/-- What a completed WRPT leaves: one pixel of plane `p` written, STATUS OK (R210). -/
def State.putPixel (s : State) (p : Plane) (x y : Nat) (v : Bit) : State :=
  (s.setPlane p ((s.plane p).writePixel x y v)).complete

theorem exec_wrpt_inside {s : State} (p : Plane) {x y : Half} (v : Bit) (hi : s.initialised = true) (hx : x.toNat < 200)
    (hy : y.toNat < 200) : exec (.wrpt p x y v) s = .next (s.putPixel p x.toNat y.toNat v) := by
  rw [exec, execWrpt, whenInitialised_of_initialised hi, if_pos ((inPanel_iff x y).2 ⟨hx, hy⟩), State.putPixel]

theorem exec_wrpt_outside {s : State} (p : Plane) {x y : Half} (v : Bit) (hi : s.initialised = true)
    (h : 200 ≤ x.toNat ∨ 200 ≤ y.toNat) : exec (.wrpt p x y v) s = .next (s.deliver .invalidArgument) := by
  rw [exec, execWrpt, whenInitialised_of_initialised hi, if_neg (inPanel_of_outside h)]

theorem exec_rdpt_inside {s : State} (p : Plane) {x y : Half} (hi : s.initialised = true) (hx : x.toNat < 200)
    (hy : y.toNat < 200) :
    exec (.rdpt p x y) s = .next { s with status := .ok, rdata := (s.plane p).readPixel x.toNat y.toNat } := by
  rw [exec, execRdpt, whenInitialised_of_initialised hi, if_pos ((inPanel_iff x y).2 ⟨hx, hy⟩), State.complete]

theorem exec_rdpt_outside {s : State} (p : Plane) {x y : Half} (hi : s.initialised = true)
    (h : 200 ≤ x.toNat ∨ 200 ≤ y.toNat) : exec (.rdpt p x y) s = .next (s.deliver .invalidArgument) := by
  rw [exec, execRdpt, whenInitialised_of_initialised hi, if_neg (inPanel_of_outside h)]

theorem exec_clear_of_initialised {s : State} (p : Plane) (hi : s.initialised = true) :
    exec (.clear p) s = .next (s.setPlane p Mem.cleared).complete := by
  rw [exec, execClear, whenInitialised_of_initialised hi]

/-- With SEQ Idle an operation that needs INIT = 1 leaves its status and nothing else (R301, R312). -/
theorem exec_of_needsInit_of_idle {i : Instr} {s : State} (hi : i.needsInit = true) (hs : s.seq = .idle)
    (h0 : s.initialised = false) : exec i s = .next { s with status := .notInitialized } := by
  rw [exec_of_needsInit hi h0, deliver_of_idle hs]

/-! ## What a finished plane operation leaves (R71, R210, R214) -/

/-- An operation that replaces a plane writes the planes and STATUS, nothing else. -/
theorem complete_setPlane_frame (s : State) (p : Plane) (m : Mem) :
    (s.setPlane p m).complete =
      { s with black := (s.setPlane p m).complete.black, red := (s.setPlane p m).complete.red, status := .ok } := by
  cases p <;> rfl

theorem complete_setPlane_plane_same (s : State) (p : Plane) (m : Mem) : (s.setPlane p m).complete.plane p = m := by
  rw [complete_plane, setPlane_plane_same]

theorem complete_setPlane_plane_other (s : State) {p q : Plane} (m : Mem) (h : q ≠ p) :
    (s.setPlane p m).complete.plane q = s.plane q := by
  rw [complete_plane, setPlane_plane_other s p q m h]

@[simp] theorem putPixel_initialised (s : State) (p : Plane) (x y : Nat) (v : Bit) :
    (s.putPixel p x y v).initialised = s.initialised := by simp [State.putPixel]

@[simp] theorem putPixel_plane_same (s : State) (p : Plane) (x y : Nat) (v : Bit) :
    (s.putPixel p x y v).plane p = (s.plane p).writePixel x y v := complete_setPlane_plane_same ..

theorem putPixel_plane_other (s : State) {p q : Plane} (x y : Nat) (v : Bit) (h : q ≠ p) :
    (s.putPixel p x y v).plane q = s.plane q := complete_setPlane_plane_other s _ h

/-- A second write to the plane just written overwrites what the first left of the state. -/
theorem putPixel_putPixel_same (s : State) (p : Plane) (x y x' y' : Nat) (v v' : Bit) :
    (s.putPixel p x y v).putPixel p x' y' v' =
      (s.setPlane p (((s.plane p).writePixel x y v).writePixel x' y' v')).complete := by
  rw [State.putPixel, putPixel_plane_same, State.putPixel, ← complete_setPlane, setPlane_setPlane_same]
  rfl

theorem putPixel_idem {s : State} {p : Plane} (h : (s.plane p).wf 5000) {x y : Nat} (hx : x < 200) (hy : y < 200) (v : Bit) :
    (s.putPixel p x y v).putPixel p x y v = s.putPixel p x y v := by
  rw [putPixel_putPixel_same, writePixel_idem h hx hy, State.putPixel]

/-- Writes to pixels of different planes commute whatever the pixels are (R71). -/
theorem putPixel_comm_of_plane_ne (s : State) {p q : Plane} (hq : q ≠ p) (x y x' y' : Nat) (v v' : Bit) :
    (s.putPixel p x y v).putPixel q x' y' v' = (s.putPixel q x' y' v').putPixel p x y v := by
  rw [State.putPixel, putPixel_plane_other s x y v hq, State.putPixel, State.putPixel, putPixel_plane_other s x' y' v' hq.symm,
    State.putPixel, ← complete_setPlane, ← complete_setPlane, setPlane_comm s p q _ _ hq]

/-- Writes to different pixels, or to one pixel of different planes, commute (R216 (b)). -/
theorem putPixel_comm {s : State} {p q : Plane} {x y x' y' : Nat} (h : (s.plane p).wf 5000) (hx : x < 200) (hy : y < 200)
    (hx' : x' < 200) (hy' : y' < 200) (hne : ¬(q = p ∧ x' = x ∧ y' = y)) (v v' : Bit) :
    (s.putPixel p x y v).putPixel q x' y' v' = (s.putPixel q x' y' v').putPixel p x y v := by
  by_cases hq : q = p
  · subst hq
    rw [putPixel_putPixel_same, putPixel_putPixel_same,
      writePixel_comm h hx hy hx' hy' (fun hh => hne ⟨rfl, hh⟩)]
  · exact putPixel_comm_of_plane_ne s hq x y x' y' v v'

/-! ## The three operations (R210, R212, R214) -/

/-- Settles O23: the address expression is the write transform's, and the two checks stand before the write. -/
theorem wrptWritesOneBit : Obligations.WrptWritesOneBit := by
  refine ⟨fun s p x y v hi hm hx hy => ?_, fun s p x y v hs hi h => ?_, fun s p x y v => exec_of_needsInit_of_idle rfl⟩
  · refine ⟨_, exec_wrpt_inside p v hi hx hy, complete_setPlane_frame s p _,
      fun q hq => putPixel_plane_other s _ _ v hq, ?_, fun a b hb => ?_⟩
    · rw [putPixel_plane_same]
      exact writePixel_wf hm hx hy v
    · rw [putPixel_plane_same]
      exact bit_writePixel hm x.toNat y.toNat v a hb
  · rw [exec_wrpt_outside p v hi h, deliver_of_idle hs]

/-- Settles O24: RDATA is the pixel the read transform looks up, whose row is not inverted. -/
theorem rdptReadsTheUninvertedRow : Obligations.RdptReadsTheUninvertedRow :=
  ⟨fun _ p _ _ hi hx hy => exec_rdpt_inside p hi hx hy,
    fun _ p _ _ hs hi h => by rw [exec_rdpt_outside p hi h, deliver_of_idle hs],
    fun _ _ _ _ => exec_of_needsInit_of_idle rfl⟩

/-- Settles O25: CLEAR replaces its plane by the cleared one. -/
theorem clearFillsThePlane : Obligations.ClearFillsThePlane := by
  refine ⟨fun s p hi => ⟨_, exec_clear_of_initialised p hi, complete_setPlane_frame s p _,
    fun q hq => complete_setPlane_plane_other s _ hq, ?_⟩, fun s p => exec_of_needsInit_of_idle rfl⟩
  rw [complete_setPlane_plane_same]
  exact ⟨read_cleared, cleared_wf 5000⟩

/-! ## Pixel laws (R216, R217) -/

theorem State.Inv.plane_wf {s : State} (h : s.Inv) : ∀ p, (s.plane p).wf 5000
  | .black => h.blackWf
  | .red => h.redWf

/-- The mirrored row of a row of the panel, as a 16-bit operand (R82). -/
theorem toNat_mirrored {y : Half} (hy : y.toNat < 200) : (199 - y).toNat = 199 - y.toNat := by bv_omega

/-- The read path at the same coordinates looks at another pixel than the one written: no row is its own mirror, 199 being odd (R82). -/
theorem readPixel_writePixel_unaffected {m : Mem} (h : m.wf 5000) {x y : Nat} (hx : x < 200) (hy : y < 200) (v : Bit) :
    (m.writePixel x y v).readPixel x y = m.readPixel x y := by
  rw [readPixel_eq_pixel _ hy, readPixel_eq_pixel _ hy, pixel_writePixel_other h hx hy hx (by omega) (by omega)]

/-- The read path through the mirrored row returns the pixel written (R216 (c), R217). -/
theorem readPixel_writePixel_mirrored {m : Mem} (h : m.wf 5000) (x : Nat) {y : Nat} (hy : y < 200) (v : Bit) :
    (m.writePixel x y v).readPixel x (199 - y) = v := by
  rw [readPixel_eq_pixel _ (by omega), show 199 - (199 - y) = y by omega, pixel_writePixel_same h]

/-- Settles O26: the laws of pixel writes, with the read path's row mirrored. -/
theorem pixelWriteAndReadLaws : Obligations.PixelWriteAndReadLaws := by
  intro s p x y v hinv hi hx hy
  have hm := hinv.plane_wf p
  have hit := (putPixel_initialised s p x.toNat y.toNat v).trans hi
  refine ⟨_, exec_wrpt_inside p v hi hx hy, ?_, fun q x' y' v' hx' hy' hne => ?_, ?_, ?_⟩
  · rw [exec_wrpt_inside p v hit hx hy, putPixel_idem hm hx hy]
  · have hpixel : ¬(q = p ∧ x'.toNat = x.toNat ∧ y'.toNat = y.toNat) := by
      rintro ⟨rfl, hxx, hyy⟩
      exact hne (by rw [BitVec.eq_of_toNat_eq hxx, BitVec.eq_of_toNat_eq hyy])
    refine ⟨_, _, exec_wrpt_inside q v' hit hx' hy', exec_wrpt_inside q v' hi hx' hy', ?_⟩
    rw [exec_wrpt_inside p v ((putPixel_initialised ..).trans hi) hx hy, putPixel_comm hm hx hy hx' hy' hpixel]
  · refine ⟨_, exec_rdpt_inside p hit hx (by rw [toNat_mirrored hy]; omega), ?_⟩
    rw [putPixel_plane_same, toNat_mirrored hy]
    exact readPixel_writePixel_mirrored hm _ hy v
  · refine ⟨_, _, exec_rdpt_inside p hit hx hy, exec_rdpt_inside p hi hx hy, ?_, readPixel_eq_pixel _ hy⟩
    rw [putPixel_plane_same]
    exact readPixel_writePixel_unaffected hm hx hy v

/-! ## A cleared plane until it is written (R214, R216) -/

theorem DrawEnded.initialised {i : Instr} {p : Plane} {s t : State} (h : DrawEnded i p s t) : t.initialised = s.initialised := by
  cases h with
  | rejected e _ ht => exact ht ▸ rfl
  | drawn _ _ m _ _ ht => simp [ht]
  | read _ _ _ _ ht => exact ht ▸ rfl

theorem Ended.initialised {ks : List PanelOp} {s t : State} (h : Ended ks s t) : t.initialised = s.initialised := by
  cases h with
  | rejected e _ ht => exact ht ▸ rfl
  | ok u hr _ ht => exact ht ▸ hr.initialised
  | failed u hr _ ht => exact ht ▸ hr.initialised

/-- Only INIT and DEINIT change the mode (R320). -/
theorem exec_initialised {i : Instr} {s t : State} (hinit : i ≠ .init) (hdeinit : i ≠ .deinit) (h : exec i s = .next t) :
    t.initialised = s.initialised := by
  rcases exec_cases i s t h with ⟨hi, _⟩ | ⟨hi, _⟩ | ⟨_, hc⟩ | ⟨_, _, _, _, hd⟩ | ⟨_, hu⟩ | ⟨_, hp⟩
  · exact absurd hi hinit
  · exact absurd hi hdeinit
  · rcases hc with ⟨_, rfl⟩ | ⟨_, _, rfl⟩ <;> rfl
  · exact hd.initialised
  · rcases hu with he | ⟨_, rfl⟩ | ⟨_, _, rfl⟩
    · exact he.initialised
    · rfl
    · rfl
  · exact hp.initialised

theorem execAll_cons {i : Instr} {is : List Instr} {s u : State} (h : execAll (i :: is) s = some u) :
    ∃ t, exec i s = .next t ∧ execAll is t = some u := by
  rw [execAll] at h
  split at h
  · next t ht => exact ⟨t, ht, h⟩
  · cases h
  · cases h

/-- A run of instructions none of which writes plane `p` keeps the mode and the plane (R36). -/
theorem execAll_keeps_plane {p : Plane} {is : List Instr} {s u : State} (hw : ∀ i ∈ is, i.writesPlane p = false)
    (h : execAll is s = some u) : u.initialised = s.initialised ∧ u.plane p = s.plane p := by
  induction is generalizing s with
  | nil =>
    cases h
    exact ⟨rfl, rfl⟩
  | cons i is ih =>
    obtain ⟨t, hi, his⟩ := execAll_cons h
    have hiw := hw i List.mem_cons_self
    obtain ⟨hmode, hplane⟩ := ih (fun j hj => hw j (List.mem_cons_of_mem i hj)) his
    have hinit : i ≠ .init := by rintro rfl; cases hiw
    have hdeinit : i ≠ .deinit := by rintro rfl; cases hiw
    exact ⟨hmode.trans (exec_initialised hinit hdeinit hi), hplane.trans ((exec_wrote hi).plane_eq hiw)⟩

/-- Settles O27: the run keeps INIT = 1 and the cleared plane, whose pixels all read off. -/
theorem clearedPlaneReadsOffUntilWritten : Obligations.ClearedPlaneReadsOffUntilWritten := by
  intro s t u p is x y hi hclear hw hrun hx hy
  obtain ⟨hmode, hplane⟩ := execAll_keeps_plane hw hrun
  cases (exec_clear_of_initialised p hi).symm.trans hclear
  rw [complete_setPlane_plane_same] at hplane
  rw [exec_rdpt_inside p (hmode.trans (by simpa using hi)) hx hy, hplane, readPixel_cleared]

end Sys2Proof.Machine
end

section
/-! The invariant (10_state.md, 44_update_sequencer.md R230): every way an instruction can end keeps it, so does every move of the
host, and so does every step. -/

namespace Sys2Proof.Machine

open Sys2Proof

/-! ## What the invariant does not speak of -/

theorem inv_enter {s : State} (h : s.Inv) (w : CmdWord) : (s.enter w).Inv := by
  cases w with
  | descriptor w => exact { h with }
  | panel w => exact { h with }

theorem inv_status {s : State} (h : s.Inv) (e : Status) : State.Inv { s with status := e } := { h with }

theorem inv_complete {s : State} (h : s.Inv) : s.complete.Inv := inv_status h .ok

/-- A delivery ends the sequencing, wherever it stood (R310). -/
theorem inv_deliver {s : State} (h : (s.setSeq .idle).Inv) (e : Status) : (s.deliver e).Inv := inv_status h e

theorem inv_setSeq_idle {s : State} (h : s.Inv) : (s.setSeq .idle).Inv := { h with seqIdle := rfl }

theorem inv_of_seq_idle {s : State} (h : (s.setSeq .idle).Inv) (hs : s.seq = .idle) : s.Inv := { h with seqIdle := hs }

theorem inv_turnAway {s : State} (h : s.Inv) (w : CmdWord) : (s.turnAway w).Inv := by
  cases w with
  | descriptor w => exact inv_deliver (inv_setSeq_idle h) _
  | panel w => exact inv_status h _

/-! ## What INIT = 1 asks for -/

/-- With INIT = 0 the invariant is about the spaces, about standing at rest, and about chip-select where a bus is still held. -/
theorem inv_of_not_initialised {s : State} (h0 : s.initialised = false) (hblack : s.black.wf Config.planeBytes)
    (hred : s.red.wf Config.planeBytes) (hhbuf : s.hbuf.wf s.params.hbufSize) (hseq : s.seq = .idle)
    (hrest : s.underway = none) (hcs : s.ts.isSome → s.pin.cs = 1) : s.Inv where
  blackWf := hblack
  redWf := hred
  hbufWf := hhbuf
  seqIdle := hseq
  atRest := hrest
  csHigh := hcs
  held hi := by simp [h0] at hi
  clock hi := by simp [h0] at hi
  released hi := by simp [h0] at hi
  fills hi := by simp [h0] at hi

/-! ## Waits and transactions -/

/-- Whatever waits and transactions do, back in Idle the invariant holds: chip-select is high again, RST is not driven, and the held
bus stays the configured one at the configured clock (R141, R143). -/
theorem Ran.inv {ks : List PanelOp} {s u : State} (h : Ran ks s u) (hs : s.Inv) : (u.setSeq .idle).Inv where
  blackWf := h.black ▸ hs.blackWf
  redWf := h.red ▸ hs.redWf
  hbufWf := by simpa [h.hbuf, h.params] using hs.hbufWf
  seqIdle := rfl
  atRest := by rw [setSeq_underway, h.frame]; exact hs.atRest
  csHigh hts := h.csHigh (hs.csHigh (h.isSome ▸ hts))
  held hi := h.held (hs.held (h.initialised ▸ hi))
  clock hi := by simpa [h.cfg] using hs.clock (h.initialised ▸ hi)
  released hi := h.rst.trans (hs.released (h.initialised ▸ hi))
  fills hi := by simpa [h.black, h.red] using hs.fills (h.initialised ▸ hi)

theorem Ended.inv {ks : List PanelOp} {s t : State} (h : Ended ks s t) (hs : s.Inv) : t.Inv := by
  cases h with
  | rejected e _ ht => exact ht ▸ inv_deliver (inv_setSeq_idle hs) e
  | ok u hr hu ht => exact ht ▸ inv_complete (inv_of_seq_idle (hr.inv hs) (hu.elim id (·.trans hs.seqIdle)))
  | failed u hr _ ht => exact ht ▸ inv_deliver (hr.inv hs) _

/-! ## INIT and DEINIT (R280, R284) -/

theorem opened_holds (s : State) : (rstPulse (opened s)).holds := by
  rw [rstPulse_eq, opened_eq]
  exact ⟨_, rfl, rfl, rfl⟩

theorem inv_rstPulse_opened {s : State} (hs : s.Inv) (h0 : s.initialised = false) : (rstPulse (opened s)).Inv := by
  rw [rstPulse_eq, opened_eq]
  exact inv_of_not_initialised h0 hs.blackWf hs.redWf hs.hbufWf hs.seqIdle hs.atRest fun _ => rfl

/-- A successful INIT sets the mode where all that INIT = 1 asks for is there: the bus it opened, the clock it checked, RST high after
its pulse, both planes cleared (R34, R36, R52). -/
theorem inv_finishInit {u : State} (hu : (u.setSeq .idle).Inv) (hheld : u.holds) (hclock : u.cfg.clkHz ≠ 0)
    (hrst : u.pin.rst = 1) : (finishInit u).Inv where
  blackWf := cleared_wf _
  redWf := cleared_wf _
  hbufWf := hu.hbufWf
  seqIdle := rfl
  atRest := hu.atRest
  csHigh := hu.csHigh
  held _ := hheld
  clock _ := hclock
  released _ := hrst
  fills _ := ⟨rfl, rfl⟩

theorem InitEnded.inv {s t : State} (h : InitEnded s t) (hs : s.Inv) : t.Inv := by
  cases h with
  | already _ ht => exact ht ▸ inv_deliver (inv_setSeq_idle hs) _
  | badClock _ _ ht => exact ht ▸ inv_deliver (inv_setSeq_idle hs) _
  | noRate h0 _ _ ht => exact ht ▸ inv_of_not_initialised h0 hs.blackWf hs.redWf hs.hbufWf rfl hs.atRest nofun
  | ok h0 hclock _ u hr ht =>
    have hclock' : u.cfg.clkHz ≠ 0 := by rw [hr.cfg, rstPulse_eq, opened_eq]; exact hclock
    have hrst : u.pin.rst = 1 := by rw [hr.rst, rstPulse_eq]
    exact ht ▸ inv_complete (inv_finishInit (hr.inv (inv_rstPulse_opened hs h0)) (hr.held (opened_holds s)) hclock' hrst)
  | failed h0 _ _ u hr _ ht => exact ht ▸ inv_deliver (hr.inv (inv_rstPulse_opened hs h0)) _

/-- DEINIT leaves no bus, no mode and two planes of unspecified bytes (R284, R52). -/
theorem inv_finishDeinit {u : State} (hu : (u.setSeq .idle).Inv) : (finishDeinit u).Inv := by
  rw [finishDeinit_eq]
  exact inv_of_not_initialised rfl (unspecified_wf _ _) (unspecified_wf _ _) hu.hbufWf rfl hu.atRest nofun

/-! ## The other instructions -/

/-- A plane is replaced by one in canonical form, of the same fill or all ones (R36, R214). -/
theorem inv_setPlane {s : State} (hs : s.Inv) (p : Plane) {m : Mem} (hw : m.wf Config.planeBytes)
    (hf : m.fill = (s.plane p).fill ∨ m.fill = .ones) : (s.setPlane p m).Inv := by
  have hfill : s.initialised → m.fill = .ones := fun hi => by
    obtain ⟨hblack, hred⟩ := hs.fills hi
    cases p with
    | black => exact hf.elim (·.trans hblack) id
    | red => exact hf.elim (·.trans hred) id
  cases p with
  | black => exact { hs with blackWf := hw, fills := fun hi => ⟨hfill hi, (hs.fills hi).2⟩ }
  | red => exact { hs with redWf := hw, fills := fun hi => ⟨(hs.fills hi).1, hfill hi⟩ }

theorem DrawEnded.inv {i : Instr} {p : Plane} {s t : State} (h : DrawEnded i p s t) (hs : s.Inv) : t.Inv := by
  cases h with
  | rejected e _ ht => exact ht ▸ inv_deliver (inv_setSeq_idle hs) e
  | drawn _ _ m hf hw ht => exact ht ▸ inv_complete (inv_setPlane hs p (hw (hs.plane_wf p)) hf)
  | read _ _ _ _ ht => exact ht ▸ { hs with }

/-- At rest no panel command is in its place, and out of it only STATUS is written (log 31). -/
theorem PanelEnded.inv {i : Instr} {s t : State} (h : PanelEnded i s t) (hs : s.Inv) : t.Inv := by
  have hnone := place_of_atRest i hs.atRest
  cases h with
  | outOfPlace _ ht => exact ht ▸ inv_status hs _
  | sent u hp => simp [hnone] at hp
  | failed u hp => simp [hnone] at hp

/-- CFG may be anything while INIT = 0 (R32). -/
theorem inv_cfg {s : State} (hs : s.Inv) (h0 : s.initialised = false) (c : Cfg) : State.Inv { s with cfg := c } :=
  inv_of_not_initialised h0 hs.blackWf hs.redWf hs.hbufWf hs.seqIdle hs.atRest hs.csHigh

/-- Every instruction that answers keeps the invariant. -/
theorem exec_inv {i : Instr} {s t : State} (hs : s.Inv) (h : exec i s = .next t) : t.Inv := by
  rcases exec_cases i s t h with ⟨_, hi⟩ | ⟨_, hd⟩ | ⟨_, hc⟩ | ⟨_, _, _, _, hd⟩ | ⟨_, hu⟩ | ⟨_, hp⟩
  · exact hi.inv hs
  · rcases hd with ⟨_, rfl⟩ | ⟨u, _, rfl, hr⟩
    · exact inv_complete hs
    · exact inv_complete (inv_finishDeinit (hr.inv hs))
  · rcases hc with ⟨_, rfl⟩ | ⟨h0, c, rfl⟩
    · exact inv_deliver (inv_setSeq_idle hs) _
    · exact inv_complete (inv_cfg hs h0 c)
  · exact hd.inv hs
  · rcases hu with he | ⟨_, rfl⟩ | ⟨_, _, rfl⟩
    · exact he.inv hs
    · exact inv_deliver (inv_setSeq_idle hs) _
    · exact inv_deliver (((ran_setSeq [] s _).trans (ran_sampleBusy [] _)).inv hs) _
  · exact hp.inv hs

/-! ## The host's moves, and a step -/

theorem inv_writeReg {s : State} (hs : s.Inv) (r : HostReg) (v : Quad) : (s.writeReg r v).Inv := by
  cases h : s.initialised with
  | true => rw [writeReg_of_initialised r v h]; exact hs
  | false => rw [writeReg_of_not_initialised r v h]; exact inv_cfg hs h _

theorem inv_powerOn (s : State) : s.powerOn.Inv :=
  inv_of_not_initialised rfl (unspecified_wf _ _) (unspecified_wf _ _) (unspecified_wf _ _) rfl rfl nofun

theorem hostMove_inv {m : HostMove} {s t : State} (hs : s.Inv) (h : hostMove m s = .next t) : t.Inv := by
  cases m with
  | writeCmd w => cases h; exact { hs with }
  | readCmd => cases h
  | writeReg r v => cases h; exact inv_writeReg hs r v
  | readReg r => cases h; exact { hs with }
  | writeHbuf a v =>
    simp only [hostMove] at h
    split at h
    · next ha => cases h; exact { hs with hbufWf := write_wf hs.hbufWf ha v }
    · cases h
  | powerCycle => cases h; exact inv_powerOn s

/-- Settles O10: the latch, the rejection of a word and the host's moves keep the invariant as every instruction does, and no step
resumes an operation, for none is under way. -/
theorem everyStepKeepsTheInvariant : Obligations.EveryStepKeepsTheInvariant := by
  intro s t hs h
  cases step_cases h with
  | ran w i _ _ _ ht => exact exec_inv (inv_enter hs w) ht
  | turnedAway w _ _ _ ht => exact ht ▸ inv_turnAway (inv_enter hs w) w
  | resumed u _ hu => simp [hs.atRest] at hu
  | moved m ms _ _ _ ht => exact hostMove_inv (s := { s with hostMoves := ms }) { hs with } ht
  | idle _ _ _ ht => exact ht ▸ hs

end Sys2Proof.Machine
end

section
/-! The update sequencer (44_update_sequencer.md): what WRBUF, UPDATE, WRUPD and SOFTSTART answer, what they leave where every write
completes, and that none but a push looks at a plane. -/

namespace Sys2Proof.Machine

open Sys2Proof

/-! ## Update types (R231) -/

/-- The four types are 0 to 3; there is no other (R231). -/
theorem updateTypeOf_eq_none_iff (y : Half) : updateTypeOf y = none ↔ 3 < y.toNat := by
  constructor
  · intro h
    by_contra hle
    have hy : y = 0 ∨ y = 1 ∨ y = 2 ∨ y = 3 := by bv_omega
    rcases hy with rfl | rfl | rfl | rfl <;> cases h
  · intro h
    obtain ⟨h0, h1, h2, h3⟩ : y ≠ 0 ∧ y ≠ 1 ∧ y ≠ 2 ∧ y ≠ 3 := by bv_omega
    rw [updateTypeOf, if_neg h0, if_neg h1, if_neg h2, if_neg h3]

/-! ## The busy check (R203) -/

theorem busyLevel_eq_busyAt (s : State) : s.busyLevel = s.busyAt 0 := (Feed.nth_zero Config.freeBusy s.busyFeed).symm

theorem seesBusy_iff (s : State) : s.seesBusy = true ↔ s.busyAt 0 = s.params.busyActive := by
  rw [State.seesBusy, busyLevel_eq_busyAt, decide_eq_true_iff]

/-! ## What the four operations answer (R236, R240, R241, R244, R250) -/

section Answers

variable {s : State}

theorem exec_wrbuf_of_initialised (p : Plane) (hi : s.initialised = true) :
    exec (.wrbuf p) s = .next (thenIdle (push p s)).endState := by
  rw [exec, execWrbuf, whenInitialised_of_initialised hi]

theorem exec_update_of_served {y : Half} {u : UpdateType} (hi : s.initialised = true) (hy : updateTypeOf y = some u)
    (hu : u ≠ .fastFull) : exec (.update y) s = .next (thenIdle (updateBody u (waitInSeq s))).endState := by
  rw [exec, execUpdate, whenInitialised_of_initialised hi, hy]
  cases u with
  | fastFull => exact absurd rfl hu
  | _ => rfl

theorem exec_update_fastFull (hi : s.initialised = true) : exec (.update 2) s = .next (s.deliver .notSupported) := by
  rw [exec, execUpdate, whenInitialised_of_initialised hi]
  rfl

theorem exec_update_of_unknown {y : Half} (hi : s.initialised = true) (hy : updateTypeOf y = none) :
    exec (.update y) s = .next (s.deliver .invalidArgument) := by
  rw [exec, execUpdate, whenInitialised_of_initialised hi, hy]

theorem exec_wrupd_of_unknown {y : Half} (hi : s.initialised = true) (hy : updateTypeOf y = none) :
    exec (.wrupd y) s = .next (s.deliver .invalidArgument) := by
  rw [exec, execWrupd, whenInitialised_of_initialised hi, hy]

theorem exec_wrupd_of_busy {y : Half} {u : UpdateType} (hi : s.initialised = true) (hy : updateTypeOf y = some u)
    (hb : s.busyAt 0 = s.params.busyActive) :
    exec (.wrupd y) s = .next ((sampleBusy (s.setSeq .waitingReady)).deliver .busy) := by
  rw [exec, execWrupd, whenInitialised_of_initialised hi, hy]
  exact if_pos ((seesBusy_iff s).2 hb)

theorem exec_wrupd_of_notBusy {y : Half} {u : UpdateType} (hi : s.initialised = true) (hy : updateTypeOf y = some u)
    (hb : s.busyAt 0 ≠ s.params.busyActive) :
    exec (.wrupd y) s = .next (thenIdle (wrupdBody u (sampleBusy (s.setSeq .waitingReady)))).endState := by
  rw [exec, execWrupd, whenInitialised_of_initialised hi, hy]
  exact if_neg (mt (seesBusy_iff s).1 hb)

theorem exec_softstart_of_bytes {st ti mo : Half} {q : SoftStartBytes} (hi : s.initialised = true)
    (hq : ssEncode s.params st ti mo = some q) :
    exec (.softstart st ti mo) s = .next (sendAll (txnsSoftst s.params q) s).endState := by
  rw [exec, execSoftstart, whenInitialised_of_initialised hi, hq]

theorem exec_softstart_of_invalid {st ti mo : Half} (hi : s.initialised = true) (hq : ssEncode s.params st ti mo = none) :
    exec (.softstart st ti mo) s = .next (s.deliver .invalidArgument) := by
  rw [exec, execSoftstart, whenInitialised_of_initialised hi, hq]

end Answers

/-! ## Turned away (R241, R245) -/

/-- Settles O50: with SEQ Idle the delivery of the status changes STATUS alone. -/
theorem updateTypesRejected : Obligations.UpdateTypesRejected := by
  refine ⟨fun s y hi hs h => ?_, fun s hi hs => by rw [exec_update_fastFull hi, deliver_of_idle hs]⟩
  have hy := (updateTypeOf_eq_none_iff y).2 h
  exact ⟨by rw [exec_update_of_unknown hi hy, deliver_of_idle hs], by rw [exec_wrupd_of_unknown hi hy, deliver_of_idle hs]⟩

/-- Settles O51: one sample at the busy level, and the delivery of Busy brings SEQ back. -/
theorem wrupdOnABusyPanelDoesNothing : Obligations.WrupdOnABusyPanelDoesNothing := by
  intro s y hi hs hle hb
  obtain ⟨u, hy⟩ := Option.ne_none_iff_exists'.1 (mt (updateTypeOf_eq_none_iff y).1 (Nat.not_lt.2 hle))
  rw [exec_wrupd_of_busy hi hy hb, ← hb, ← busyLevel_eq_busyAt, Feed.popMany_one]
  simp only [sampleBusy, State.deliver, State.emit, State.setSeq, State.busyLevel, ← hs]

/-! ## Sequences none of whose writes is short (R230, R232 to R234) -/

/-- The micro-operation `x`, begun in `s`, is done after what `Did` says, and the next bus writes to come, of the lengths `rest`, are
again complete. -/
def Passed (s : State) (x : Micro) (n : Nat) (m : Option Bit) (j : Nat) (os : List Obs) (rest : List Nat) : Prop :=
  ∃ t, x = .done t ∧ Did s t n m j os ∧ t.writesAll rest

/-- Operation `i`, begun in `s`, goes through to its end: the wire as `n` writes left it, the last of mode `b`, SEQ Idle, STATUS OK,
`j` BUSY samples taken (R230), and a trace that shows as `os`. -/
def State.Finishes (s : State) (i : Instr) (n : Nat) (b : Bit) (j : Nat) (os : List Obs) : Prop :=
  ∃ t, exec i s = .next t ∧
    t = { s.wireEffect n b with tr := t.tr, seq := .idle, status := .ok, busyFeed := s.busyFeed.popMany j } ∧
    s.shows t os

section Passed

variable {s : State} {x : Micro} {n j : Nat} {m : Option Bit} {os : List Obs} {rest : List Nat}

theorem passed_start (hw : s.writesAll rest) : Passed s (.done s) 0 none 0 [] rest := ⟨s, rfl, Did.refl s, hw⟩

/-- One more part of a sequence, which takes the next writes. -/
theorem Passed.andThen {ls : List Nat} {f : State → Micro} {m' : Option Bit} {j' : Nat} {os' : List Obs}
    (h : Passed s x n m j os (ls ++ rest))
    (hf : ∀ t, Did s t n m j os → t.writesAll ls → ∃ u, f t = .done u ∧ Did t u ls.length m' j' os') :
    Passed s (x.andThen f) (n + ls.length) (m'.or m) (j + j') (os ++ os') rest := by
  obtain ⟨t, rfl, hd, hw⟩ := h
  obtain ⟨u, hu, hd'⟩ := hf t hd (writesAll_prefix hw)
  exact ⟨u, hu, hd.trans hd', hd'.writes rfl hw⟩

theorem Passed.push (h : Passed s x n m j os (List.replicate 14 1 ++ [5000] ++ rest)) (p : Plane) :
    Passed s (x.andThen (push p)) (n + 15) (some 1) j (os ++ pushObs s.params p (s.plane p).planeBytes) rest :=
  h.andThen fun t hd hw => by
    have hpush := did_push p hw
    rwa [hd.params, hd.plane] at hpush

theorem Passed.flash (h : Passed s x n m j os (List.replicate 14 1 ++ [5000] ++ rest)) :
    Passed s (x.andThen flash) (n + 15) (some 1) j (os ++ pushObs s.params .black flashBytes) rest :=
  h.andThen fun t hd hw => by
    have hflash := did_flash hw
    rwa [hd.params] at hflash

theorem Passed.activate (h : Passed s x n m j os (List.replicate 6 1 ++ rest)) (w : Waveform) :
    Passed s (x.andThen (activate w)) (n + 6) (some 0) j (os ++ actObs s.params (waveformByte w)) rest :=
  h.andThen fun t hd hw => by
    have hact := did_activate w hw
    rwa [hd.params] at hact

/-- A wait takes the BUSY samples from where the sequence stands (R200). -/
theorem Passed.wait (h : Passed s x n m j os rest) :
    Passed s (x.andThen fun t => .done (waitInSeq t)) n m (s.afterWait j) (os ++ s.waitObs j) rest := by
  obtain ⟨t, rfl, hd, hw⟩ := h
  have hwait := did_waitInSeq t
  obtain ⟨hobs, hafter⟩ := hd.waitObs
  have htrans := hd.trans hwait
  rw [hobs, hafter] at htrans
  exact ⟨_, rfl, htrans, hwait.writes (l := []) rfl hw⟩

/-- The first part of a sequence is begun in the state that stands there. -/
theorem Passed.begun {t : State} {f : State → Micro} (h : Passed s ((Micro.done t).andThen f) n m j os rest) :
    Passed s (f t) n m j os rest := h

/-- Where the sequence passed, what ends the operation leaves just SEQ Idle and STATUS OK behind it (R12, R230). -/
theorem Passed.finishes {i : Instr} {b : Bit} (h : Passed s x n (some b) j os rest)
    (hexec : exec i s = .next (thenIdle x).endState) : s.Finishes i n b j os := by
  obtain ⟨t, rfl, hd, -⟩ := h
  obtain ⟨es, htr, hes⟩ := hd.shown
  exact ⟨_, hexec, congrArg (fun u : State => (u.setSeq .idle).complete) hd.eq, es, htr, hes.view⟩

end Passed

/-- A wait answers at once with the state for the next part. -/
theorem wait_andThen (x : Micro) (f : State → Micro) :
    (x.andThen fun t => .done (waitInSeq t)).andThen f = x.andThen fun t => f (waitInSeq t) := by
  cases x <;> rfl

/-- UPDATE's leading wait (R240). -/
theorem passed_wait {s : State} {rest : List Nat} (hw : s.writesAll rest) :
    Passed s (.done (waitInSeq s)) 0 none (s.afterWait 0) (s.waitObs 0) rest := (passed_start hw).wait.begun

/-- WRUPD's one sample before its body (R203, R244). -/
theorem passed_sample {s : State} {rest : List Nat} (hw : s.writesAll rest) :
    Passed s (.done (sampleBusy (s.setSeq .waitingReady))) 0 none 1 [.busyRead (s.busyAt 0)] rest :=
  ⟨_, rfl, (did_setSeq s .waitingReady).trans (did_sampleBusy _), hw⟩

/-! ## WRBUF and UPDATE (R236, R240) -/

/-- Settles O48: one push. -/
theorem wrbufPushesThePlane : Obligations.WrbufPushesThePlane := by
  intro s p hi hw
  have hpush := ((passed_start (rest := List.replicate 14 1 ++ [5000] ++ []) hw).push p).begun
  exact hpush.finishes (exec_wrbuf_of_initialised p hi)

/-- A served type whose body is one activation (R240). -/
theorem update_finishes {s : State} {y : Half} (w : Waveform) (hw : s.writesAll (List.replicate 6 1))
    (hexec : exec (.update y) s = .next (thenIdle (activate w (waitInSeq s))).endState) :
    s.Finishes (.update y) 6 0 (s.afterWait 0) (s.waitObs 0 ++ actObs s.params (waveformByte w)) :=
  ((passed_wait (rest := List.replicate 6 1 ++ []) hw).activate w).begun.finishes hexec

/-- Settles O49: the wait and an activation; for CleanFullAggressive a second wait and a second activation. -/
theorem updateWaitsAndActivates : Obligations.UpdateWaitsAndActivates := by
  refine ⟨fun s hi hw => ?_, fun s hi hw => ?_, fun s hi hw => ?_⟩
  · exact update_finishes .partialWave hw (exec_update_of_served (u := .fastPartial) hi rfl (by decide))
  · exact update_finishes .cleanWave hw (exec_update_of_served (u := .cleanFull) hi rfl (by decide))
  · have hfirst := ((passed_wait (rest := List.replicate 6 1 ++ (List.replicate 6 1 ++ [])) hw).activate .cleanWave).begun
    have hall := hfirst.wait.activate .cleanWave
    rw [wait_andThen] at hall
    exact hall.finishes (exec_update_of_served (u := .cleanFullAggressive) hi rfl (by decide))

/-! ## WRUPD on a panel that is not busy (R244, R246) -/

/-- A type whose body is the push and one activation (R244). -/
theorem wrupd_finishes {s : State} {y : Half} (w : Waveform)
    (hw : s.writesAll (List.replicate 14 1 ++ [5000] ++ List.replicate 6 1))
    (hexec : exec (.wrupd y) s =
      .next (thenIdle ((push .black (sampleBusy (s.setSeq .waitingReady))).andThen (activate w))).endState) :
    s.Finishes (.wrupd y) 21 0 1
      ([.busyRead (s.busyAt 0)] ++ pushObs s.params .black s.black.planeBytes ++ actObs s.params (waveformByte w)) := by
  have hpush := ((passed_sample (rest := List.replicate 14 1 ++ [5000] ++ (List.replicate 6 1 ++ [])) hw).push .black).begun
  exact (hpush.activate w).finishes hexec

/-- Settles O52: the sample, the push and an activation; for CleanFullAggressive a wait and a second activation. -/
theorem wrupdPushesAndActivates : Obligations.WrupdPushesAndActivates := by
  refine ⟨fun s hi hb hw => ?_, fun s hi hb hw => ?_, fun s hi hb hw => ?_⟩
  · exact wrupd_finishes .partialWave hw (exec_wrupd_of_notBusy (u := .fastPartial) hi rfl hb)
  · exact wrupd_finishes .cleanWave hw (exec_wrupd_of_notBusy (u := .cleanFull) hi rfl hb)
  · have hpush := ((passed_sample
      (rest := List.replicate 14 1 ++ [5000] ++ (List.replicate 6 1 ++ (List.replicate 6 1 ++ []))) hw).push .black).begun
    have hall := (hpush.activate .cleanWave).wait.activate .cleanWave
    rw [wait_andThen, andThen_assoc] at hall
    exact hall.finishes (exec_wrupd_of_notBusy (u := .cleanFullAggressive) hi rfl hb)

/-- Settles O53: the sample, a flash and an activation, one wait, the push and an activation. -/
theorem fastFullFlashesThenDraws : Obligations.FastFullFlashesThenDraws := by
  intro s hi hb hw
  have hflash := (passed_sample (rest := List.replicate 14 1 ++ [5000] ++ (List.replicate 6 1 ++
    (List.replicate 14 1 ++ [5000] ++ (List.replicate 6 1 ++ [])))) hw).flash.begun
  have hall := ((hflash.activate .partialWave).wait.push .black).activate .partialWave
  rw [wait_andThen, andThen_assoc, andThen_assoc] at hall
  exact hall.finishes (exec_wrupd_of_notBusy (u := .fastFull) hi rfl hb)

/-! ## SOFTSTART (R250) -/

/-- Settles O54: the five transactions of the command, SEQ as it was; or a delivery, which with SEQ Idle changes STATUS alone. -/
theorem softstartSendsFourBytes : Obligations.SoftstartSendsFourBytes := by
  refine ⟨fun s st ti mo q hi hq hw => ?_, fun s st ti mo hi hs hq => ?_, fun s st ti mo h0 hs => ?_⟩
  · obtain ⟨t, hsend, hd, hseq⟩ := did_sendAll (ts := txnsSoftst s.params q) hw rfl (by simp [txnsSoftst, pc])
    obtain ⟨es, htr, hes⟩ := hd.shown
    refine ⟨t.complete, by rw [exec_softstart_of_bytes hi hq, hsend, Micro.endState], ?_, es, htr, hes.view⟩
    have heq := hd.eq
    rw [hseq] at heq
    exact congrArg State.complete heq
  · rw [exec_softstart_of_invalid hi hq, deliver_of_idle hs]
  · exact exec_of_needsInit_of_idle rfl hs h0

/-! ## What the operations do not look at (R237, R240, R250) -/

section Blind

variable (q : Plane) (m : Mem)

theorem waitInSeq_setPlane (s : State) : waitInSeq (s.setPlane q m) = (waitInSeq s).setPlane q m := by
  rw [waitInSeq, waitInSeq, setSeq_setPlane, waitReady_setPlane]

/-- A flash sends 0xFF past both planes (R233). -/
theorem flash_setPlane (s : State) : flash (s.setPlane q m) = (flash s).setPlane q m := by
  rw [flash, flash, setPlane_params, setSeq_setPlane, sendAll_setPlane]

theorem activate_setPlane (w : Waveform) (s : State) : activate w (s.setPlane q m) = (activate w s).setPlane q m := by
  rw [activate, activate, setPlane_params, setSeq_setPlane, sendAll_setPlane]
  exact andThen_setPlane q m fun u => by rw [setPlane_params, setSeq_setPlane, sendAll_setPlane]

theorem waitThenActivate_setPlane (w : Waveform) (s : State) :
    activate w (waitInSeq (s.setPlane q m)) = (activate w (waitInSeq s)).setPlane q m := by
  rw [waitInSeq_setPlane, activate_setPlane]

theorem updateBody_setPlane (u : UpdateType) (s : State) :
    updateBody u (s.setPlane q m) = (updateBody u s).setPlane q m := by
  cases u with
  | fastPartial => exact activate_setPlane q m _ s
  | cleanFull => exact activate_setPlane q m _ s
  | cleanFullAggressive =>
    rw [updateBody, updateBody, activate_setPlane, andThen_setPlane q m (waitThenActivate_setPlane q m _)]
  | fastFull => rfl

/-- Of the planes WRUPD reads the black one only (R237, R244). -/
theorem wrupdBody_setPlane_red (u : UpdateType) (s : State) :
    wrupdBody u (s.setPlane .red m) = (wrupdBody u s).setPlane .red m := by
  have hpush : ∀ t, push .black (t.setPlane .red m) = (push .black t).setPlane .red m := push_setPlane (by decide) m
  have hact : ∀ w t, activate w (t.setPlane .red m) = (activate w t).setPlane .red m := activate_setPlane .red m
  cases u with
  | fastPartial => rw [wrupdBody, wrupdBody, hpush, andThen_setPlane _ m (hact _)]
  | cleanFull => rw [wrupdBody, wrupdBody, hpush, andThen_setPlane _ m (hact _)]
  | cleanFullAggressive =>
    rw [wrupdBody, wrupdBody, hpush]
    refine andThen_setPlane _ m fun t => ?_
    rw [hact, andThen_setPlane _ m (waitThenActivate_setPlane _ m _)]
  | fastFull =>
    rw [wrupdBody, wrupdBody, flash_setPlane]
    refine andThen_setPlane _ m fun t => ?_
    rw [hact]
    refine andThen_setPlane _ m fun v => ?_
    rw [waitInSeq_setPlane, hpush, andThen_setPlane _ m (hact _)]

/-- The end of an operation that moves SEQ, with a plane replaced (R230). -/
theorem thenIdle_endState_setPlane (x : Micro) :
    (.next (thenIdle (x.setPlane q m)).endState : Host.Outcome State Fault Refusal)
      = outcomeSetPlane q m (.next (thenIdle x).endState) := by
  rw [thenIdle_setPlane, endState_setPlane]
  rfl

end Blind

theorem execUpdate_blind (q : Plane) (y : Half) : BlindTo q (execUpdate y) :=
  blindTo_whenInitialised fun s m => by
    have hserved : ∀ u, .next (thenIdle (updateBody u (waitInSeq (s.setPlane q m)))).endState
        = outcomeSetPlane q m (.next (thenIdle (updateBody u (waitInSeq s))).endState) := fun u => by
      rw [waitInSeq_setPlane, updateBody_setPlane, thenIdle_endState_setPlane]
    cases updateTypeOf y with
    | none => exact deliver_outcomeSetPlane q m s _
    | some u =>
      cases u with
      | fastFull => exact deliver_outcomeSetPlane q m s _
      | fastPartial => exact hserved _
      | cleanFull => exact hserved _
      | cleanFullAggressive => exact hserved _

theorem execWrupd_blind_red (y : Half) : BlindTo .red (execWrupd y) :=
  blindTo_whenInitialised fun s m => by
    cases updateTypeOf y with
    | none => exact deliver_outcomeSetPlane .red m s _
    | some u =>
      dsimp only
      rw [setSeq_setPlane, seesBusy_setPlane, sampleBusy_setPlane, wrupdBody_setPlane_red]
      exact ite_outcomeSetPlane .red m _ (deliver_outcomeSetPlane .red m _ _) (thenIdle_endState_setPlane .red m _)

theorem execSoftstart_blind (q : Plane) (st ti mo : Half) : BlindTo q (execSoftstart st ti mo) :=
  blindTo_whenInitialised fun s m => by
    rw [setPlane_params]
    cases ssEncode s.params st ti mo with
    | none => exact deliver_outcomeSetPlane q m s _
    | some b =>
      dsimp only
      rw [sendAll_setPlane, endState_setPlane]
      rfl

theorem BlindTo.next {q : Plane} {f : State → Host.Outcome State Fault Refusal} (hf : BlindTo q f) {s t : State}
    (h : f s = .next t) (m : Mem) : f (s.setPlane q m) = .next (t.setPlane q m) := by
  rw [hf s m, h]
  rfl

/-- Settles O55: UPDATE and SOFTSTART are blind to either plane, WRUPD to the red one; P.WRRED is a line of WRBUF red alone, past the
check of INIT. -/
theorem updatesIgnoreTheRedPlane : Obligations.UpdatesIgnoreTheRedPlane := by
  refine ⟨fun i s t m hi h => ?_, fun s u h => ?_⟩
  · rcases hi with ⟨y, rfl | rfl⟩ | ⟨st, ti, mo, rfl⟩
    · exact ⟨(execUpdate_blind .red y).next h m, fun _ => (execUpdate_blind .black y).next h m⟩
    · exact ⟨(execWrupd_blind_red y).next h m, fun hne => absurd rfl (hne y)⟩
    · exact ⟨(execSoftstart_blind .red st ti mo).next h m, fun _ => (execSoftstart_blind .black st ti mo).next h m⟩
  · obtain ⟨-, hturn, -, ls, hls, hline⟩ := place_eq_some.1 h
    have hop : u.op = .wrbuf .red := eq_wrbuf_red_of_wrred_mem (command_mem_of_line hls hline (by decide))
    exact ⟨hop, (initialised_iff_of_turnsAway hturn).2 (by rw [hop]; decide)⟩

end Sys2Proof.Machine
end

section
/-! The drawing composites FILLRECT, DRAWPIC and DRAWSTR (45_drawing.md): what a rectangle of pixel writes and what a line of glyphs
leave of a plane, what the three operations answer, and how two fills combine. -/

namespace Sys2Proof.Machine

open Sys2Proof

/-! ## Rectangles of pixel writes (R260, R264) -/

/-- An inclusive rectangle the range check accepts (R260, R264). -/
abbrev RectOnPanel (l t r b : Nat) : Prop := l ≤ r ∧ t ≤ b ∧ r < 200 ∧ b < 200

/-- A pixel of an inclusive rectangle. -/
abbrev InRect (l t r b x y : Nat) : Prop := l ≤ x ∧ x ≤ r ∧ t ≤ y ∧ y ≤ b

/-- The pixel writes of an inclusive rectangle whose pixel at offset `(i, j)` gets the value `f i j`. -/
def rectDots (f : Nat → Nat → Bit) (l t r b : Nat) : List Dot :=
  (rectOffsets (r - l + 1) (b - t + 1)).map fun o => { x := l + o.1, y := t + o.2, v := f o.1 o.2 }

/-- A fill is the rectangle of one value. -/
theorem fillDots_eq_rectDots (l t r b : Nat) (v : Bit) : fillDots l t r b v = rectDots (fun _ _ => v) l t r b := rfl

/-- A picture is the rectangle of its bitmap's pixels. -/
theorem picDots_eq_rectDots (hb : Mem) (ptr l t r b : Nat) :
    picDots hb ptr l t r b = rectDots (bitmapPixel hb ptr ((r - l + 1 + 7) / 8)) l t r b := rfl

section Rect

variable {f : Nat → Nat → Bit} {l t r b : Nat}

/-- A rectangle's writes: one for each of its pixels, with the value of the pixel's offset. -/
theorem mem_rectDots (hr : RectOnPanel l t r b) {d : Dot} :
    d ∈ rectDots f l t r b ↔ InRect l t r b d.x d.y ∧ d.v = f (d.x - l) (d.y - t) := by
  rw [rectDots, List.mem_map]
  constructor
  · rintro ⟨o, ho, rfl⟩
    have hlt := mem_rectOffsets.1 ho
    simp only [Nat.add_sub_cancel_left, and_true]
    omega
  · rintro ⟨hin, hv⟩
    refine ⟨(d.x - l, d.y - t), mem_rectOffsets.2 (by simp only; omega), ?_⟩
    rw [← hv, show l + (d.x - l) = d.x by omega, show t + (d.y - t) = d.y by omega]

theorem rectDots_onPanel (hr : RectOnPanel l t r b) : OnPanel (rectDots f l t r b) := fun d hd => by
  have hin := ((mem_rectDots hr).1 hd).1
  omega

/-- Every pixel of the panel after a rectangle is painted: its own show their values, each other one is as before. -/
theorem pixel_paint_rectDots {m : Mem} (hm : m.wf 5000) (hr : RectOnPanel l t r b) {x y : Nat} (hx : x < 200) (hy : y < 200) :
    (m.paint (rectDots f l t r b)).pixel x y = if InRect l t r b x y then f (x - l) (y - t) else m.pixel x y := by
  split
  · next hin =>
    refine pixel_paint_touched hm (rectDots_onPanel hr) hx hy
      ⟨{ x := x, y := y, v := f (x - l) (y - t) }, (mem_rectDots hr).2 ⟨hin, rfl⟩, rfl, rfl⟩ fun d hd hdx hdy => ?_
    rw [((mem_rectDots hr).1 hd).2, hdx, hdy]
  · next hout =>
    refine pixel_paint_untouched hm (rectDots_onPanel hr) hx hy fun d hd hxy => hout ?_
    obtain ⟨rfl, rfl⟩ := hxy
    exact ((mem_rectDots hr).1 hd).1

/-- A byte that holds no pixel of the rectangle stays. -/
theorem read_paint_rectDots (m : Mem) (hr : RectOnPanel l t r b) {a : Nat}
    (ha : ∀ x y, l ≤ x → x ≤ r → t ≤ y → y ≤ b → a ≠ wbyte x y) : (m.paint (rectDots f l t r b)).read a = m.read a :=
  read_paint_untouched fun d hd => by
    obtain ⟨hl, hxr, ht, hyb⟩ := ((mem_rectDots hr).1 hd).1
    exact ha d.x d.y hl hxr ht hyb

/-- Painting a rectangle twice is painting it once (R261). -/
theorem paint_rectDots_idem {m : Mem} (hm : m.wf 5000) (hr : RectOnPanel l t r b) :
    (m.paint (rectDots f l t r b)).paint (rectDots f l t r b) = m.paint (rectDots f l t r b) := by
  have hwf := paint_wf hm (rectDots_onPanel (f := f) hr)
  refine plane_ext (paint_wf hwf (rectDots_onPanel hr)) hwf (paint_fill ..) fun x y hx hy => ?_
  rw [pixel_paint_rectDots hwf hr hx hy, pixel_paint_rectDots hm hr hx hy]
  split <;> rfl

/-- A pixel of a rectangle just filled has the fill's value, whatever it had before (R261). -/
theorem pixel_paint_fillDots_inside {m : Mem} (hm : m.wf 5000) (hr : RectOnPanel l t r b) {x y : Nat}
    (hin : InRect l t r b x y) (v : Bit) : (m.paint (fillDots l t r b v)).pixel x y = v := by
  rw [fillDots_eq_rectDots, pixel_paint_rectDots hm hr (by omega) (by omega), if_pos hin]

end Rect

/-! ## Lines of glyphs (R268) -/

/-- A glyph's writes lie in its cell. -/
theorem inCell_of_mem_glyphDots {q : Params} {g : Nat × Nat × Nat} {fs : Nat} {v : Bit} {d : Dot}
    (h : d ∈ glyphDots q g.1 g.2.1 g.2.2 fs v) : inCell fs d.x d.y g = true := by
  obtain ⟨o, ho1, ho2, hx, hy, -⟩ := dot_form h
  rw [inCell_iff]
  omega

/-- A byte of no glyph's cell stays. -/
theorem read_paint_glyphs (m : Mem) (q : Params) (fs : Nat) (v : Bit) {places : List (Nat × Nat × Nat)} {a : Nat}
    (ha : ∀ px py, places.any (inCell fs px py) = true → a ≠ wbyte px py) :
    (m.paint (places.flatMap fun g => glyphDots q g.1 g.2.1 g.2.2 fs v)).read a = m.read a :=
  read_paint_untouched fun d hd => by
    obtain ⟨g, hg, hdg⟩ := List.mem_flatMap.1 hd
    exact ha d.x d.y (List.any_eq_true.2 ⟨g, hg, inCell_of_mem_glyphDots hdg⟩)

/-! ## What a finished composite leaves (R71, R113) -/

/-- What a completed composite leaves: its pixel writes painted on plane `p`, STATUS OK. -/
def State.paintOn (s : State) (p : Plane) (ds : List Dot) : State := (s.setPlane p ((s.plane p).paint ds)).complete

@[simp] theorem paintOn_initialised (s : State) (p : Plane) (ds : List Dot) :
    (s.paintOn p ds).initialised = s.initialised := by simp [State.paintOn]

@[simp] theorem paintOn_plane_same (s : State) (p : Plane) (ds : List Dot) :
    (s.paintOn p ds).plane p = (s.plane p).paint ds := complete_setPlane_plane_same ..

theorem paintOn_plane_other (s : State) {p q : Plane} (ds : List Dot) (h : q ≠ p) : (s.paintOn p ds).plane q = s.plane q :=
  complete_setPlane_plane_other s _ h

/-- Two composites on one plane are one with the writes of both, in order. -/
theorem paintOn_paintOn_same (s : State) (p : Plane) (ds es : List Dot) :
    (s.paintOn p ds).paintOn p es = s.paintOn p (ds ++ es) := by
  rw [State.paintOn, paintOn_plane_same, State.paintOn, ← complete_setPlane, setPlane_setPlane_same, State.paintOn, paint_append]
  rfl

/-- Composites on different planes commute (R71). -/
theorem paintOn_comm_of_plane_ne (s : State) {p q : Plane} (hq : q ≠ p) (ds es : List Dot) :
    (s.paintOn p ds).paintOn q es = (s.paintOn q es).paintOn p ds := by
  rw [State.paintOn, paintOn_plane_other s ds hq, State.paintOn, State.paintOn, paintOn_plane_other s es hq.symm, State.paintOn,
    ← complete_setPlane, ← complete_setPlane, setPlane_comm s p q _ _ hq]

/-- The same rectangle again leaves the same state (R261). -/
theorem paintOn_rectDots_idem {s : State} {p : Plane} (hm : (s.plane p).wf 5000) {f : Nat → Nat → Bit} {l t r b : Nat}
    (hr : RectOnPanel l t r b) :
    (s.paintOn p (rectDots f l t r b)).paintOn p (rectDots f l t r b) = s.paintOn p (rectDots f l t r b) := by
  rw [paintOn_paintOn_same, State.paintOn, paint_append, paint_rectDots_idem hm hr, State.paintOn]

/-! ## What the three operations answer (R260, R264, R268) -/

section Answers

variable {s : State} (p : Plane) (hi : s.initialised = true)

include hi

theorem exec_fillrect_inside {l t r b : Half} (v : Bit) (hr : RectOnPanel l.toNat t.toNat r.toNat b.toNat) :
    exec (.fillrect p l t r b v) s = .next (s.paintOn p (fillDots l.toNat t.toNat r.toNat b.toNat v)) := by
  rw [exec, execFillrect, whenInitialised_of_initialised hi, if_pos ((goodRect_iff l t r b).2 hr), State.paintOn]

theorem exec_fillrect_outside {l t r b : Half} (v : Bit) (hr : ¬ RectOnPanel l.toNat t.toNat r.toNat b.toNat) :
    exec (.fillrect p l t r b v) s = .next (s.deliver .invalidArgument) := by
  rw [exec, execFillrect, whenInitialised_of_initialised hi, if_neg (mt (goodRect_iff l t r b).1 hr)]

theorem exec_drawpic_inside {l t r b ptr : Half} (hptr : ptr ≠ Config.nullPtr)
    (hr : RectOnPanel l.toNat t.toNat r.toNat b.toNat)
    (hend : ptr.toNat + bitmapBytes l.toNat t.toNat r.toNat b.toNat ≤ s.params.hbufSize) :
    exec (.drawpic p l t r b ptr) s =
      .next (s.paintOn p (picDots s.hbuf ptr.toNat l.toNat t.toNat r.toNat b.toNat)) := by
  rw [exec, execDrawpic, whenInitialised_of_initialised hi, if_pos ⟨hptr, (goodRect_iff l t r b).2 hr⟩, if_pos hend, State.paintOn]

theorem exec_drawpic_rejected {l t r b ptr : Half}
    (h : ¬(ptr ≠ Config.nullPtr ∧ RectOnPanel l.toNat t.toNat r.toNat b.toNat)) :
    exec (.drawpic p l t r b ptr) s = .next (s.deliver .invalidArgument) := by
  rw [exec, execDrawpic, whenInitialised_of_initialised hi, if_neg (by rwa [goodRect_iff])]

theorem exec_drawstr_inside {x y ptr len fs : Half} {v : Bit} {ds : List Dot} (hptr : ptr ≠ Config.nullPtr) (hfs : fs ≠ 0)
    (hx : x.toNat < 200) (hy : y.toNat < 200)
    (hds : textDots s.params s.hbuf fs.toNat v len.toNat ptr.toNat x.toNat y.toNat = some ds) :
    exec (.drawstr p x y ptr len v fs) s = .next (s.paintOn p ds) := by
  rw [exec, execDrawstr, whenInitialised_of_initialised hi, if_pos ⟨hptr, hfs, (inPanel_iff x y).2 ⟨hx, hy⟩⟩, hds]
  rfl

theorem exec_drawstr_rejected {x y ptr fs : Half} (len : Half) (v : Bit)
    (h : ¬(ptr ≠ Config.nullPtr ∧ fs ≠ 0 ∧ x.toNat < 200 ∧ y.toNat < 200)) :
    exec (.drawstr p x y ptr len v fs) s = .next (s.deliver .invalidArgument) := by
  rw [exec, execDrawstr, whenInitialised_of_initialised hi, if_neg (by rwa [inPanel_iff])]

end Answers

/-! ## The three operations (R260, R261, R264, R268) -/

/-- Settles O30: the fill is the rectangle of one value, and its two checks stand before it. -/
theorem fillrectSetsTheRectangle : Obligations.FillrectSetsTheRectangle := by
  refine ⟨fun s p l t r b v hi hm hlr htb hr hb => ?_, fun s p l t r b v hs hi h => ?_,
    fun s p l t r b v => exec_of_needsInit_of_idle rfl⟩
  · have hrect : RectOnPanel l.toNat t.toNat r.toNat b.toNat := ⟨hlr, htb, hr, hb⟩
    refine ⟨_, exec_fillrect_inside p hi v hrect, complete_setPlane_frame s p _, fun q => paintOn_plane_other s _, ?_⟩
    rw [paintOn_plane_same, fillDots_eq_rectDots]
    exact ⟨paint_wf hm (rectDots_onPanel hrect), fun x y => pixel_paint_rectDots hm hrect, fun a => read_paint_rectDots _ hrect⟩
  · rw [exec_fillrect_outside p hi v (by omega), deliver_of_idle hs]

/-- Settles O31: a rectangle painted again shows the same pixels, the planes are apart, and the later of two fills sets every pixel of
its rectangle. -/
theorem fillrectIdempotentAndCommuting : Obligations.FillrectIdempotentAndCommuting := by
  intro s p l t r b v hinv hi hlr htb hr hb
  have hrect : RectOnPanel l.toNat t.toNat r.toNat b.toNat := ⟨hlr, htb, hr, hb⟩
  have hm := hinv.plane_wf p
  have hafter : ∀ (q : Plane) (ds : List Dot), (s.paintOn q ds).initialised = true := fun q ds => (paintOn_initialised ..).trans hi
  refine ⟨_, exec_fillrect_inside p hi v hrect, ?_, fun q l' t' r' b' v' hlr' htb' hr' hb' => ?_⟩
  · rw [exec_fillrect_inside p (hafter ..) v hrect, fillDots_eq_rectDots, paintOn_rectDots_idem hm hrect]
  · have hrect' : RectOnPanel l'.toNat t'.toNat r'.toNat b'.toNat := ⟨hlr', htb', hr', hb'⟩
    refine ⟨_, _, _, exec_fillrect_inside q (hafter ..) v' hrect', exec_fillrect_inside q hi v' hrect',
      exec_fillrect_inside p (hafter ..) v hrect, fun hq => paintOn_comm_of_plane_ne s hq _ _, ?_⟩
    rintro rfl x y hl hxr ht hyb hl' hxr' ht' hyb'
    simp only [paintOn_plane_same]
    exact ⟨pixel_paint_fillDots_inside (paint_wf hm (fillDots_onPanel v hlr htb hr hb)) hrect' ⟨hl', hxr', ht', hyb'⟩ v',
      pixel_paint_fillDots_inside (paint_wf hm (fillDots_onPanel v' hlr' htb' hr' hb')) hrect ⟨hl, hxr, ht, hyb⟩ v⟩

/-- Settles O32: the picture is the rectangle of the bitmap's pixels, and the checks of its operands stand before it. -/
theorem drawpicCopiesTheBitmap : Obligations.DrawpicCopiesTheBitmap := by
  refine ⟨fun s p l t r b ptr hi hm hptr hlr htb hr hb hend => ?_, fun s p l t r b ptr hs hi h => ?_,
    fun s p l t r b ptr => exec_of_needsInit_of_idle rfl⟩
  · have hrect : RectOnPanel l.toNat t.toNat r.toNat b.toNat := ⟨hlr, htb, hr, hb⟩
    refine ⟨_, exec_drawpic_inside p hi hptr hrect hend, complete_setPlane_frame s p _, fun q => paintOn_plane_other s _, ?_⟩
    rw [paintOn_plane_same, picDots_eq_rectDots]
    exact ⟨paint_wf hm (rectDots_onPanel hrect), fun x y => pixel_paint_rectDots hm hrect, fun a => read_paint_rectDots _ hrect⟩
  · have hbad : ¬(ptr ≠ Config.nullPtr ∧ RectOnPanel l.toNat t.toNat r.toNat b.toNat) := by
      rintro ⟨hptr, hrect⟩
      rcases h with rfl | h
      · exact hptr rfl
      · omega
    rw [exec_drawpic_rejected p hi hbad, deliver_of_idle hs]

/-- Settles O33: the text's pixel writes are those of the glyphs where the layout places them, and the checks of the operands stand
before them. -/
theorem drawstrDrawsTheGlyphs : Obligations.DrawstrDrawsTheGlyphs := by
  refine ⟨fun s p x y ptr len v fs hi hm hptr hfs hx hy hreach => ?_,
    fun s p x y ptr len v fs hs hi h => ?_, fun s p x y ptr len v fs => exec_of_needsInit_of_idle rfl⟩
  · have hpos : 0 < fs.toNat := by bv_omega
    have hdots := text_places s.params s.hbuf fs.toNat v len.toNat ptr.toNat x.toNat y.toNat hreach
    refine ⟨_, exec_drawstr_inside p hi hptr hfs hx hy hdots, complete_setPlane_frame s p _,
      fun q => paintOn_plane_other s _, ?_⟩
    rw [paintOn_plane_same]
    exact ⟨paint_wf hm (textDots_onPanel _ _ _ _ _ _ _ _ _ hdots), fun px py => paint_places hm s.params hpos v _ _ _,
      fun a => read_paint_glyphs _ s.params fs.toNat v⟩
  · have hbad : ¬(ptr ≠ Config.nullPtr ∧ fs ≠ 0 ∧ x.toNat < 200 ∧ y.toNat < 200) := by
      rintro ⟨hptr, hfs, hxy⟩
      rcases h with rfl | rfl | h
      · exact hptr rfl
      · exact hfs rfl
      · omega
    rw [exec_drawstr_rejected p hi len v hbad, deliver_of_idle hs]

end Sys2Proof.Machine
end

section
/-! The lifecycle (46_lifecycle.md): INIT that brings the panel up and the ways it fails, DEINIT with and without its sleep command,
the two presets. -/

namespace Sys2Proof.Machine

open Sys2Proof

/-! ## The presets (R286, R287) -/

theorem exec_cfgdef3_of_initialised {s : State} (hi : s.initialised = true) :
    exec .cfgdef3 s = .next (s.deliver .alreadyInitialized) := by
  rw [exec, execCfgdef3, if_pos hi]

theorem exec_cfgdef4_of_initialised {s : State} (hi : s.initialised = true) :
    exec .cfgdef4 s = .next (s.deliver .alreadyInitialized) := by
  rw [exec, execCfgdef4, if_pos hi]

/-- Settles O19: with INIT = 0 the preset goes to CFG; with INIT = 1 and SEQ Idle the delivery changes STATUS alone. -/
theorem cfgdefLoadsItsPreset : Obligations.CfgdefLoadsItsPreset :=
  ⟨fun _ => exec_cfgdef3_of_not_initialised,
    fun _ hi hs => by rw [exec_cfgdef3_of_initialised hi, deliver_of_idle hs],
    fun _ => exec_cfgdef4_of_not_initialised,
    fun _ hi hs => by rw [exec_cfgdef4_of_initialised hi, deliver_of_idle hs]⟩

/-! ## Draws that are there whether or not a sequence went through -/

/-- Whether the next bus writes complete is a matter of their draws only (R146). -/
theorem writesAll_congr {s t : State} (h : t.countFeed = s.countFeed) (l : List Nat) : t.writesAll l ↔ s.writesAll l := by
  rw [State.writesAll, State.writesAll, h]

/-- The writes a sequence took and those left after it are all complete together. -/
theorem Did.writesAll_append {s t : State} {n m j os} (h : Did s t n m j os) {l l' : List Nat} (hl : l.length = n)
    (hs : s.writesAll l) (ht : t.writesAll l') : s.writesAll (l ++ l') := by
  subst hl
  intro i hi
  rcases Nat.lt_or_ge i l.length with hlt | hge
  · rw [List.getElem_append_left hlt]
    exact hs i hlt
  · have hleft := ht (i - l.length) (by rw [List.length_append] at hi; omega)
    rw [List.getElem_append_right hge]
    rwa [h.countFeed, Feed.nth_popMany, Nat.add_sub_of_le hge] at hleft

theorem sendAll_of_not_writesAll {ts : List Txn} {s : State} {l : List Nat} (hl : (ts.map fun t => t.bytes.length) = l)
    (h : ¬ s.writesAll l) : ∃ t, sendAll ts s = .raised .transportError t := by
  obtain ⟨t, hsend, -⟩ := sendAll_of_not_completes fun hc => h (hl ▸ (completes_iff_writesAll s ts).1 hc)
  exact ⟨t, hsend⟩

/-! ## A wait within a sequence (R200) -/

/-- What a wait shows and takes depends on the samples to come and on the parameters only. -/
theorem waits_congr {s t : State} (hf : t.busyFeed = s.busyFeed) (hp : t.params = s.params) :
    t.waitObs = s.waitObs ∧ t.afterWait = s.afterWait := by
  have hbusy : t.busyAt = s.busyAt := by funext i; rw [State.busyAt, State.busyAt, hf]
  constructor <;> funext i
  · rw [State.waitObs, State.waitObs, hbusy, hp]
  · rw [State.afterWait, State.afterWait, hbusy, hp]

theorem Did.then_waitReady {s t : State} {n m j os} (h : Did s t n m j os) :
    Did s (waitReady t) n m (s.afterWait j) (os ++ s.waitObs j) := by
  obtain ⟨hobs, hafter⟩ := h.waitObs
  have htrans := h.trans (did_waitReady t)
  rwa [hobs, hafter] at htrans

/-! ## INIT on the wire (R152, R170, R172) -/

/-- The events of T_OPEN and of the hardware pulse (R152, R170). -/
def openEvents (s : State) : List Event :=
  [.busInit s.cfg.bus s.cfg.clkHz s.achievedRate, .pinSet .cs 1, .pinSet .rst 1, .delay .rst, .pinSet .rst 0, .delay .rst,
    .pinSet .rst 1, .delay .rst]

theorem shows_openEvents (s : State) :
    Shows (openEvents s) ([.busInit s.cfg.bus s.cfg.clkHz s.achievedRate, .csHigh] ++ rstObs) :=
  fun dc => ⟨dc, fun _ => rfl⟩

/-- The state T_OPEN and the hardware pulse leave, in one piece (R152, R170). -/
theorem rstPulse_opened_eq (s : State) : rstPulse (opened s) = { s with
    tr := s.tr ++ openEvents s
    rateFeed := s.rateFeed.pop
    ts := some { mode := Config.freeBit s.nextFree, bush := s.cfg.bus, hz := s.cfg.clkHz }
    bus := s.cfg.wantedBus
    pin := { s.pin with cs := 1, rst := 1 }
    nextFree := s.nextFree + 1 } := by
  rw [rstPulse_eq, opened_eq, List.append_assoc]
  rfl

/-- A reset whose command goes out whole (R170, R171). -/
theorem passed_cReset {s : State} {rest : List Nat} (hw : s.writesAll (1 :: rest)) :
    Passed (rstPulse s) (cReset s) 1 (some 0) (s.afterWait (s.afterWait 0))
      (s.waitObs 0 ++ [cmdObs s.params .swreset, .delay .swrst] ++ s.waitObs (s.afterWait 0)) rest := by
  have hpulsed : (rstPulse s).writesAll ([1] ++ rest) := (writesAll_congr (rstPulse_countFeed s) _).2 hw
  have hwait := did_waitReady (rstPulse s)
  have hready : (waitReady (rstPulse s)).writesAll ([1] ++ rest) := hwait.writes (l := []) rfl hpulsed
  obtain ⟨t, hsend, hsent, -⟩ :=
    did_sendAll (ts := txnsSwreset s.params) (writesAll_prefix hready) rfl (by simp [txnsSwreset, pc])
  have hall := ((hwait.trans hsent).trans (did_delay t .swrst)).then_waitReady
  obtain ⟨hobs, hafter⟩ := waits_congr (s := s) (t := rstPulse s) (by rw [rstPulse_eq]) (rstPulse_params s)
  rw [hobs, hafter, List.append_assoc (s.waitObs 0)] at hall
  exact ⟨_, by rw [cReset, hsend, andThen_done], hall, hall.writes (l := [1]) rfl hpulsed⟩

theorem initSeqTxns_lengths (p : Params) : ((initSeqTxns p).map fun t => t.bytes.length) = List.replicate 18 1 := rfl

theorem initSeqTxns_obs (p : Params) : (initSeqTxns p).map Txn.whole = initSeqObs p := rfl

/-- An initialisation sequence whose eighteen writes are whole (R172). -/
theorem did_cInitSeq {s : State} (hw : s.writesAll (List.replicate 18 1)) :
    ∃ t, cInitSeq s = .done t ∧ Did s t 18 (some 1) 0 (initSeqObs s.params) := by
  obtain ⟨t, hsend, hsent, -⟩ := did_sendAll hw (initSeqTxns_lengths s.params) (by simp [initSeqTxns, txnsDrvout, pc])
  rw [initSeqTxns_obs] at hsent
  exact ⟨t, hsend, hsent⟩

/-- INIT past T_OPEN, where the achieved rate is not 0 (R280). -/
theorem initWire_of_opened {s : State} (hr : s.achievedRate ≠ 0) :
    initWire s = (cReset (opened s)).andThen cInitSeq := by
  rw [initWire, tOpen_ok hr, andThen_done]

/-- INIT up to its local clear, every write whole: seen from where the pulse ends (R280). -/
theorem passed_initWire {s : State} (hr : s.achievedRate ≠ 0) (hw : s.writesAll (List.replicate 19 1)) :
    Passed (rstPulse (opened s)) (initWire s) 19 (some 1) (s.afterWait (s.afterWait 0))
      (s.waitObs 0 ++ [cmdObs s.params .swreset, .delay .swrst] ++ s.waitObs (s.afterWait 0) ++ initSeqObs s.params) [] := by
  have hopened : (opened s).writesAll (1 :: (List.replicate 18 1 ++ [])) := (writesAll_congr (opened_countFeed s) _).2 hw
  obtain ⟨hobs, hafter⟩ := waits_congr (s := s) (t := opened s) (by rw [opened_eq]) (opened_params s)
  have hreset := passed_cReset hopened
  rw [hobs, hafter, opened_params] at hreset
  rw [initWire_of_opened hr]
  exact hreset.andThen (m' := some 1) (j' := 0) fun t hd hrest => by
    have hseq := did_cInitSeq hrest
    rwa [hd.params, rstPulse_params, opened_params] at hseq

/-- A short write among INIT's nineteen raises TransportError (R146, R304). -/
theorem initWire_of_short {s : State} (hr : s.achievedRate ≠ 0) (hw : ¬ s.writesAll (List.replicate 19 1)) :
    ∃ u, initWire s = .raised .transportError u := by
  rw [initWire_of_opened hr]
  by_cases hfirst : (opened s).writesAll [1]
  · obtain ⟨t, hreset, hd, -⟩ := passed_cReset hfirst
    have hpulsed : (rstPulse (opened s)).writesAll [1] := (writesAll_congr (rstPulse_countFeed _) _).2 hfirst
    have hcount : (rstPulse (opened s)).countFeed = s.countFeed := by rw [rstPulse_countFeed, opened_countFeed]
    have hrest : ¬ t.writesAll (List.replicate 18 1) := fun h =>
      hw ((writesAll_congr hcount _).1 (hd.writesAll_append rfl hpulsed h))
    rw [hreset, andThen_done]
    exact sendAll_of_not_writesAll (initSeqTxns_lengths _) hrest
  · have hready : ¬ (waitReady (rstPulse (opened s))).writesAll [1] := fun h => hfirst
      ((writesAll_congr (by rw [(did_waitReady _).countFeed, rstPulse_countFeed, Feed.popMany_zero]) _).1 h)
    obtain ⟨u, hsend⟩ := sendAll_of_not_writesAll (ts := txnsSwreset (opened s).params) rfl hready
    exact ⟨u, by rw [cReset, hsend, andThen_raised, andThen_raised]⟩

/-! ## What INIT answers (R280, R282, R303, R304) -/

theorem achievedRate_eq_nth (s : State) : s.achievedRate = s.rateFeed.nth Config.freeRate 0 :=
  (Feed.nth_zero Config.freeRate s.rateFeed).symm

theorem exec_init_badClock {s : State} (hi : s.initialised = false) (hc : s.cfg.clkHz = 0) :
    exec .init s = .next (s.deliver .invalidArgument) := by
  rw [exec, execInit, if_neg (by simp [hi]), if_pos hc]

theorem exec_init_of_clock {s : State} (hi : s.initialised = false) (hc : s.cfg.clkHz ≠ 0) :
    exec .init s = .next ((initWire s).andThen fun u => .done (finishInit u)).endState := by
  rw [exec, execInit, if_neg (by simp [hi]), if_neg hc, initBody_eq]

/-- An achieved rate of 0 ends INIT with the one event of T_OPEN and no TS (R282; log 15). -/
theorem exec_init_noRate {s : State} (hi : s.initialised = false) (hc : s.cfg.clkHz ≠ 0) (hr : s.achievedRate = 0) :
    exec .init s = .next { s with
      status := .transportError
      seq := .idle
      ts := none
      tr := s.tr ++ [.busInit s.cfg.bus s.cfg.clkHz 0]
      rateFeed := s.rateFeed.pop } := by
  rw [exec_init_of_clock hi hc, initWire, tOpen, hr, if_pos rfl]
  rfl

/-- A short write ends INIT in the state the transactions left (R146, R282). -/
theorem exec_init_of_short {s : State} (hi : s.initialised = false) (hc : s.cfg.clkHz ≠ 0) (hr : s.achievedRate ≠ 0)
    (hw : ¬ s.writesAll (List.replicate 19 1)) :
    ∃ u, exec .init s = .next (u.deliver .transportError) ∧ Ran Instr.init.commands (rstPulse (opened s)) u ∧
      u.pin.cs = 1 := by
  obtain ⟨u, hwire⟩ := initWire_of_short hr hw
  have hran := ran_initTail (opened s)
  rw [← initWire_of_opened hr, hwire] at hran
  exact ⟨u, by rw [exec_init_of_clock hi hc, hwire]; rfl, hran.1, (hran.2 _ _ rfl).2⟩

theorem wantedBus_eq (c : Cfg) :
    c.wantedBus = { width := if c.wiring = .fourWire then .bits8 else .bits9, hz := c.clkHz } := by
  cases h : c.wiring <;> simp [Cfg.wantedBus, widthOf, h]

/-- What a successful INIT leaves: the local clear over the wire as its last write, of mode 1, left it (R280). -/
theorem Did.complete_finishInit {s u : State} {n j : Nat} {os : List Obs} (h : Did (rstPulse (opened s)) u n (some 1) j os) :
    (finishInit u).complete = { s with
      initialised := true
      status := .ok
      seq := .idle
      ts := some { mode := if s.cfg.wiring = .threeWire then 1 else Config.freeBit s.nextFree,
                   bush := s.cfg.bus, hz := s.cfg.clkHz }
      bus := { width := if s.cfg.wiring = .fourWire then .bits8 else .bits9, hz := s.cfg.clkHz }
      pin := { cs := 1, rst := 1, dc := if s.cfg.wiring = .fourWire then 1 else s.pin.dc }
      black := Mem.cleared
      red := Mem.cleared
      tr := u.tr
      rateFeed := s.rateFeed.popMany 1
      countFeed := s.countFeed.popMany n
      busyFeed := s.busyFeed.popMany j
      nextFree := u.nextFree } := by
  have hframe := congrArg (fun v : State => (finishInit v).complete) h.eq
  have hfree : u.nextFree = s.nextFree + 1 := by rw [h.eq, rstPulse_opened_eq]; rfl
  rw [rstPulse_opened_eq] at hframe
  rw [hfree, Feed.popMany_one, ← wantedBus_eq]
  simpa [finishInit, State.complete, State.wireEffect] using hframe

/-- Settles O15: from where the pulse ends, nineteen whole writes and two waits, and then the local clear. -/
theorem initBringsThePanelUp : Obligations.InitBringsThePanelUp := by
  intro s hi hc hr hw
  rw [← achievedRate_eq_nth] at hr ⊢
  obtain ⟨u, hwire, hdid, -⟩ := passed_initWire hr hw
  obtain ⟨es, htr, hes⟩ := hdid.shown
  have hview := ((shows_openEvents s).append hes).view
  refine ⟨(finishInit u).complete, _, ?_, hdid.complete_finishInit, fun h => if_pos h,
    fun a => ⟨read_cleared a, read_cleared a⟩, openEvents s ++ es, ?_, ?_⟩
  · rw [exec_init_of_clock hi hc, hwire]
    rfl
  · change u.tr = _
    rw [htr, rstPulse_opened_eq, List.append_assoc]
  · simpa only [List.append_assoc] using hview

/-- What an INIT cut short leaves: the wire as it stands, and all else as it was but for the draws taken (R282, R312). -/
theorem Ran.deliver_of_opened {ks : List PanelOp} {s u : State} (h : Ran ks (rstPulse (opened s)) u) (e : Status) :
    u.deliver e = { s with
      status := e, seq := .idle, ts := u.ts, tr := u.tr, bus := u.bus, pin := u.pin, rateFeed := u.rateFeed,
      countFeed := u.countFeed, busyFeed := u.busyFeed, nextFree := u.nextFree } := by
  have hframe := h.frame
  rw [rstPulse_opened_eq] at hframe
  rw [hframe, State.deliver]

/-- Settles O16: a clock of 0 is a delivery, a rate of 0 ends at T_OPEN; a short write leaves the state where the transactions were
cut, with the bus that was opened (R34) and no event but theirs after the pulse's. -/
theorem failedInitLeavesTheBlockUninitialised : Obligations.FailedInitLeavesTheBlockUninitialised := by
  refine ⟨fun s hi hs hc => ?_, fun s hi hs hc hr => ?_, fun s hi hc hr hw => ?_⟩
  · rw [exec_init_badClock hi hc, deliver_of_idle hs]
  · rw [exec_init_noRate hi hc ((achievedRate_eq_nth s).trans hr), Feed.popMany_one, ← hs]
  · rw [← achievedRate_eq_nth] at hr ⊢
    obtain ⟨u, hexec, hran, hcs⟩ := exec_init_of_short hi hc hr hw
    obtain ⟨held, hts, hbus, hhz⟩ := hran.held (opened_holds s)
    obtain ⟨es, -, htr, -, -, -, -, hno⟩ := hran.trace
    have hcfg : u.cfg = s.cfg := by rw [hran.cfg, rstPulse_opened_eq]
    have hrst : u.pin.rst = 1 := by rw [hran.rst, rstPulse_opened_eq]
    have hleft := hran.deliver_of_opened .transportError
    rw [htr, hts, rstPulse_opened_eq, List.append_assoc] at hleft
    rw [hcfg] at hbus hhz
    refine ⟨u.deliver .transportError, openEvents s ++ es, held, hexec, hleft, hbus, hhz, hcs, hrst, rfl, fun b hb => ?_⟩
    rcases List.mem_append.1 hb with hopen | hsent
    · simp [openEvents] at hopen
    · exact (hno b 0 0).2 hsent

/-! ## DEINIT (R284) -/

theorem heldBus_wireEffect (s : State) (n : Nat) (m : Bit) (x : List Event) :
    State.heldBus { s.wireEffect n m with tr := x } = s.heldBus := by
  simp only [State.heldBus, wireEffect_ts, wireEffect_cfg]
  cases s.ts <;> rfl

/-- Transactions, complete or cut short, leave the effect of those that began, and their events (R143, R144, R146). -/
theorem sendAll_state_eq {ts : List Txn} (hne : ts ≠ []) (s : State) :
    ∃ n m es, (sendAll ts s).state = { s.wireEffect n m with tr := s.tr ++ es } := by
  rcases completes_or_short s ts with hc | ⟨pre, x, post, rfl, hpre, hshort⟩
  · exact ⟨_, _, _, by rw [sendAll_of_completes hc hne]; rfl⟩
  · exact ⟨_, _, _, by rw [sendAll_of_short post hpre hshort]; rfl⟩

theorem exec_deinit_of_initialised {s : State} (hi : s.initialised = true) :
    exec .deinit s = .next (finishDeinit (sendAll (txnsSleep s.params) s).state).complete := by
  rw [exec, execDeinit, if_pos hi]

theorem txnsSleep_of_none {p : Params} (h : p.deinitSleep = none) : txnsSleep p = [] := by rw [txnsSleep, h]

theorem txnsSleep_of_some {p : Params} {b : Byte} (h : p.deinitSleep = some b) : txnsSleep p = pc p .sleep [b] := by
  rw [txnsSleep, h]

/-- Settles O18: without a sleep byte nothing is sent before the bus is released; with one, the transactions that began touch the
wire alone, and the release shows after them. -/
theorem deinitReleasesTheBus : Obligations.DeinitReleasesTheBus := by
  refine ⟨fun s => exec_deinit_of_not_initialised, fun s hi hsleep => ?_, fun s b hi hsleep => ?_⟩
  · have hexec := exec_deinit_of_initialised hi
    rw [txnsSleep_of_none hsleep, sendAll_nil] at hexec
    exact ⟨_, hexec, congrArg State.complete (finishDeinit_eq s), ⟨_, rfl⟩, ⟨_, rfl⟩⟩
  · have hexec := exec_deinit_of_initialised hi
    rw [txnsSleep_of_some hsleep] at hexec
    obtain ⟨n, m, es, hsent⟩ := sendAll_state_eq (ts := pc s.params .sleep [b]) (by simp [pc]) s
    have htr : (finishDeinit (sendAll (pc s.params .sleep [b]) s).state).tr = s.tr ++ (es ++ [.busDeinit s.heldBus]) := by
      rw [finishDeinit_tr, hsent, heldBus_wireEffect, List.append_assoc]
    refine ⟨_, hexec, ?_, ⟨_, rfl⟩, ⟨_, rfl⟩, ?_, ?_, fun hw => ?_⟩
    · rw [hsent, finishDeinit_eq]
      rfl
    · rw [complete_tr, htr]
      exact List.prefix_append _ _
    · rw [complete_tr, htr, ← List.append_assoc, List.getLast?_concat]
    · obtain ⟨t, hsend, hdid, -⟩ := did_sendAll hw (ts := pc s.params .sleep [b]) rfl (by simp [pc])
      obtain ⟨fs, hfs, hshow⟩ := hdid.shown
      rw [hsend, Micro.state] at hsent
      refine ⟨fs ++ [.busDeinit s.heldBus], ?_, (hshow.append (shows_busDeinit s.heldBus)).view⟩
      rw [complete_tr, finishDeinit_tr, hsend, Micro.state, hfs, hsent, heldBus_wireEffect, List.append_assoc]

end Sys2Proof.Machine
end

section
/-! Statuses and the mode (60_exceptions.md, 70_reset_and_hazards.md): by which status a host operation can answer, who raises it and
what it leaves; what changes INIT; what drawing stays clear of; the power-on state. -/

namespace Sys2Proof.Machine

open Sys2Proof

/-! ## Power-on (R340) -/

/-- Settles O8: the record of the power-on values, read field by field. -/
theorem resetIsThePowerOnState : Obligations.ResetIsThePowerOnState :=
  ⟨rfl, rfl, rfl, rfl, rfl, rfl, rfl, ⟨1, rfl⟩, ⟨2, rfl⟩⟩

/-! ## The mode (R302, R320) -/

theorem exec_init_of_initialised {s : State} (hi : s.initialised = true) :
    exec .init s = .next (s.deliver .alreadyInitialized) := by
  rw [exec, execInit, if_pos hi]

/-- Settles O14: the check stands first in each of the three, and with SEQ Idle its delivery changes STATUS alone. -/
theorem alreadyInitializedLeavesTheInstance : Obligations.AlreadyInitializedLeavesTheInstance := by
  intro i s hi h1 hs
  rw [← deliver_of_idle hs]
  rcases hi with rfl | rfl | rfl
  · exact exec_init_of_initialised h1
  · exact exec_cfgdef3_of_initialised h1
  · exact exec_cfgdef4_of_initialised h1

theorem Ran.initialised_of_opened {ks : List PanelOp} {s u : State} (h : Ran ks (rstPulse (opened s)) u) :
    u.initialised = s.initialised := by
  rw [h.initialised, rstPulse_opened_eq]

/-- INIT leaves INIT = 1 where it found it so, and where it succeeds (R280, R282, R302). -/
theorem InitEnded.initialised_iff {s t : State} (h : InitEnded s t) :
    t.initialised = true ↔ s.initialised = true ∨ t.status = .ok := by
  cases h with
  | already _ ht => simp [ht]
  | badClock _ _ ht => simp [ht]
  | noRate _ _ _ ht => simp [ht]
  | ok _ _ _ u _ ht => exact ht ▸ iff_of_true rfl (.inr rfl)
  | failed _ _ _ u hr _ ht => simp [ht, hr.initialised_of_opened]

theorem exec_init_ended {s t : State} (h : exec .init s = .next t) : InitEnded s t := by
  obtain ⟨u, hu, he⟩ := exec_init_cases s
  rw [hu] at h
  cases h
  exact he

/-- DEINIT leaves INIT = 0, whatever it was (R284). -/
theorem exec_deinit_initialised {s t : State} (h : exec .deinit s = .next t) : t.initialised = false := by
  rcases exec_deinit_cases s with ⟨h0, hu⟩ | ⟨u, _, hu, _⟩
  · rw [hu] at h
    cases h
    exact h0
  · rw [hu] at h
    cases h
    rfl

/-- Settles O20: no instruction but INIT and DEINIT moves the mode; INIT moves it up where it succeeds, DEINIT leaves it down. -/
theorem modeChangesByInitAndDeinitOnly : Obligations.ModeChangesByInitAndDeinitOnly := by
  refine ⟨fun i s t h hne => ?_, fun s t h _ hok => (exec_init_ended h).initialised_iff.2 (.inr hok)⟩
  by_cases hinit : i = .init
  · subst hinit
    have hiff := (exec_init_ended h).initialised_iff
    cases h0 : s.initialised with
    | true => exact absurd (hiff.2 (.inl h0)) (h0 ▸ hne)
    | false =>
      have h1 : t.initialised = true := by simpa [h0] using hne
      exact .inl ⟨rfl, rfl, (hiff.1 h1).resolve_left (by simp [h0])⟩
  by_cases hdeinit : i = .deinit
  · subst hdeinit
    exact .inr ⟨rfl, by simpa [exec_deinit_initialised h] using hne⟩
  · exact absurd (exec_initialised hinit hdeinit h) hne

/-! ## By which status a host operation answers (R300 to R306) -/

/-- The operations whose failed transport is an error: those that send, but for DEINIT, which ignores it (R284, R304). -/
def RaisesTransportError (i : Instr) : Prop :=
  i = .init ∨ (∃ p, i = .wrbuf p) ∨ (∃ y, i = .update y) ∨ (∃ y, i = .wrupd y) ∨ ∃ a b c, i = .softstart a b c

/-- What TransportError leaves: the wire, the draws and the trace where the transport broke off, all else as it was (R312). -/
structure BrokenOff (i : Instr) (s t : State) : Prop where
  frame : t = { s with
    status := .transportError, seq := .idle, tr := t.tr, bus := t.bus, ts := t.ts, pin := t.pin,
    busyFeed := t.busyFeed, countFeed := t.countFeed, rateFeed := t.rateFeed, nextFree := t.nextFree }
  trace : s.tr <+: t.tr
  released : t.pin.cs = 1 ∨ i = .init ∧ t.ts = none

/-- How a host operation can answer, a case for each status: who raises it and what it leaves. -/
inductive Answered (i : Instr) (s t : State) : Prop where
  | ok (ht : t.status = .ok)
  | notInitialized (hi : i.needsInit = true) (ht : t = s.deliver .notInitialized)
  | alreadyInitialized (ht : t = s.deliver .alreadyInitialized)
  | invalidArgument (ht : t = s.deliver .invalidArgument)
  | transportError (hi : RaisesTransportError i) (ht : BrokenOff i s t)
  | notSupported (hi : i = .update 2) (ht : t = s.deliver .notSupported)
  | busy (hi : ∃ y, i = .wrupd y) (hb : s.busyAt 0 = s.params.busyActive)
      (ht : t = (sampleBusy (s.setSeq .waitingReady)).deliver .busy)

theorem BrokenOff.status {i : Instr} {s t : State} (h : BrokenOff i s t) : t.status = .transportError := by rw [h.frame]

/-- A short write, delivered (R146, R310). -/
theorem Ran.brokenOff {ks : List PanelOp} {i : Instr} {s u : State} (h : Ran ks s u) (hcs : u.pin.cs = 1) :
    BrokenOff i s (u.deliver .transportError) where
  frame := by
    rw [h.frame]
    rfl
  trace := h.wireOnly.trace
  released := .inl hcs

theorem Ran.brokenOff_of_opened {ks : List PanelOp} {i : Instr} {s u : State} (h : Ran ks (rstPulse (opened s)) u)
    (hcs : u.pin.cs = 1) : BrokenOff i s (u.deliver .transportError) where
  frame := h.deliver_of_opened .transportError
  trace := (wireOnly_rstPulse_opened s).trace.trans h.wireOnly.trace
  released := .inl hcs

theorem InitEnded.answered {s t : State} (h : InitEnded s t) : Answered .init s t := by
  cases h with
  | already _ ht => exact .alreadyInitialized ht
  | badClock _ _ ht => exact .invalidArgument ht
  | noRate _ _ _ ht => exact .transportError (.inl rfl) (ht ▸ ⟨rfl, List.prefix_append _ _, .inr ⟨rfl, rfl⟩⟩)
  | ok _ _ _ u _ ht => exact .ok (ht ▸ rfl)
  | failed _ _ _ u hr hcs ht => exact .transportError (.inl rfl) (ht ▸ hr.brokenOff_of_opened hcs)

theorem DrawEnded.answered {i : Instr} {p : Plane} {s t : State} (hi : i.needsInit = true) (h : DrawEnded i p s t) :
    Answered i s t := by
  cases h with
  | rejected e he ht =>
    rcases he with rfl | rfl
    · exact .notInitialized hi ht
    · exact .invalidArgument ht
  | drawn _ _ m _ _ ht => exact .ok (ht ▸ rfl)
  | read _ _ _ _ ht => exact .ok (ht ▸ rfl)

theorem Ended.answered {ks : List PanelOp} {i : Instr} {s t : State} (hi : i.needsInit = true) (hr : RaisesTransportError i)
    (h : Ended ks s t) : Answered i s t := by
  cases h with
  | rejected e he ht =>
    rcases he with rfl | rfl
    · exact .notInitialized hi ht
    · exact .invalidArgument ht
  | ok u _ _ ht => exact .ok (ht ▸ rfl)
  | failed u hran hcs ht => exact .transportError hr (ht ▸ hran.brokenOff hcs)

/-- The operations over a plane need INIT = 1 (R71, R301). -/
theorem needsInit_of_planeOperand {i : Instr} {p : Plane} (h : i.planeOperand = some p) : i.needsInit = true := by
  cases i <;> first | rfl | cases h

/-- Every host operation that answers does so in one of the seven ways. -/
theorem exec_answered {i : Instr} {s t : State} (hhost : i.isHostOp = true) (h : exec i s = .next t) : Answered i s t := by
  rcases exec_cases i s t h with ⟨rfl, he⟩ | ⟨_, hd⟩ | ⟨_, hc⟩ | ⟨_, _, p, hp, hd⟩ | ⟨hi, hu⟩ | ⟨hp, _⟩
  · exact he.answered
  · rcases hd with ⟨_, rfl⟩ | ⟨u, _, rfl, _⟩ <;> exact .ok rfl
  · rcases hc with ⟨_, ht⟩ | ⟨_, c, rfl⟩
    · exact .alreadyInitialized ht
    · exact .ok rfl
  · exact hd.answered (needsInit_of_planeOperand hp)
  · have hneeds : i.needsInit = true := by
      rcases hi with ⟨_, rfl⟩ | ⟨_, rfl⟩ | ⟨_, rfl⟩ | ⟨_, _, _, rfl⟩ <;> rfl
    rcases hu with he | ⟨hi, ht⟩ | ⟨hi, hb, ht⟩
    · exact he.answered hneeds (.inr hi)
    · exact .notSupported hi ht
    · exact .busy hi ((seesBusy_iff s).1 hb) ht
  · simp [hhost] at hp

/-! ## What each status tells (R301, R304 to R306, R312) -/

section Answers

variable {i : Instr} {s t : State} (h : Answered i s t)

include h

theorem Answered.needsInit (hst : t.status = .notInitialized) : i.needsInit = true := by
  cases h with
  | notInitialized hi _ => exact hi
  | ok ht => simp [ht] at hst
  | transportError _ ht => simp [ht.status] at hst
  | alreadyInitialized ht | invalidArgument ht | notSupported _ ht | busy _ _ ht => simp [ht] at hst

theorem Answered.eq_update_fastFull (hst : t.status = .notSupported) : i = .update 2 := by
  cases h with
  | notSupported hi _ => exact hi
  | ok ht => simp [ht] at hst
  | transportError _ ht => simp [ht.status] at hst
  | notInitialized _ ht | alreadyInitialized ht | invalidArgument ht | busy _ _ ht => simp [ht] at hst

theorem Answered.brokenOff (hst : t.status = .transportError) : RaisesTransportError i ∧ BrokenOff i s t := by
  cases h with
  | transportError hi ht => exact ⟨hi, ht⟩
  | ok ht => simp [ht] at hst
  | notInitialized _ ht | alreadyInitialized ht | invalidArgument ht | notSupported _ ht | busy _ _ ht => simp [ht] at hst

theorem Answered.foundBusy (hst : t.status = .busy) :
    (∃ y, i = .wrupd y) ∧ s.busyAt 0 = s.params.busyActive ∧ t = (sampleBusy (s.setSeq .waitingReady)).deliver .busy := by
  cases h with
  | busy hi hb ht => exact ⟨hi, hb, ht⟩
  | ok ht => simp [ht] at hst
  | transportError _ ht => simp [ht.status] at hst
  | notInitialized _ ht | alreadyInitialized ht | invalidArgument ht | notSupported _ ht => simp [ht] at hst

/-- The four statuses that a check raises before anything is done (R312). -/
theorem Answered.turnedAway (hst : t.status = .notInitialized ∨ t.status = .alreadyInitialized ∨
    t.status = .invalidArgument ∨ t.status = .notSupported) : t = s.deliver t.status := by
  cases h with
  | notInitialized _ ht | alreadyInitialized ht | invalidArgument ht | notSupported _ ht => rw [ht, deliver_status]
  | ok ht => simp [ht] at hst
  | transportError _ ht => simp [ht.status] at hst
  | busy _ _ ht => simp [ht] at hst

end Answers

/-- With SEQ Idle a busy check that reads the busy level leaves its sample and the status (R203, R245). -/
theorem deliver_busy_of_idle {s : State} (hs : s.seq = .idle) (hb : s.busyAt 0 = s.params.busyActive) :
    (sampleBusy (s.setSeq .waitingReady)).deliver .busy = { s with
      status := .busy, tr := s.tr ++ [.busyRead s.params.busyActive], busyFeed := s.busyFeed.popMany 1 } := by
  rw [← hb, ← busyLevel_eq_busyAt, Feed.popMany_one]
  simp only [sampleBusy, State.deliver, State.emit, State.setSeq, State.busyLevel, ← hs]

/-- Settles O13: the check of INIT stands first in each of the ten, and no other operation answers so; INIT is 0 where no INIT has
succeeded since power-on or DEINIT. -/
theorem notInitializedIsRaisedBeforeInit : Obligations.NotInitializedIsRaisedBeforeInit := by
  refine ⟨fun i s hi h0 hs => exec_of_needsInit_of_idle hi hs h0, fun i s t hi h hst => ?_, rfl, fun s t h h0 hst => ?_,
    fun s t => exec_deinit_initialised⟩
  · obtain ⟨hhost, hneeds⟩ : i.isHostOp = true ∧ i.needsInit = false := by
      rcases hi with rfl | rfl | rfl | rfl <;> exact ⟨rfl, rfl⟩
    exact Bool.false_ne_true (hneeds.symm.trans ((exec_answered hhost h).needsInit hst))
  · have hno : ¬(s.initialised = true ∨ t.status = .ok) := by simp [h0, hst]
    simpa using mt (exec_init_ended h).initialised_iff.1 hno

/-- Settles O56: a check changes STATUS alone, a busy check adds its sample, and a broken transport leaves `BrokenOff`. -/
theorem failedOperationsLeaveTheState : Obligations.FailedOperationsLeaveTheState := by
  intro i s t hhost hs h
  have ha := exec_answered hhost h
  refine ⟨fun hst => (ha.turnedAway hst).trans (deliver_of_idle hs _), fun hst => ?_, fun hst => ?_⟩
  · obtain ⟨_, hb, ht⟩ := ha.foundBusy hst
    exact ht.trans (deliver_busy_of_idle hs hb)
  · obtain ⟨_, hframe, htrace, hcs⟩ := ha.brokenOff hst
    exact ⟨hframe, htrace, hcs⟩

/-- Settles O57: of the seven ways to answer, one for each of the three statuses. -/
theorem hardwareStatusesHaveTheirCauses : Obligations.HardwareStatusesHaveTheirCauses := by
  intro i s t hhost h
  have ha := exec_answered hhost h
  refine ⟨fun hst => (ha.brokenOff hst).1, ha.eq_update_fastFull, fun hst => ?_⟩
  obtain ⟨hi, hb, _⟩ := ha.foundBusy hst
  exact ⟨hi, hb⟩

/-! ## Drawing is local (R351) -/

/-- Nothing that goes over the wire or comes in from it has changed. -/
structure StaysLocal (s t : State) : Prop where
  tr : t.tr = s.tr
  pin : t.pin = s.pin
  ts : t.ts = s.ts
  bus : t.bus = s.bus
  countFeed : t.countFeed = s.countFeed
  busyFeed : t.busyFeed = s.busyFeed

theorem staysLocal_deliver (s : State) (e : Status) : StaysLocal s (s.deliver e) := ⟨rfl, rfl, rfl, rfl, rfl, rfl⟩

theorem staysLocal_complete_setPlane (s : State) (p : Plane) (m : Mem) : StaysLocal s (s.setPlane p m).complete := by
  rw [complete_setPlane_frame]
  exact ⟨rfl, rfl, rfl, rfl, rfl, rfl⟩

theorem DrawEnded.staysLocal {i : Instr} {p : Plane} {s t : State} (h : DrawEnded i p s t) : StaysLocal s t := by
  cases h with
  | rejected e _ ht => exact ht ▸ staysLocal_deliver s e
  | drawn _ _ m _ _ ht => exact ht ▸ staysLocal_complete_setPlane s p m
  | read _ _ _ _ ht => exact ht ▸ ⟨rfl, rfl, rfl, rfl, rfl, rfl⟩

/-- An operation that can fail on the transport has a panel command to send (R111, R304). -/
theorem commands_of_raisesTransportError {i : Instr} (h : RaisesTransportError i) : i.commands ≠ [] := by
  rcases h with rfl | ⟨p, rfl⟩ | ⟨_, rfl⟩ | ⟨_, rfl⟩ | ⟨_, _, _, rfl⟩
  · nofun
  · cases p <;> nofun
  all_goals nofun

/-- A host operation without a panel command to send stays off the wire (R111, R351). -/
theorem exec_staysLocal {i : Instr} {s t : State} (hhost : i.isHostOp = true) (hno : i.commands = []) (h : exec i s = .next t) :
    StaysLocal s t := by
  rcases exec_cases i s t h with ⟨rfl, _⟩ | ⟨rfl, _⟩ | ⟨_, hc⟩ | ⟨_, _, p, _, hd⟩ | ⟨hi, _⟩ | ⟨hp, _⟩
  · cases hno
  · cases hno
  · rcases hc with ⟨_, rfl⟩ | ⟨_, c, rfl⟩
    · exact staysLocal_deliver s _
    · exact ⟨rfl, rfl, rfl, rfl, rfl, rfl⟩
  · exact hd.staysLocal
  · exact absurd hno (commands_of_raisesTransportError (.inr hi))
  · simp [hhost] at hp

/-- Settles O35: what has nothing to send stays off the wire, and only what sends raises TransportError. -/
theorem drawingIsLocal : Obligations.DrawingIsLocal := by
  intro i s t hhost hno h
  obtain ⟨htr, hpin, hts, hbus, hcount, hbusy⟩ := exec_staysLocal hhost hno h
  have hstatus : t.status ≠ .transportError := fun hst =>
    commands_of_raisesTransportError ((exec_answered hhost h).brokenOff hst).1 hno
  exact ⟨htr, hpin, hts, hbus, hcount, hbusy, hstatus⟩

end Sys2Proof.Machine
end
